-- ==== Sys2Proof/Word.lean ====
section
/-! DEFINITION. The words of the JPEG baseline encoder core (JEC) and the bit string of rule R17. -/

namespace Sys2Proof

/-- A command word or a result word (R11, R70, R84). -/
abbrev Word := BitVec 32

/-- An 8-bit sample (R74) or symbol byte (R94). -/
abbrev Byte := BitVec 8

/-- A 16-bit two's-complement value: a `raw` field, a `QBUF` entry, a predictor, a VLI operand (R11). -/
abbrev Half := BitVec 16

/-- A zigzag index or a natural index, 0..63 (R57). -/
abbrev Index := BitVec 6

/-- A bit string of length `len`, with the value `bits < 2 ^ len`; its first bit is bit `len - 1` (R17). -/
structure BitString where
  len  : Nat
  bits : Nat
deriving DecidableEq, Repr

end Sys2Proof
end

