-- ==== Sys2Proof/Syntax.lean ====
section
/-! DEFINITION. The commands of the JEC, one constructor per row of spec/opcode_table.json (R71), and the names of
components, channel-classes and code tables. -/

namespace Sys2Proof

/-- One decoded command. A field holds the bits its format gives it (R73 to R81). A value that the format can hold and the
operation does not accept (class 2 or 3, component 3) is no illegal encoding (R72), so `cls` and `comp` stay 2-bit codes,
checked by their command. -/
inductive Instr where
  /-- `NOP`, format F0 (R73, R250). -/
  | nop
  /-- `INIT`, format F0 (R73, R251). -/
  | init
  /-- `CSC R, G, B`, format FP (R74, R100). -/
  | csc (r g b : Byte)
  /-- `QLD cls, n, raw`, format FQ (R75, R120). -/
  | qld (cls : BitVec 2) (n : Index) (raw : Half)
  /-- `ZRD k`, format FK (R76, R128). -/
  | zrd (k : Index)
  /-- `DCP comp, dc`, format FD (R77, R151). -/
  | dcp (comp : BitVec 2) (dc : Half)
  /-- `VLI v`, format FV (R78, R192). -/
  | vli (v : Half)
  /-- `HLK t, sym`, format FH (R79, R195). -/
  | hlk (t : BitVec 2) (sym : Byte)
  /-- `ENC comp`, format FE (R80, R220). -/
  | enc (comp : BitVec 2)
  /-- `RDREG reg`, format FR (R81, R252). -/
  | rdreg (reg : Byte)
deriving DecidableEq, Repr

/-- A component of the image: Y = 0, Cb = 1, Cr = 2 (R11, R19). -/
inductive Component where
  | y
  | cb
  | cr
deriving DecidableEq, Repr

/-- A channel-class: luma = 0, chroma = 1 (R11, R19). -/
inductive ChannelClass where
  | luma
  | chroma
deriving DecidableEq, Repr

/-- A code table: `t = 2 * tc + id`, class `tc` 0 = DC, 1 = AC, destination `id` 0 = luma, 1 = chroma (R9). -/
inductive TableId where
  | dcLuma
  | dcChroma
  | acLuma
  | acChroma
deriving DecidableEq, Repr

end Sys2Proof
end

