-- ==== Sys2Proof/WellFormed.lean ====
section
/-! DEFINITION. Which terms of `Instr` stand for a command word. -/

namespace Sys2Proof

/-- The one operand value that a format can hold and no command word may: a register number above 6 makes the word
illegal (R72 (c), R81). Every other field value is a legal encoding. -/
def Instr.wellFormed : Instr → Bool
  | .nop => true
  | .init => true
  | .csc _ _ _ => true
  | .qld _ _ _ => true
  | .zrd _ => true
  | .dcp _ _ => true
  | .vli _ => true
  | .hlk _ _ => true
  | .enc _ => true
  | .rdreg reg => decide (reg ≤ 6)

end Sys2Proof
end

