-- ==== Sys2Proof/Decode.lean ====
section
/-! DEFINITION. The decoder of rule R83, total on all 2^32 words, and the encoder written from the formats R73 to R81. -/

namespace Sys2Proof

/-- Why a word is an illegal command: the three cases of R72. -/
inductive DecodeError where
  /-- (a) the opcode is 0xA to 0xF. -/
  | reservedOpcode (op : BitVec 4)
  /-- (b) a bit that the format of this opcode reserves as 0 is 1. -/
  | reservedBitSet (op : BitVec 4)
  /-- (c) RDREG with a register number above 6. -/
  | reservedRegister (reg : Byte)
deriving DecidableEq, Repr

/-- The word's command if the bits its format reserves are 0, else the rejection (R72 (b)). -/
def whenZero {n : Nat} (op : BitVec 4) (reserved : BitVec n) (i : Instr) : Except DecodeError Instr :=
  if reserved = 0 then .ok i else .error (.reservedBitSet op)

/-- The decoder, case by case as R83 writes it; `w.extractLsb' lo n` is `w[lo + n - 1 : lo]`. -/
def decode (w : Word) : Except DecodeError Instr :=
  match (w.extractLsb' 28 4).toNat with
  | 0 => whenZero 0 (w.extractLsb' 0 28) .nop
  | 1 => whenZero 1 (w.extractLsb' 0 28) .init
  | 2 => whenZero 2 (w.extractLsb' 24 4) (.csc (w.extractLsb' 16 8) (w.extractLsb' 8 8) (w.extractLsb' 0 8))
  | 3 => whenZero 3 (w.extractLsb' 16 4) (.qld (w.extractLsb' 26 2) (w.extractLsb' 20 6) (w.extractLsb' 0 16))
  | 4 => whenZero 4 (w.extractLsb' 6 22) (.zrd (w.extractLsb' 0 6))
  | 5 => whenZero 5 (w.extractLsb' 16 10) (.dcp (w.extractLsb' 26 2) (w.extractLsb' 0 16))
  | 6 => whenZero 6 (w.extractLsb' 16 12) (.vli (w.extractLsb' 0 16))
  | 7 => whenZero 7 (w.extractLsb' 8 18) (.hlk (w.extractLsb' 26 2) (w.extractLsb' 0 8))
  | 8 => whenZero 8 (w.extractLsb' 0 26) (.enc (w.extractLsb' 26 2))
  | 9 =>
    if w.extractLsb' 8 20 = 0 then
      if w.extractLsb' 0 8 ≤ 6 then .ok (.rdreg (w.extractLsb' 0 8)) else .error (.reservedRegister (w.extractLsb' 0 8))
    else .error (.reservedBitSet 9)
  | _ => .error (.reservedOpcode (w.extractLsb' 28 4))

/-- The word of a well-formed command, from the patterns of R73 to R81, high field first. -/
def encode : Instr → Word
  | .nop => 0x0#4 ++ 0#28
  | .init => 0x1#4 ++ 0#28
  | .csc r g b => 0x2#4 ++ 0#4 ++ r ++ g ++ b
  | .qld cls n raw => 0x3#4 ++ cls ++ n ++ 0#4 ++ raw
  | .zrd k => 0x4#4 ++ 0#22 ++ k
  | .dcp comp dc => 0x5#4 ++ comp ++ 0#10 ++ dc
  | .vli v => 0x6#4 ++ 0#12 ++ v
  | .hlk t sym => 0x7#4 ++ t ++ 0#18 ++ sym
  | .enc comp => 0x8#4 ++ comp ++ 0#26
  | .rdreg reg => 0x9#4 ++ 0#20 ++ reg

/-- What the decoder reads from an instruction whose bits, numbered as spec/opcode_table.json numbers them, are `w`: the
table's rows are one 32-bit word, bits above `nbits` are 0. -/
def decodeTableWord (nbits w : Nat) : Option Instr :=
  match decode (BitVec.ofNat 32 (w % 2 ^ nbits)) with
  | .ok i => some i
  | .error _ => none

end Sys2Proof
end

