-- ==== Sys2Proof/Config.lean ====
section
/-! DEFINITION. What an instance of the JEC fixes when it is built (R8 to R12, R28), and the free values of the spec's
draws (R18). -/

namespace Sys2Proof

/-- `RND_TIES`: how an exact tie rounds (R10, R16). -/
inductive TieRule where
  | halfEven
  | halfAway
  | halfUp
deriving DecidableEq, Repr

/-- One entry of the code ROM that is not `none`: the symbol, a 5-bit length and a 16-bit right-aligned code (R194). -/
structure RomEntry where
  sym  : BitVec 8
  len  : BitVec 5
  code : BitVec 16
deriving DecidableEq, Repr

/-- One code table: its entries in strictly rising symbol order; a symbol not listed has the entry `none` (R194). -/
abbrev CodeTable := List RomEntry

/-- The parameters of one instance. No command writes any of them; they hold for the life of the instance, across INIT
and reset (R28). -/
structure Config where
  /-- `QTAB[0]`, natural index (R8). -/
  qtabLuma     : Vector (BitVec 8) 64
  /-- `QTAB[1]`, natural index (R8). -/
  qtabChroma   : Vector (BitVec 8) 64
  /-- `HUFF[0]` (R9). -/
  huffDcLuma   : CodeTable
  /-- `HUFF[1]` (R9). -/
  huffDcChroma : CodeTable
  /-- `HUFF[2]` (R9). -/
  huffAcLuma   : CodeTable
  /-- `HUFF[3]` (R9). -/
  huffAcChroma : CodeTable
  /-- `RND_TIES` (R10). -/
  rndTies      : TieRule
  /-- `OUT_DEPTH`: the words OUT can hold, `none` for an unbounded OUT (R12, R316). -/
  outDepth     : Option Nat
deriving DecidableEq, Repr

/-- The `c`-th 16-bit draw (R18). It has no body: the spec fixes no value (R128, U2), so no proof can know one.
DESIGN CHOICE (log entry 2), safe. -/
opaque Config.freeValue : Nat → BitVec 16

/-- The `c`-th drawn count, reduced to its range where it is used (R227, U3). It has no body.
DESIGN CHOICE (log entry 6), safe. -/
opaque Config.freeCount : Nat → Nat

end Sys2Proof
end

