-- ==== Sys2Proof/Machine/Arith.lean ====
section
/-! DEFINITION. The arithmetic primitives of 00_scope.md: `bitlen`, `fdiv`, `fmod`, `round_T`, bit strings; and the VLI
coder of R190, R191, R193. All arithmetic is on integers that never overflow (R13). -/

namespace Sys2Proof.Machine

/-- `bitlen(m)`: the number of binary digits of `m` (R14). -/
def bitlen (m : Nat) : Nat := if m = 0 then 0 else Nat.log2 m + 1

/-- `fdiv(n, d)`: the floor of `n / d`, for `d > 0` (R15). -/
def fdiv (n d : Int) : Int := n / d

/-- `fmod(n, d) = n - d * fdiv(n, d)` (R15). -/
def fmod (n d : Int) : Int := n - d * fdiv n d

/-- How `round_T` resolves the tie `q + 1/2 = n / d` (R16). -/
def roundTie (t : TieRule) (n q : Int) : Int :=
  match t with
  | .halfEven => if q % 2 = 0 then q else q + 1
  | .halfAway => if 0 ≤ n then q + 1 else q
  | .halfUp => q + 1

/-- `round_T(n, d)`: the integer nearest to `n / d`, for `d > 0`, ties by `T` (R16). -/
def roundT (t : TieRule) (n d : Int) : Int :=
  if 2 * fmod n d < d then fdiv n d
  else if d < 2 * fmod n d then fdiv n d + 1
  else roundTie t n (fdiv n d)

/-- Concatenation of bit strings (R17). -/
def concatBits (s t : BitString) : BitString := ⟨s.len + t.len, s.bits * 2 ^ t.len + t.bits⟩

/-- The concatenation of a list of bit strings, first string first (R225). -/
def concatAll (ss : List BitString) : BitString := ss.foldl concatBits ⟨0, 0⟩

/-- The category of a signed integer (R190). -/
def category (v : Int) : Nat := bitlen v.natAbs

/-- The value bits of a signed integer (R191). -/
def vliBits (v : Int) : BitString :=
  if 0 ≤ v then ⟨category v, v.toNat⟩ else ⟨category v, (2 ^ category v - 1 + v).toNat⟩

/-- The inverse of `vliBits` (R193). -/
def unvli (s : BitString) : Int :=
  if s.len = 0 then 0
  else if s.bits.testBit (s.len - 1) then s.bits
  else s.bits - (2 ^ s.len - 1)

end Sys2Proof.Machine
end

