-- ==== Sys2Proof/Machine/AcRun.lean ====
section
/-! DEFINITION. The AC run encoder: the symbol list of one block, as a function of its AC coefficients (43_ac_run_encoder.md). -/

namespace Sys2Proof.Machine

/-- One item of the symbol list (R170). -/
inductive AcItem where
  /-- 16 zeros, no value. -/
  | zrl
  /-- `run` zeros, then the nonzero coefficient `v` of category `cat`. -/
  | rc (run cat : Nat) (v : Int)
  /-- The rest of the block is zero. -/
  | eob
deriving DecidableEq, Repr

/-- The scan, with the zeros seen since the last nonzero coefficient: one coefficient a step (R170, R171). -/
def acScan : Nat → List Int → List AcItem
  | zeroRun, [] => if 0 < zeroRun then [.eob] else []
  | zeroRun, v :: vs =>
    if v = 0 then acScan (zeroRun + 1) vs
    else List.replicate (zeroRun / 16) .zrl ++ .rc (zeroRun % 16) (bitlen v.natAbs) v :: acScan 0 vs

/-- `acSymbols(a)` (R170). -/
def acSymbols (a : List Int) : List AcItem := acScan 0 a

/-- `acExpand`, from the position `p` of the last coefficient written (0 at the start) on: entry `j - 1` of the list is the
coefficient at zigzag position `j` (R175). -/
def acExpandFrom : Nat → List Int → List AcItem → List Int
  | _, a, [] => a
  | p, a, .zrl :: items => acExpandFrom (p + 16) a items
  | p, a, .rc run _ v :: items => acExpandFrom (p + run + 1) (a.set (p + run) v) items
  | _, a, .eob :: _ => a

/-- `acExpand(list)` (R175). -/
def acExpand (items : List AcItem) : List Int := acExpandFrom 0 (List.replicate 63 0) items

/-- The symbol byte `run << 4 | cat` (R94, R172). -/
def acSymbol (run cat : Nat) : Byte := BitVec.ofNat 8 (16 * run + cat)

end Sys2Proof.Machine
end

