-- ==== Sys2Proof/Machine/Zigzag.lean ====
section
/-! DEFINITION. The zigzag ROM (R125 to R127). -/

namespace Sys2Proof.Machine

/-- The position of an index in a 64-entry store. -/
def at64 (i : Index) : Fin 64 := i.toFin

/-- `ZZ[k]`, the table of R126: the natural index at zigzag position `k`. -/
def zzTable : Vector Index 64 := #v[
  0, 1, 8, 16, 9, 2, 3, 10, 17, 24, 32, 25, 18, 11, 4, 5,
  12, 19, 26, 33, 40, 48, 41, 34, 27, 20, 13, 6, 7, 14, 21, 28,
  35, 42, 49, 56, 57, 50, 43, 36, 29, 22, 15, 23, 30, 37, 44, 51,
  58, 59, 52, 45, 38, 31, 39, 46, 53, 60, 61, 54, 47, 55, 62, 63]

/-- `ZZINV[n]`, the table of R126: the zigzag position of natural index `n`. -/
def zzInvTable : Vector Index 64 := #v[
  0, 1, 5, 6, 14, 15, 27, 28, 2, 4, 7, 13, 16, 26, 29, 42,
  3, 8, 12, 17, 25, 30, 41, 43, 9, 11, 18, 24, 31, 40, 44, 53,
  10, 19, 23, 32, 39, 45, 52, 54, 20, 22, 33, 38, 46, 51, 55, 60,
  21, 34, 37, 47, 50, 56, 59, 61, 35, 36, 48, 49, 57, 58, 62, 63]
/-- `ZZ[k]` (R126). -/
def zz (k : Index) : Index := zzTable[at64 k]

/-- `ZZINV[n]` (R126). -/
def zzInv (n : Index) : Index := zzInvTable[at64 n]

/-- One step of the path of R125 from row `r`, column `c`, moving up-right if `up`: the next row, column and direction. -/
def zigzagMove (r c : Nat) (up : Bool) : Nat × Nat × Bool :=
  if up then
    if c = 7 then (r + 1, c, false)
    else if r = 0 then (r, c + 1, false)
    else (r - 1, c + 1, true)
  else
    if r = 7 then (r, c + 1, true)
    else if c = 0 then (r + 1, c, true)
    else (r + 1, c - 1, false)

/-- The natural indices `8 * r + c` of `len` positions of the path of R125, from row `r`, column `c` on. -/
def zigzagPath : Nat → Nat → Nat → Bool → List Nat
  | 0, _, _, _ => []
  | len + 1, r, c, up =>
    (8 * r + c) ::
      zigzagPath len (zigzagMove r c up).1 (zigzagMove r c up).2.1 (zigzagMove r c up).2.2

end Sys2Proof.Machine
end

