-- ==== Sys2Proof/Machine/Rom.lean ====
section
/-! DEFINITION. Reading the quantization and code ROMs (R18, R35, R194), and which configurations describe an instance of
the JEC (R8, R9, R12, R196). -/

namespace Sys2Proof.Machine

/-- `QROM(cls, n)`, a value 1..255 (R18, R124). -/
def qrom (c : Config) (cls : ChannelClass) (n : Index) : BitVec 8 :=
  match cls with
  | .luma => c.qtabLuma[at64 n]
  | .chroma => c.qtabChroma[at64 n]

/-- `HUFF[t]` (R9). -/
def huff (c : Config) : TableId → CodeTable
  | .dcLuma => c.huffDcLuma
  | .dcChroma => c.huffDcChroma
  | .acLuma => c.huffAcLuma
  | .acChroma => c.huffAcChroma

/-- The bit string of a ROM entry (R194). -/
def entryString (e : RomEntry) : BitString := ⟨e.len.toNat, e.code.toNat⟩

/-- The entry of a table at a symbol: a bit string, or `none` (R194). -/
def lookup (tab : CodeTable) (s : Byte) : Option BitString :=
  (tab.find? fun e => e.sym == s).map entryString

/-- `HROM(t, s)` (R18). -/
def hrom (c : Config) (t : TableId) (s : Byte) : Option BitString := lookup (huff c t) s

/-- An entry's length is 1..16 and its code fits it (R196 (a)). -/
def entryFits (e : RomEntry) : Bool :=
  decide (1 ≤ e.len.toNat) && decide (e.len.toNat ≤ 16) && decide (e.code.toNat < 2 ^ e.len.toNat)

/-- The code of `e` is a prefix of the code of `f`, or equal to it: it is the first `len e` bits of it (R17, R196 (b)). -/
def codePrefix (e f : RomEntry) : Bool :=
  Nat.ble e.len.toNat f.len.toNat && Nat.beq (f.code.toNat / 2 ^ (f.len.toNat - e.len.toNat)) e.code.toNat

/-- No code of the table is a prefix of another, and no two symbols have one code (R196 (b)). -/
def prefixFree : CodeTable → Bool
  | [] => true
  | e :: es => es.all (fun f => !(codePrefix e f || codePrefix f e)) && prefixFree es

/-- The symbols of a DC table: the categories 0..11 (R94, R196 (c)). -/
def isDcSymbol (s : Byte) : Bool := decide (s.toNat ≤ 11)

/-- The symbols of an AC table: EOB, ZRL, and `run << 4 | category` with category 1..10 (R94, R196 (d)). -/
def isAcSymbol (s : Byte) : Bool :=
  s == 0x00 || s == 0xF0 || (decide (1 ≤ s.toNat % 16) && decide (s.toNat % 16 ≤ 10))

/-- The symbols are in strictly rising order, so that a table has at most one entry for a symbol (R194). -/
def risingSymbols : CodeTable → Bool
  | [] => true
  | [_] => true
  | e :: f :: es => decide (e.sym.toNat < f.sym.toNat) && risingSymbols (f :: es)

/-- The well-formedness of one table with the given symbols (R196). -/
def tableOk (symbolOk : Byte → Bool) (tab : CodeTable) : Bool :=
  risingSymbols tab && tab.all entryFits && tab.all (fun e => symbolOk e.sym) && prefixFree tab

/-- Every entry of a quantization matrix is 1..255 (R8). -/
def matrixOk (q : Vector (BitVec 8) 64) : Bool := q.toList.all fun x => decide (1 ≤ x.toNat)

/-- `OUT_DEPTH` is a positive integer, or OUT is unbounded (R12). -/
def depthOk : Option Nat → Bool
  | none => true
  | some d => decide (1 ≤ d)

/-- The configurations that describe an instance of the JEC (R8, R9, R12, R196). -/
def admissible (c : Config) : Bool :=
  matrixOk c.qtabLuma && matrixOk c.qtabChroma &&
  tableOk isDcSymbol c.huffDcLuma && tableOk isDcSymbol c.huffDcChroma &&
  tableOk isAcSymbol c.huffAcLuma && tableOk isAcSymbol c.huffAcChroma && depthOk c.outDepth

/-- One code of the canonical construction per listed symbol of the length `len`, counting up from `code` (R201). -/
def canonLength (len code : Nat) : List Nat → CodeTable
  | [] => []
  | s :: ss => ⟨BitVec.ofNat 8 s, BitVec.ofNat 5 len, BitVec.ofNat 16 code⟩ :: canonLength len (code + 1) ss

/-- `canon(BITS, HUFFVAL)` from the length `len` and the code `code` on (R201). -/
def canon : List Nat → List Nat → Nat → Nat → CodeTable
  | [], _, _, _ => []
  | b :: bs, vals, len, code =>
    canonLength len code (vals.take b) ++ canon bs (vals.drop b) (len + 1) ((code + b) * 2)

/-- The entries of a table by code length, and by symbol within one length (R203). -/
def byLength (tab : CodeTable) : CodeTable :=
  (List.range' 1 16).flatMap fun len => tab.filter fun e => Nat.beq e.len.toNat len

/-- `BITS[1..16]` of a table: how many codes it has of each length (R201, R203). -/
def lengthCounts (tab : CodeTable) : List Nat :=
  (List.range' 1 16).map fun len => (tab.filter fun e => Nat.beq e.len.toNat len).length

/-- `HUFFVAL` of a table: its symbols sorted by code length, then by symbol (R203). -/
def symbolsByLength (tab : CodeTable) : List Nat := (byLength tab).map fun e => e.sym.toNat

/-- A canonical table: all its entries, sorted so, are `canon(BITS, HUFFVAL)` (R203). The core does not check this. -/
def canonical (tab : CodeTable) : Bool :=
  canon (lengthCounts tab) (symbolsByLength tab) 1 0 == byLength tab && Nat.beq (byLength tab).length tab.length

end Sys2Proof.Machine
end

