-- ==== Sys2Proof/Machine/Tables.lean ====
section
/-! DEFINITION. The default configuration: the quantization matrices of R123, the code tables of R197 to R200, written out
from the spec's own listings, the BITS and HUFFVAL lists of R201, `RND_TIES = HALF_EVEN` (R10) and an unbounded OUT (R12, R316). -/

namespace Sys2Proof.Machine

/-- `QTAB[0]`, rows `r` of eight columns `c`, natural index `8 * r + c` (R123). -/
def defaultQtabLuma : Vector (BitVec 8) 64 := #v[
  16, 11, 10, 16, 24, 40, 51, 61,
  12, 12, 14, 19, 26, 58, 60, 55,
  14, 13, 16, 24, 40, 57, 69, 56,
  14, 17, 22, 29, 51, 87, 80, 62,
  18, 22, 37, 56, 68, 109, 103, 77,
  24, 35, 55, 64, 81, 104, 113, 92,
  49, 64, 78, 87, 103, 121, 120, 101,
  72, 92, 95, 98, 112, 100, 103, 99]

/-- `QTAB[1]`, rows `r` of eight columns `c`, natural index `8 * r + c` (R123). -/
def defaultQtabChroma : Vector (BitVec 8) 64 := #v[
  17, 18, 24, 47, 99, 99, 99, 99,
  18, 21, 26, 66, 99, 99, 99, 99,
  24, 26, 56, 99, 99, 99, 99, 99,
  47, 66, 99, 99, 99, 99, 99, 99,
  99, 99, 99, 99, 99, 99, 99, 99,
  99, 99, 99, 99, 99, 99, 99, 99,
  99, 99, 99, 99, 99, 99, 99, 99,
  99, 99, 99, 99, 99, 99, 99, 99]

/-- One row of a listing: symbol, length, code. -/
def row (sym len code : Nat) : RomEntry := ⟨BitVec.ofNat 8 sym, BitVec.ofNat 5 len, BitVec.ofNat 16 code⟩

/-- `HUFF[0]`, DC-luma (R197). -/
def defaultDcLuma : CodeTable := [
  row 0x00 2 0b00, row 0x01 3 0b010, row 0x02 3 0b011,
  row 0x03 3 0b100, row 0x04 3 0b101, row 0x05 3 0b110,
  row 0x06 4 0b1110, row 0x07 5 0b11110, row 0x08 6 0b111110,
  row 0x09 7 0b1111110, row 0x0A 8 0b11111110, row 0x0B 9 0b111111110]

/-- `HUFF[1]`, DC-chroma (R198). -/
def defaultDcChroma : CodeTable := [
  row 0x00 2 0b00, row 0x01 2 0b01, row 0x02 2 0b10,
  row 0x03 3 0b110, row 0x04 4 0b1110, row 0x05 5 0b11110,
  row 0x06 6 0b111110, row 0x07 7 0b1111110, row 0x08 8 0b11111110,
  row 0x09 9 0b111111110, row 0x0A 10 0b1111111110, row 0x0B 11 0b11111111110]

/-- Run 0 of `defaultAcLuma`. -/
def defaultAcLumaRun0 : CodeTable := [
  row 0x00 4 0b1010, row 0x01 2 0b00, row 0x02 2 0b01,
  row 0x03 3 0b100, row 0x04 4 0b1011, row 0x05 5 0b11010,
  row 0x06 7 0b1111000, row 0x07 8 0b11111000, row 0x08 10 0b1111110110,
  row 0x09 16 0b1111111110000010, row 0x0A 16 0b1111111110000011]

/-- Run 1 of `defaultAcLuma`. -/
def defaultAcLumaRun1 : CodeTable := [
  row 0x11 4 0b1100, row 0x12 5 0b11011, row 0x13 7 0b1111001,
  row 0x14 9 0b111110110, row 0x15 11 0b11111110110, row 0x16 16 0b1111111110000100,
  row 0x17 16 0b1111111110000101, row 0x18 16 0b1111111110000110, row 0x19 16 0b1111111110000111,
  row 0x1A 16 0b1111111110001000]

/-- Run 2 of `defaultAcLuma`. -/
def defaultAcLumaRun2 : CodeTable := [
  row 0x21 5 0b11100, row 0x22 8 0b11111001, row 0x23 10 0b1111110111,
  row 0x24 12 0b111111110100, row 0x25 16 0b1111111110001001, row 0x26 16 0b1111111110001010,
  row 0x27 16 0b1111111110001011, row 0x28 16 0b1111111110001100, row 0x29 16 0b1111111110001101,
  row 0x2A 16 0b1111111110001110]

/-- Run 3 of `defaultAcLuma`. -/
def defaultAcLumaRun3 : CodeTable := [
  row 0x31 6 0b111010, row 0x32 9 0b111110111, row 0x33 12 0b111111110101,
  row 0x34 16 0b1111111110001111, row 0x35 16 0b1111111110010000, row 0x36 16 0b1111111110010001,
  row 0x37 16 0b1111111110010010, row 0x38 16 0b1111111110010011, row 0x39 16 0b1111111110010100,
  row 0x3A 16 0b1111111110010101]

/-- Run 4 of `defaultAcLuma`. -/
def defaultAcLumaRun4 : CodeTable := [
  row 0x41 6 0b111011, row 0x42 10 0b1111111000, row 0x43 16 0b1111111110010110,
  row 0x44 16 0b1111111110010111, row 0x45 16 0b1111111110011000, row 0x46 16 0b1111111110011001,
  row 0x47 16 0b1111111110011010, row 0x48 16 0b1111111110011011, row 0x49 16 0b1111111110011100,
  row 0x4A 16 0b1111111110011101]

/-- Run 5 of `defaultAcLuma`. -/
def defaultAcLumaRun5 : CodeTable := [
  row 0x51 7 0b1111010, row 0x52 11 0b11111110111, row 0x53 16 0b1111111110011110,
  row 0x54 16 0b1111111110011111, row 0x55 16 0b1111111110100000, row 0x56 16 0b1111111110100001,
  row 0x57 16 0b1111111110100010, row 0x58 16 0b1111111110100011, row 0x59 16 0b1111111110100100,
  row 0x5A 16 0b1111111110100101]

/-- Run 6 of `defaultAcLuma`. -/
def defaultAcLumaRun6 : CodeTable := [
  row 0x61 7 0b1111011, row 0x62 12 0b111111110110, row 0x63 16 0b1111111110100110,
  row 0x64 16 0b1111111110100111, row 0x65 16 0b1111111110101000, row 0x66 16 0b1111111110101001,
  row 0x67 16 0b1111111110101010, row 0x68 16 0b1111111110101011, row 0x69 16 0b1111111110101100,
  row 0x6A 16 0b1111111110101101]

/-- Run 7 of `defaultAcLuma`. -/
def defaultAcLumaRun7 : CodeTable := [
  row 0x71 8 0b11111010, row 0x72 12 0b111111110111, row 0x73 16 0b1111111110101110,
  row 0x74 16 0b1111111110101111, row 0x75 16 0b1111111110110000, row 0x76 16 0b1111111110110001,
  row 0x77 16 0b1111111110110010, row 0x78 16 0b1111111110110011, row 0x79 16 0b1111111110110100,
  row 0x7A 16 0b1111111110110101]

/-- Run 8 of `defaultAcLuma`. -/
def defaultAcLumaRun8 : CodeTable := [
  row 0x81 9 0b111111000, row 0x82 15 0b111111111000000, row 0x83 16 0b1111111110110110,
  row 0x84 16 0b1111111110110111, row 0x85 16 0b1111111110111000, row 0x86 16 0b1111111110111001,
  row 0x87 16 0b1111111110111010, row 0x88 16 0b1111111110111011, row 0x89 16 0b1111111110111100,
  row 0x8A 16 0b1111111110111101]

/-- Run 9 of `defaultAcLuma`. -/
def defaultAcLumaRun9 : CodeTable := [
  row 0x91 9 0b111111001, row 0x92 16 0b1111111110111110, row 0x93 16 0b1111111110111111,
  row 0x94 16 0b1111111111000000, row 0x95 16 0b1111111111000001, row 0x96 16 0b1111111111000010,
  row 0x97 16 0b1111111111000011, row 0x98 16 0b1111111111000100, row 0x99 16 0b1111111111000101,
  row 0x9A 16 0b1111111111000110]

/-- Run 10 of `defaultAcLuma`. -/
def defaultAcLumaRun10 : CodeTable := [
  row 0xA1 9 0b111111010, row 0xA2 16 0b1111111111000111, row 0xA3 16 0b1111111111001000,
  row 0xA4 16 0b1111111111001001, row 0xA5 16 0b1111111111001010, row 0xA6 16 0b1111111111001011,
  row 0xA7 16 0b1111111111001100, row 0xA8 16 0b1111111111001101, row 0xA9 16 0b1111111111001110,
  row 0xAA 16 0b1111111111001111]

/-- Run 11 of `defaultAcLuma`. -/
def defaultAcLumaRun11 : CodeTable := [
  row 0xB1 10 0b1111111001, row 0xB2 16 0b1111111111010000, row 0xB3 16 0b1111111111010001,
  row 0xB4 16 0b1111111111010010, row 0xB5 16 0b1111111111010011, row 0xB6 16 0b1111111111010100,
  row 0xB7 16 0b1111111111010101, row 0xB8 16 0b1111111111010110, row 0xB9 16 0b1111111111010111,
  row 0xBA 16 0b1111111111011000]

/-- Run 12 of `defaultAcLuma`. -/
def defaultAcLumaRun12 : CodeTable := [
  row 0xC1 10 0b1111111010, row 0xC2 16 0b1111111111011001, row 0xC3 16 0b1111111111011010,
  row 0xC4 16 0b1111111111011011, row 0xC5 16 0b1111111111011100, row 0xC6 16 0b1111111111011101,
  row 0xC7 16 0b1111111111011110, row 0xC8 16 0b1111111111011111, row 0xC9 16 0b1111111111100000,
  row 0xCA 16 0b1111111111100001]

/-- Run 13 of `defaultAcLuma`. -/
def defaultAcLumaRun13 : CodeTable := [
  row 0xD1 11 0b11111111000, row 0xD2 16 0b1111111111100010, row 0xD3 16 0b1111111111100011,
  row 0xD4 16 0b1111111111100100, row 0xD5 16 0b1111111111100101, row 0xD6 16 0b1111111111100110,
  row 0xD7 16 0b1111111111100111, row 0xD8 16 0b1111111111101000, row 0xD9 16 0b1111111111101001,
  row 0xDA 16 0b1111111111101010]

/-- Run 14 of `defaultAcLuma`. -/
def defaultAcLumaRun14 : CodeTable := [
  row 0xE1 16 0b1111111111101011, row 0xE2 16 0b1111111111101100, row 0xE3 16 0b1111111111101101,
  row 0xE4 16 0b1111111111101110, row 0xE5 16 0b1111111111101111, row 0xE6 16 0b1111111111110000,
  row 0xE7 16 0b1111111111110001, row 0xE8 16 0b1111111111110010, row 0xE9 16 0b1111111111110011,
  row 0xEA 16 0b1111111111110100]

/-- Run 15 of `defaultAcLuma`. -/
def defaultAcLumaRun15 : CodeTable := [
  row 0xF0 11 0b11111111001, row 0xF1 16 0b1111111111110101, row 0xF2 16 0b1111111111110110,
  row 0xF3 16 0b1111111111110111, row 0xF4 16 0b1111111111111000, row 0xF5 16 0b1111111111111001,
  row 0xF6 16 0b1111111111111010, row 0xF7 16 0b1111111111111011, row 0xF8 16 0b1111111111111100,
  row 0xF9 16 0b1111111111111101, row 0xFA 16 0b1111111111111110]

/-- `HUFF[2]`, AC-luma (R199), by the high nibble (the run) of the symbol. -/
def defaultAcLuma : CodeTable :=
  defaultAcLumaRun0 ++ defaultAcLumaRun1 ++ defaultAcLumaRun2 ++ defaultAcLumaRun3 ++
  defaultAcLumaRun4 ++ defaultAcLumaRun5 ++ defaultAcLumaRun6 ++ defaultAcLumaRun7 ++
  defaultAcLumaRun8 ++ defaultAcLumaRun9 ++ defaultAcLumaRun10 ++ defaultAcLumaRun11 ++
  defaultAcLumaRun12 ++ defaultAcLumaRun13 ++ defaultAcLumaRun14 ++ defaultAcLumaRun15

/-- Run 0 of `defaultAcChroma`. -/
def defaultAcChromaRun0 : CodeTable := [
  row 0x00 2 0b00, row 0x01 2 0b01, row 0x02 3 0b100,
  row 0x03 4 0b1010, row 0x04 5 0b11000, row 0x05 5 0b11001,
  row 0x06 6 0b111000, row 0x07 7 0b1111000, row 0x08 9 0b111110100,
  row 0x09 10 0b1111110110, row 0x0A 12 0b111111110100]

/-- Run 1 of `defaultAcChroma`. -/
def defaultAcChromaRun1 : CodeTable := [
  row 0x11 4 0b1011, row 0x12 6 0b111001, row 0x13 8 0b11110110,
  row 0x14 9 0b111110101, row 0x15 11 0b11111110110, row 0x16 12 0b111111110101,
  row 0x17 16 0b1111111110001000, row 0x18 16 0b1111111110001001, row 0x19 16 0b1111111110001010,
  row 0x1A 16 0b1111111110001011]

/-- Run 2 of `defaultAcChroma`. -/
def defaultAcChromaRun2 : CodeTable := [
  row 0x21 5 0b11010, row 0x22 8 0b11110111, row 0x23 10 0b1111110111,
  row 0x24 12 0b111111110110, row 0x25 15 0b111111111000010, row 0x26 16 0b1111111110001100,
  row 0x27 16 0b1111111110001101, row 0x28 16 0b1111111110001110, row 0x29 16 0b1111111110001111,
  row 0x2A 16 0b1111111110010000]

/-- Run 3 of `defaultAcChroma`. -/
def defaultAcChromaRun3 : CodeTable := [
  row 0x31 5 0b11011, row 0x32 8 0b11111000, row 0x33 10 0b1111111000,
  row 0x34 12 0b111111110111, row 0x35 16 0b1111111110010001, row 0x36 16 0b1111111110010010,
  row 0x37 16 0b1111111110010011, row 0x38 16 0b1111111110010100, row 0x39 16 0b1111111110010101,
  row 0x3A 16 0b1111111110010110]

/-- Run 4 of `defaultAcChroma`. -/
def defaultAcChromaRun4 : CodeTable := [
  row 0x41 6 0b111010, row 0x42 9 0b111110110, row 0x43 16 0b1111111110010111,
  row 0x44 16 0b1111111110011000, row 0x45 16 0b1111111110011001, row 0x46 16 0b1111111110011010,
  row 0x47 16 0b1111111110011011, row 0x48 16 0b1111111110011100, row 0x49 16 0b1111111110011101,
  row 0x4A 16 0b1111111110011110]

/-- Run 5 of `defaultAcChroma`. -/
def defaultAcChromaRun5 : CodeTable := [
  row 0x51 6 0b111011, row 0x52 10 0b1111111001, row 0x53 16 0b1111111110011111,
  row 0x54 16 0b1111111110100000, row 0x55 16 0b1111111110100001, row 0x56 16 0b1111111110100010,
  row 0x57 16 0b1111111110100011, row 0x58 16 0b1111111110100100, row 0x59 16 0b1111111110100101,
  row 0x5A 16 0b1111111110100110]

/-- Run 6 of `defaultAcChroma`. -/
def defaultAcChromaRun6 : CodeTable := [
  row 0x61 7 0b1111001, row 0x62 11 0b11111110111, row 0x63 16 0b1111111110100111,
  row 0x64 16 0b1111111110101000, row 0x65 16 0b1111111110101001, row 0x66 16 0b1111111110101010,
  row 0x67 16 0b1111111110101011, row 0x68 16 0b1111111110101100, row 0x69 16 0b1111111110101101,
  row 0x6A 16 0b1111111110101110]

/-- Run 7 of `defaultAcChroma`. -/
def defaultAcChromaRun7 : CodeTable := [
  row 0x71 7 0b1111010, row 0x72 11 0b11111111000, row 0x73 16 0b1111111110101111,
  row 0x74 16 0b1111111110110000, row 0x75 16 0b1111111110110001, row 0x76 16 0b1111111110110010,
  row 0x77 16 0b1111111110110011, row 0x78 16 0b1111111110110100, row 0x79 16 0b1111111110110101,
  row 0x7A 16 0b1111111110110110]

/-- Run 8 of `defaultAcChroma`. -/
def defaultAcChromaRun8 : CodeTable := [
  row 0x81 8 0b11111001, row 0x82 16 0b1111111110110111, row 0x83 16 0b1111111110111000,
  row 0x84 16 0b1111111110111001, row 0x85 16 0b1111111110111010, row 0x86 16 0b1111111110111011,
  row 0x87 16 0b1111111110111100, row 0x88 16 0b1111111110111101, row 0x89 16 0b1111111110111110,
  row 0x8A 16 0b1111111110111111]

/-- Run 9 of `defaultAcChroma`. -/
def defaultAcChromaRun9 : CodeTable := [
  row 0x91 9 0b111110111, row 0x92 16 0b1111111111000000, row 0x93 16 0b1111111111000001,
  row 0x94 16 0b1111111111000010, row 0x95 16 0b1111111111000011, row 0x96 16 0b1111111111000100,
  row 0x97 16 0b1111111111000101, row 0x98 16 0b1111111111000110, row 0x99 16 0b1111111111000111,
  row 0x9A 16 0b1111111111001000]

/-- Run 10 of `defaultAcChroma`. -/
def defaultAcChromaRun10 : CodeTable := [
  row 0xA1 9 0b111111000, row 0xA2 16 0b1111111111001001, row 0xA3 16 0b1111111111001010,
  row 0xA4 16 0b1111111111001011, row 0xA5 16 0b1111111111001100, row 0xA6 16 0b1111111111001101,
  row 0xA7 16 0b1111111111001110, row 0xA8 16 0b1111111111001111, row 0xA9 16 0b1111111111010000,
  row 0xAA 16 0b1111111111010001]

/-- Run 11 of `defaultAcChroma`. -/
def defaultAcChromaRun11 : CodeTable := [
  row 0xB1 9 0b111111001, row 0xB2 16 0b1111111111010010, row 0xB3 16 0b1111111111010011,
  row 0xB4 16 0b1111111111010100, row 0xB5 16 0b1111111111010101, row 0xB6 16 0b1111111111010110,
  row 0xB7 16 0b1111111111010111, row 0xB8 16 0b1111111111011000, row 0xB9 16 0b1111111111011001,
  row 0xBA 16 0b1111111111011010]

/-- Run 12 of `defaultAcChroma`. -/
def defaultAcChromaRun12 : CodeTable := [
  row 0xC1 9 0b111111010, row 0xC2 16 0b1111111111011011, row 0xC3 16 0b1111111111011100,
  row 0xC4 16 0b1111111111011101, row 0xC5 16 0b1111111111011110, row 0xC6 16 0b1111111111011111,
  row 0xC7 16 0b1111111111100000, row 0xC8 16 0b1111111111100001, row 0xC9 16 0b1111111111100010,
  row 0xCA 16 0b1111111111100011]

/-- Run 13 of `defaultAcChroma`. -/
def defaultAcChromaRun13 : CodeTable := [
  row 0xD1 11 0b11111111001, row 0xD2 16 0b1111111111100100, row 0xD3 16 0b1111111111100101,
  row 0xD4 16 0b1111111111100110, row 0xD5 16 0b1111111111100111, row 0xD6 16 0b1111111111101000,
  row 0xD7 16 0b1111111111101001, row 0xD8 16 0b1111111111101010, row 0xD9 16 0b1111111111101011,
  row 0xDA 16 0b1111111111101100]

/-- Run 14 of `defaultAcChroma`. -/
def defaultAcChromaRun14 : CodeTable := [
  row 0xE1 14 0b11111111100000, row 0xE2 16 0b1111111111101101, row 0xE3 16 0b1111111111101110,
  row 0xE4 16 0b1111111111101111, row 0xE5 16 0b1111111111110000, row 0xE6 16 0b1111111111110001,
  row 0xE7 16 0b1111111111110010, row 0xE8 16 0b1111111111110011, row 0xE9 16 0b1111111111110100,
  row 0xEA 16 0b1111111111110101]

/-- Run 15 of `defaultAcChroma`. -/
def defaultAcChromaRun15 : CodeTable := [
  row 0xF0 10 0b1111111010, row 0xF1 15 0b111111111000011, row 0xF2 16 0b1111111111110110,
  row 0xF3 16 0b1111111111110111, row 0xF4 16 0b1111111111111000, row 0xF5 16 0b1111111111111001,
  row 0xF6 16 0b1111111111111010, row 0xF7 16 0b1111111111111011, row 0xF8 16 0b1111111111111100,
  row 0xF9 16 0b1111111111111101, row 0xFA 16 0b1111111111111110]

/-- `HUFF[3]`, AC-chroma (R200), by the high nibble (the run) of the symbol. -/
def defaultAcChroma : CodeTable :=
  defaultAcChromaRun0 ++ defaultAcChromaRun1 ++ defaultAcChromaRun2 ++ defaultAcChromaRun3 ++
  defaultAcChromaRun4 ++ defaultAcChromaRun5 ++ defaultAcChromaRun6 ++ defaultAcChromaRun7 ++
  defaultAcChromaRun8 ++ defaultAcChromaRun9 ++ defaultAcChromaRun10 ++ defaultAcChromaRun11 ++
  defaultAcChromaRun12 ++ defaultAcChromaRun13 ++ defaultAcChromaRun14 ++ defaultAcChromaRun15

/-- `BITS[1..16]` of DC-luma (R201). -/
def bitsDcLuma : List Nat := [0, 1, 5, 1, 1, 1, 1, 1, 1, 0, 0, 0, 0, 0, 0, 0]

/-- `HUFFVAL` of DC-luma (R201). -/
def valsDcLuma : List Nat := [0, 1, 2, 3, 4, 5, 6, 7, 8, 9, 10, 11]

/-- `BITS[1..16]` of DC-chroma (R201). -/
def bitsDcChroma : List Nat := [0, 3, 1, 1, 1, 1, 1, 1, 1, 1, 1, 0, 0, 0, 0, 0]

/-- `HUFFVAL` of DC-chroma (R201). -/
def valsDcChroma : List Nat := [0, 1, 2, 3, 4, 5, 6, 7, 8, 9, 10, 11]

/-- `BITS[1..16]` of AC-luma (R201). -/
def bitsAcLuma : List Nat := [0, 2, 1, 3, 3, 2, 4, 3, 5, 5, 4, 4, 0, 0, 1, 125]

/-- `HUFFVAL` of AC-luma (R201). -/
def valsAcLuma : List Nat :=
  [0x01, 0x02, 0x03, 0x00, 0x04, 0x11, 0x05, 0x12, 0x21, 0x31, 0x41, 0x06, 0x13, 0x51, 0x61, 0x07, 0x22, 0x71,
  0x14, 0x32, 0x81, 0x91, 0xA1, 0x08, 0x23, 0x42, 0xB1, 0xC1, 0x15, 0x52, 0xD1, 0xF0, 0x24, 0x33, 0x62, 0x72,
  0x82, 0x09, 0x0A, 0x16, 0x17, 0x18, 0x19, 0x1A, 0x25, 0x26, 0x27, 0x28, 0x29, 0x2A, 0x34, 0x35, 0x36, 0x37] ++
  [0x38, 0x39, 0x3A, 0x43, 0x44, 0x45, 0x46, 0x47, 0x48, 0x49, 0x4A, 0x53, 0x54, 0x55, 0x56, 0x57, 0x58, 0x59,
  0x5A, 0x63, 0x64, 0x65, 0x66, 0x67, 0x68, 0x69, 0x6A, 0x73, 0x74, 0x75, 0x76, 0x77, 0x78, 0x79, 0x7A, 0x83,
  0x84, 0x85, 0x86, 0x87, 0x88, 0x89, 0x8A, 0x92, 0x93, 0x94, 0x95, 0x96, 0x97, 0x98, 0x99, 0x9A, 0xA2, 0xA3] ++
  [0xA4, 0xA5, 0xA6, 0xA7, 0xA8, 0xA9, 0xAA, 0xB2, 0xB3, 0xB4, 0xB5, 0xB6, 0xB7, 0xB8, 0xB9, 0xBA, 0xC2, 0xC3,
  0xC4, 0xC5, 0xC6, 0xC7, 0xC8, 0xC9, 0xCA, 0xD2, 0xD3, 0xD4, 0xD5, 0xD6, 0xD7, 0xD8, 0xD9, 0xDA, 0xE1, 0xE2,
  0xE3, 0xE4, 0xE5, 0xE6, 0xE7, 0xE8, 0xE9, 0xEA, 0xF1, 0xF2, 0xF3, 0xF4, 0xF5, 0xF6, 0xF7, 0xF8, 0xF9, 0xFA]

/-- `BITS[1..16]` of AC-chroma (R201). -/
def bitsAcChroma : List Nat := [0, 2, 1, 2, 4, 4, 3, 4, 7, 5, 4, 4, 0, 1, 2, 119]

/-- `HUFFVAL` of AC-chroma (R201). -/
def valsAcChroma : List Nat :=
  [0x00, 0x01, 0x02, 0x03, 0x11, 0x04, 0x05, 0x21, 0x31, 0x06, 0x12, 0x41, 0x51, 0x07, 0x61, 0x71, 0x13, 0x22,
  0x32, 0x81, 0x08, 0x14, 0x42, 0x91, 0xA1, 0xB1, 0xC1, 0x09, 0x23, 0x33, 0x52, 0xF0, 0x15, 0x62, 0x72, 0xD1,
  0x0A, 0x16, 0x24, 0x34, 0xE1, 0x25, 0xF1, 0x17, 0x18, 0x19, 0x1A, 0x26, 0x27, 0x28, 0x29, 0x2A, 0x35, 0x36] ++
  [0x37, 0x38, 0x39, 0x3A, 0x43, 0x44, 0x45, 0x46, 0x47, 0x48, 0x49, 0x4A, 0x53, 0x54, 0x55, 0x56, 0x57, 0x58,
  0x59, 0x5A, 0x63, 0x64, 0x65, 0x66, 0x67, 0x68, 0x69, 0x6A, 0x73, 0x74, 0x75, 0x76, 0x77, 0x78, 0x79, 0x7A,
  0x82, 0x83, 0x84, 0x85, 0x86, 0x87, 0x88, 0x89, 0x8A, 0x92, 0x93, 0x94, 0x95, 0x96, 0x97, 0x98, 0x99, 0x9A] ++
  [0xA2, 0xA3, 0xA4, 0xA5, 0xA6, 0xA7, 0xA8, 0xA9, 0xAA, 0xB2, 0xB3, 0xB4, 0xB5, 0xB6, 0xB7, 0xB8, 0xB9, 0xBA,
  0xC2, 0xC3, 0xC4, 0xC5, 0xC6, 0xC7, 0xC8, 0xC9, 0xCA, 0xD2, 0xD3, 0xD4, 0xD5, 0xD6, 0xD7, 0xD8, 0xD9, 0xDA,
  0xE2, 0xE3, 0xE4, 0xE5, 0xE6, 0xE7, 0xE8, 0xE9, 0xEA, 0xF2, 0xF3, 0xF4, 0xF5, 0xF6, 0xF7, 0xF8, 0xF9, 0xFA]

/-- The default configuration (R8 to R10, R12). -/
def defaultConfig : Config where
  qtabLuma     := defaultQtabLuma
  qtabChroma   := defaultQtabChroma
  huffDcLuma   := defaultDcLuma
  huffDcChroma := defaultDcChroma
  huffAcLuma   := defaultAcLuma
  huffAcChroma := defaultAcChroma
  rndTies      := .halfEven
  outDepth     := none

end Sys2Proof.Machine
end

