-- ==== Sys2Proof/Machine/State.lean ====
section
/-! DEFINITION. The state of the JEC (10_state.md, 20_memory.md R50 and R58), its reset value (R300), and the reasons for
which the model stops. -/

namespace Sys2Proof.Machine

/-- `MODE`: `RUN` (encoded 0) or `FAULT` (encoded 1) (R22). -/
inductive Mode where
  | run
  | fault
deriving DecidableEq, Repr

/-- The fault causes 1 to 5 of R270; 6 to 15 are reserved and never raised (U9). -/
inductive FaultCause where
  /-- 1: the word decodes to ILLEGAL. -/
  | illegalCommand
  /-- 2: QLD with class 2 or 3. -/
  | invalidChannelClass
  /-- 3: DCP or ENC with component 3. -/
  | invalidComponent
  /-- 4: HLK or ENC of a symbol that has no code. -/
  | unknownSymbol
  /-- 5: ENC with a load bit that is 0. -/
  | incompleteBlock
deriving DecidableEq, Repr

/-- The reasons for which a step stops with a fault: none. A fault of the JEC is state (`MODE`, `CAUSE`) and one FLT word,
after which the core goes on taking words (R273, R275); a core that waits on CMD or OUT is not stopped (R58). -/
inductive Fault where
deriving DecidableEq, Repr

/-- The reasons for which the model gives no meaning. -/
inductive Refusal where
  /-- Raised by an arm of `exec` whose instruction has no meaning yet; no arm is left so. Safe: nothing can be proved of a
  next state. -/
  | notModelled (mnemonic : String)
  /-- Raised by `launch`, before any command runs, for a configuration that R8, R9, R12 or R196 does not admit: it describes
  no instance of the JEC (R278, U4). Safe: no state of such an instance is made. -/
  | inadmissibleConfiguration
deriving DecidableEq, Repr

/-- The registers of the core. A command's writes to them take effect together, at its completion (R55). -/
structure Regs where
  /-- `MODE` (R22). -/
  mode   : Mode
  /-- `CAUSE`, 4 bits (R23). -/
  cause  : BitVec 4
  /-- `PRED[0]` (R24). -/
  predY  : Half
  /-- `PRED[1]` (R24). -/
  predCb : Half
  /-- `PRED[2]` (R24). -/
  predCr : Half
  /-- `QBUF[0..63]`, by zigzag index (R25). -/
  qbuf   : Vector Half 64
  /-- `LOADED[63:0]`, bit `k` for zigzag index `k` (R26). -/
  loaded : BitVec 64
deriving DecidableEq, Repr

/-- What a command does: the words it emits, in order, and the registers as its completion leaves them. -/
structure Effect where
  words : List Word
  regs  : Regs
deriving DecidableEq, Repr

/-- The state of one instance. -/
structure State where
  /-- The configuration, which no step changes: the parameters of the step function (R28, log entry 1). -/
  cfg      : Config
  /-- The registers (R22 to R26). -/
  regs     : Regs
  /-- `OUT`: the words emitted and not yet taken by the host, oldest first (R27). -/
  out      : List Word
  /-- `CMD`: the words sent by the host and not yet taken by the core, oldest first (R50). -/
  cmd      : List Word
  /-- The command in progress, if one waits for room on OUT: what it has still to emit, and the registers as its completion
  will leave them (R50, R55, R58). -/
  inflight : Option Effect
  /-- The model's own field: how many draws (R18) have been made (log entry 3). -/
  draws    : Nat
deriving DecidableEq, Repr

/-- The registers after reset (R300). The spec leaves every `QBUF` entry open; the value 0 here is the model's:
DESIGN CHOICE (log entry 4), unsafe. -/
def Regs.reset : Regs where
  mode   := .run
  cause  := 0
  predY  := 0
  predCb := 0
  predCr := 0
  qbuf   := Vector.replicate 64 0
  loaded := 0

/-- The state after reset of an instance built with the configuration `c` (R300, R302). -/
def State.resetWith (c : Config) : State where
  cfg      := c
  regs     := Regs.reset
  out      := []
  cmd      := []
  inflight := none
  draws    := 0

/-- The state after reset of the instance with the default configuration (R8 to R10, R12). -/
def State.reset : State := State.resetWith defaultConfig

end Sys2Proof.Machine
end

