-- ==== Sys2Proof/Machine/Operands.lean ====
section
/-! DEFINITION. Operand decoding (R82), the codes of classes, components and tables (R9, R11, R223), and the reading and
writing of the numbered state (R20, R51). -/

namespace Sys2Proof.Machine

/-- `sext_16`: the signed value of a 16-bit field (R13, R82). -/
def sext16 (v : Half) : Int := v.toInt

/-- The class of a 2-bit class code: 0 luma, 1 chroma, 2 and 3 invalid (R75). -/
def classOf (cls : BitVec 2) : Option ChannelClass :=
  match cls.toNat with
  | 0 => some .luma
  | 1 => some .chroma
  | _ => none

/-- The component of a 2-bit component code: 0 Y, 1 Cb, 2 Cr, 3 invalid (R77, R80). -/
def componentOf (comp : BitVec 2) : Option Component :=
  match comp.toNat with
  | 0 => some .y
  | 1 => some .cb
  | 2 => some .cr
  | _ => none

/-- The table of a 2-bit table code (R9, R79). -/
def tableOf (t : BitVec 2) : TableId :=
  match t.toNat with
  | 0 => .dcLuma
  | 1 => .dcChroma
  | 2 => .acLuma
  | _ => .acChroma

/-- The class whose tables a component uses: luma for Y, chroma for Cb and Cr (R223). -/
def classOfComponent : Component → ChannelClass
  | .y => .luma
  | .cb => .chroma
  | .cr => .chroma

/-- `HUFF[id]`, the DC table of a class (R223). -/
def dcTable : ChannelClass → TableId
  | .luma => .dcLuma
  | .chroma => .dcChroma

/-- `HUFF[2 + id]`, the AC table of a class (R223). -/
def acTable : ChannelClass → TableId
  | .luma => .acLuma
  | .chroma => .acChroma

/-- `PRED[c]` (R24). -/
def Regs.pred (r : Regs) : Component → Half
  | .y => r.predY
  | .cb => r.predCb
  | .cr => r.predCr

/-- `PRED[c] <- v` (R24). -/
def Regs.setPred (r : Regs) (c : Component) (v : Half) : Regs :=
  match c with
  | .y => { r with predY := v }
  | .cb => { r with predCb := v }
  | .cr => { r with predCr := v }

/-- `QBUF[k]` (R25). -/
def Regs.coef (r : Regs) (k : Index) : Half := r.qbuf[at64 k]

/-- `LOADED[k]` (R26). -/
def Regs.isLoaded (r : Regs) (k : Index) : Bool := r.loaded.getLsbD k.toNat

/-- `QBUF[k] <- v; LOADED[k] <- 1` (R120). -/
def Regs.load (r : Regs) (k : Index) (v : Half) : Regs :=
  { r with
    qbuf   := r.qbuf.set (at64 k) v
    loaded := r.loaded ||| BitVec.ofNat 64 (2 ^ k.toNat) }

/-- The DC coefficient `QBUF[0]` (R25). -/
def Regs.dc (r : Regs) : Half := r.coef 0

/-- The AC coefficients `QBUF[1..63]`, in zigzag order (R25, R222). -/
def Regs.acs (r : Regs) : List Int := r.qbuf.toList.tail.map sext16

end Sys2Proof.Machine
end

