-- ==== Sys2Proof/Machine/Flags.lean ====
section
/-! DEFINITION. The status bits and the register map of RDREG (R30 to R34). The JEC has no condition codes (R30). -/

namespace Sys2Proof.Machine

/-- The 4-bit code of a fault cause (R270). -/
def causeCode : FaultCause → BitVec 4
  | .illegalCommand => 1
  | .invalidChannelClass => 2
  | .invalidComponent => 3
  | .unknownSymbol => 4
  | .incompleteBlock => 5

/-- `FULL`: all 64 load bits are 1 (R32). -/
def Regs.full (r : Regs) : Bool := r.loaded == BitVec.allOnes 64

/-- The encoding of `MODE`, STATUS bit 4 (R22, R32). -/
def modeBit : Mode → BitVec 1
  | .run => 0
  | .fault => 1

/-- STATUS, register 0 (R32). -/
def Regs.status (r : Regs) : BitVec 24 := 0#18 ++ BitVec.ofBool r.full ++ modeBit r.mode ++ r.cause

/-- The 24-bit contents of a register; 7..255 are reserved (R31 to R34). -/
def Regs.register (r : Regs) (reg : Byte) : Option (BitVec 24) :=
  match reg.toNat with
  | 0 => some r.status
  | 1 => some (0#8 ++ r.predY)
  | 2 => some (0#8 ++ r.predCb)
  | 3 => some (0#8 ++ r.predCr)
  | 4 => some (r.loaded.extractLsb' 0 24)
  | 5 => some (r.loaded.extractLsb' 24 24)
  | 6 => some (0#8 ++ r.loaded.extractLsb' 48 16)
  | _ => none

end Sys2Proof.Machine
end

