-- ==== Sys2Proof/Machine/Results.lean ====
section
/-! DEFINITION. The result words (R84 to R93), each written field by field, high field first. -/

namespace Sys2Proof.Machine

/-- CSCR (R85). -/
def cscr (y cb cr : Byte) : Word := 0x2#4 ++ 0#4 ++ y ++ cb ++ cr

/-- ZRDR (R87). -/
def zrdr (l : Bool) (k : Index) (v : Half) : Word := 0x4#4 ++ 0#5 ++ BitVec.ofBool l ++ k ++ v

/-- DCPR: the difference as a 17-bit two's-complement integer (R88). -/
def dcpr (diff : Int) : Word := 0x5#4 ++ 0#11 ++ BitVec.ofInt 17 diff

/-- VLIR (R89). -/
def vlir (s : BitString) : Word := 0x6#4 ++ 0#7 ++ BitVec.ofNat 5 s.len ++ BitVec.ofNat 16 s.bits

/-- HLKR (R90). -/
def hlkr (s : BitString) : Word := 0x7#4 ++ 0#7 ++ BitVec.ofNat 5 s.len ++ BitVec.ofNat 16 s.bits

/-- REGR (R91). -/
def regr (reg : Byte) (d : BitVec 24) : Word := 0x9#4 ++ reg.extractLsb' 0 4 ++ d

/-- FLT (R92). -/
def flt (cause : BitVec 4) : Word := 0xF#4 ++ 0#24 ++ cause

/-- The types of tokens (R93). -/
inductive TokenType where
  | dcCode
  | dcValue
  | acCode
  | acValue
  | zrl
  | eob
deriving DecidableEq, Repr

/-- One token of a block: its type and its bit string (R86, R93). -/
structure Token where
  ttype : TokenType
  str   : BitString
deriving DecidableEq, Repr

/-- The `ttype` field of a token type; 6 and 7 are never produced (R93). -/
def tokenCode : TokenType → BitVec 3
  | .dcCode => 0
  | .dcValue => 1
  | .acCode => 2
  | .acValue => 3
  | .zrl => 4
  | .eob => 5

/-- BITS, the word of a token (R86). -/
def tokenWord (t : Token) : Word :=
  0x8#4 ++ tokenCode t.ttype ++ 0#4 ++ BitVec.ofNat 5 t.str.len ++ BitVec.ofNat 16 t.str.bits

end Sys2Proof.Machine
end

