-- ==== Sys2Proof/Machine/Ops.lean ====
section
/-! DEFINITION. The operations every command shares: running in `RUN` mode only, completing with the words it emits, the
draws, entering the fault state and leaving it. -/

namespace Sys2Proof.Machine

/-- The words appended to OUT and the registers written at the command's completion (R50, R55). While OUT holds `OUT_DEPTH`
words the core waits before the next word; the command then stays in progress, with its registers still to be written
(R58). Called between commands, or to resume the command in progress. -/
def State.complete (s : State) (e : Effect) : State :=
  match s.cfg.outDepth with
  | none => { s with out := s.out ++ e.words, regs := e.regs, inflight := none }
  | some depth =>
    if e.words.length ≤ depth - s.out.length then
      { s with out := s.out ++ e.words, regs := e.regs, inflight := none }
    else
      { s with
        out      := s.out ++ e.words.take (depth - s.out.length)
        inflight := some ⟨e.words.drop (depth - s.out.length), e.regs⟩ }

/-- The outcome of a command with this effect. -/
def State.done (s : State) (e : Effect) : Host.Outcome State Fault Refusal := .next (s.complete e)

/-- A command that executes in `RUN` mode and is discarded in `FAULT` mode: no state write, no result word (R275). -/
def State.inRun (s : State) (body : Host.Outcome State Fault Refusal) : Host.Outcome State Fault Refusal :=
  match s.regs.mode with
  | .run => body
  | .fault => .next s

/-- `draw(16)`: a value the rules do not fix (R18), and the state in which one more draw has been made. -/
def State.draw16 (s : State) : Half × State := (Config.freeValue s.draws, { s with draws := s.draws + 1 })

/-- A count the rules do not fix, in `0..i` (R227). -/
def countUpTo (i c : Nat) : Nat :=
  match i with
  | 0 => 0
  | j + 1 => Config.freeCount c % (j + 2)

/-- A draw in `0..i` (R18, R227), and the state in which one more draw has been made. -/
def State.drawUpTo (s : State) (i : Nat) : Nat × State := (countUpTo i s.draws, { s with draws := s.draws + 1 })

/-- FAULT ENTRY, the one operation by which a fault is taken (R273): `MODE` becomes `FAULT`, `CAUSE` the code of the cause,
and one FLT word follows the words already emitted; nothing else is written or saved. -/
def faultEffect (x : FaultCause) (emitted : List Word) (r : Regs) : Effect :=
  { words := emitted ++ [flt (causeCode x)]
    regs  := { r with mode := .fault, cause := causeCode x } }

/-- The outcome of a command that raises a fault before it emits any word (R273). -/
def State.raise (s : State) (x : FaultCause) : Host.Outcome State Fault Refusal := s.done (faultEffect x [] s.regs)

/-- LEAVING THE FAULT STATE, and starting an encode: what INIT writes (R251, R277). `QBUF` keeps its values. -/
def Regs.initialise (r : Regs) : Regs :=
  { r with mode := .run, cause := 0, predY := 0, predCb := 0, predCr := 0, loaded := 0 }

/-- The outcome of an illegal word: `ILLEGAL_COMMAND` in `RUN` mode, discarded in `FAULT` mode (R83, R271, R275). -/
def State.illegal (s : State) : Host.Outcome State Fault Refusal := s.inRun (s.raise .illegalCommand)

end Sys2Proof.Machine
end

