-- ==== Sys2Proof/Machine/Predictor.lean ====
section
/-! DEFINITION. The DC predictor: DCP, and the prediction step it shares with ENC (42_dc_predictor.md). -/

namespace Sys2Proof.Machine

/-- The difference of a DC value from the predictor of its component, an exact integer (R150). -/
def dcDiff (r : Regs) (c : Component) (dc : Half) : Int := sext16 dc - sext16 (r.pred c)

/-- `DCP comp, dc` (R151): one DCPR word with the difference, and the predictor set to the operand; component 3 raises
INVALID_COMPONENT. -/
def execDcp (comp : BitVec 2) (dc : Half) (s : State) : Host.Outcome State Fault Refusal :=
  s.inRun <|
    match componentOf comp with
    | none => s.raise .invalidComponent
    | some c => s.done ⟨[dcpr (dcDiff s.regs c dc)], s.regs.setPred c dc⟩

end Sys2Proof.Machine
end

