-- ==== Sys2Proof/Machine/Block.lean ====
section
/-! DEFINITION. Block encode: ENC (45_block_encode.md). -/

namespace Sys2Proof.Machine

/-- The tokens of the DC part, or `none` where the DC symbol has no code (R221, R224 (a)). -/
def dcTokens (c : Config) (cls : ChannelClass) (diff : Int) : Option (List Token) :=
  if category diff ≤ 11 then
    (hrom c (dcTable cls) (BitVec.ofNat 8 (category diff))).map fun e =>
      ⟨.dcCode, e⟩ :: if 0 < category diff then [⟨.dcValue, vliBits diff⟩] else []
  else none

/-- The tokens of one AC item, or `none` where its symbol has no code (R222, R224 (b), (c)); the symbol byte is never formed
from a category above 10. -/
def acTokens (c : Config) (cls : ChannelClass) : AcItem → Option (List Token)
  | .zrl => (hrom c (acTable cls) 0xF0).map fun e => [⟨.zrl, e⟩]
  | .rc run cat v =>
    if cat ≤ 10 then (hrom c (acTable cls) (acSymbol run cat)).map fun e => [⟨.acCode, e⟩, ⟨.acValue, vliBits v⟩]
    else none
  | .eob => (hrom c (acTable cls) 0x00).map fun e => [⟨.eob, e⟩]

/-- The tokens up to the first part that has none, and whether there is no such part (R224, R227). -/
def collect : List (Option (List Token)) → List Token × Bool
  | [] => ([], true)
  | none :: _ => ([], false)
  | some ts :: rest => (ts ++ (collect rest).1, (collect rest).2)

/-- The tokens of the block in `QBUF` coded as a component, in order, up to the first symbol without a code, and whether
every symbol has one (R220, R225). The component alone selects the tables (R223). -/
def blockTokens (c : Config) (comp : Component) (r : Regs) : List Token × Bool :=
  collect (dcTokens c (classOfComponent comp) (dcDiff r comp r.dc) ::
    (acSymbols r.acs).map (acTokens c (classOfComponent comp)))

/-- The registers after a completed ENC: `PRED[comp] <- QBUF[0]`, every load bit 0, `QBUF` kept (R226). -/
def Regs.blockDone (r : Regs) (comp : Component) : Regs := { r.setPred comp r.dc with loaded := 0 }

/-- The effect of an ENC that has a full block, with the `p` tokens that a symbol without a code leaves on OUT
(R220, R226, R227). -/
def blockEffect (c : Config) (comp : Component) (r : Regs) (p : Nat) : Effect :=
  if (blockTokens c comp r).2 then ⟨(blockTokens c comp r).1.map tokenWord, r.blockDone comp⟩
  else faultEffect .unknownSymbol (((blockTokens c comp r).1.take p).map tokenWord) r

/-- `ENC comp` (R220): INVALID_COMPONENT and INCOMPLETE_BLOCK before any token (R276); then the tokens of the block and its
completion, or UNKNOWN_SYMBOL with a drawn number `0..i` of the tokens before the symbol without a code (R227, U3, log
entry 6). -/
def execEnc (comp : BitVec 2) (s : State) : Host.Outcome State Fault Refusal :=
  s.inRun <|
    match componentOf comp with
    | none => s.raise .invalidComponent
    | some c =>
      if s.regs.full then
        if (blockTokens s.cfg c s.regs).2 then s.done (blockEffect s.cfg c s.regs 0)
        else
          (s.drawUpTo (blockTokens s.cfg c s.regs).1.length).2.done
            (blockEffect s.cfg c s.regs (s.drawUpTo (blockTokens s.cfg c s.regs).1.length).1)
      else s.raise .incompleteBlock

end Sys2Proof.Machine
end

