-- ==== Sys2Proof/Machine/Color.lean ====
section
/-! DEFINITION. The color-space converter: CSC (40_color_convert.md). -/

namespace Sys2Proof.Machine

/-- `Y * 10^6` (R100, R101). -/
def y6 (r g b : Int) : Int := 299000 * r + 587000 * g + 114000 * b

/-- `Cb * 10^6` (R100, R101). -/
def cb6 (r g b : Int) : Int := -168736 * r - 331264 * g + 500000 * b + 128000000

/-- `Cr * 10^6` (R100, R101). -/
def cr6 (r g b : Int) : Int := 500000 * r - 418688 * g - 81312 * b + 128000000

/-- The clamp to [0, 255], scaled by 10^6 (R100). -/
def clamp6 (x6 : Int) : Int := min (max x6 0) 255000000

/-- Clamped, rounded to the nearest integer, truncated to 8 bits, in that order (R100, R101). -/
def conv (t : TieRule) (x6 : Int) : Byte := BitVec.ofInt 8 (roundT t (clamp6 x6) 1000000)

/-- The CSCR word of one pixel: the operands are unsigned 8-bit samples (R74, R100); no level shift (R105). -/
def cscWord (t : TieRule) (r g b : Byte) : Word :=
  cscr (conv t (y6 r.toNat g.toNat b.toNat)) (conv t (cb6 r.toNat g.toNat b.toNat)) (conv t (cr6 r.toNat g.toNat b.toNat))

/-- `CSC R, G, B` (R100, R104): one CSCR word, no state written. -/
def execCsc (r g b : Byte) (s : State) : Host.Outcome State Fault Refusal :=
  s.inRun (s.done ⟨[cscWord s.cfg.rndTies r g b], s.regs⟩)

end Sys2Proof.Machine
end

