-- ==== Sys2Proof/Machine/Control.lean ====
section
/-! DEFINITION. The control commands: NOP, INIT, RDREG (46_control.md). -/

namespace Sys2Proof.Machine

/-- `NOP` (R250): nothing, in either mode. -/
def execNop (s : State) : Host.Outcome State Fault Refusal := .next s

/-- `INIT` (R251): executed in both modes; it emits nothing, leaves the fault state, clears the predictors and the load
bits, and keeps `QBUF` and OUT. -/
def execInit (s : State) : Host.Outcome State Fault Refusal := s.done ⟨[], s.regs.initialise⟩

/-- `RDREG reg` (R252): executed in both modes; one REGR word, no state written. A number above 6 stands for an illegal
word (R72 (c)). -/
def execRdreg (reg : Byte) (s : State) : Host.Outcome State Fault Refusal :=
  match s.regs.register reg with
  | none => s.illegal
  | some d => s.done ⟨[regr reg d], s.regs⟩

end Sys2Proof.Machine
end

