-- ==== Sys2Proof/Machine/Huffman.lean ====
section
/-! DEFINITION. The VLI encoder and the Huffman coder alone: VLI, HLK (44_vli_huffman.md). -/

namespace Sys2Proof.Machine

/-- `VLI v` (R192): one VLIR word with the category and the value bits. -/
def execVli (v : Half) (s : State) : Host.Outcome State Fault Refusal :=
  s.inRun (s.done ⟨[vlir (vliBits (sext16 v))], s.regs⟩)

/-- `HLK t, sym` (R195): one HLKR word with the symbol's code; a symbol without one raises UNKNOWN_SYMBOL. -/
def execHlk (t : BitVec 2) (sym : Byte) (s : State) : Host.Outcome State Fault Refusal :=
  s.inRun <|
    match hrom s.cfg (tableOf t) sym with
    | none => s.raise .unknownSymbol
    | some e => s.done ⟨[hlkr e], s.regs⟩

end Sys2Proof.Machine
end

