-- ==== Sys2Proof/Machine/Quantizer.lean ====
section
/-! DEFINITION. The quantizer and the zigzag scanner: QLD, ZRD (41_quantize_zigzag.md). -/

namespace Sys2Proof.Machine

/-- The quantized value of a coefficient: `round_T(sext_16(raw), 16 * Q)`, with `Q` the entry of the class's matrix at the
coefficient's own natural index (R120, R121, R124). -/
def quantized (c : Config) (cls : ChannelClass) (n : Index) (raw : Half) : Int :=
  roundT c.rndTies (sext16 raw) (16 * (qrom c cls n).toNat)

/-- `QLD cls, n, raw` (R120, R130): the entry at the zigzag position of `n` is written and its load bit set, whatever they
were; class 2 or 3 raises INVALID_CHANNEL_CLASS. -/
def execQld (cls : BitVec 2) (n : Index) (raw : Half) (s : State) : Host.Outcome State Fault Refusal :=
  s.inRun <|
    match classOf cls with
    | none => s.raise .invalidChannelClass
    | some k => s.done ⟨[], s.regs.load (zzInv n) (BitVec.ofInt 16 (quantized s.cfg k n raw))⟩

/-- `ZRD k` (R128): one ZRDR word. The value of an entry whose load bit is 0 is a draw, free at each read (U2, log entry
2); no state is written. -/
def execZrd (k : Index) (s : State) : Host.Outcome State Fault Refusal :=
  s.inRun <|
    if s.regs.isLoaded k then s.done ⟨[zrdr true k (s.regs.coef k)], s.regs⟩
    else s.draw16.2.done ⟨[zrdr false k s.draw16.1], s.regs⟩

end Sys2Proof.Machine
end

