-- ==== Sys2Proof/Machine/Dispatch.lean ====
section
/-! DEFINITION. Dispatch: one arm per constructor of Instr, each a direct call of that command's meaning (R71). -/

namespace Sys2Proof.Machine

-- One command, begun when the previous one has completed (R50).
def exec (i : Instr) (s : State) : Host.Outcome State Fault Refusal :=
  match i with
  | .nop => Sys2Proof.Machine.execNop s
  | .init => Sys2Proof.Machine.execInit s
  | .csc r g b => Sys2Proof.Machine.execCsc r g b s
  | .qld cls n raw => Sys2Proof.Machine.execQld cls n raw s
  | .zrd k => Sys2Proof.Machine.execZrd k s
  | .dcp comp dc => Sys2Proof.Machine.execDcp comp dc s
  | .vli v => Sys2Proof.Machine.execVli v s
  | .hlk t sym => Sys2Proof.Machine.execHlk t sym s
  | .enc comp => Sys2Proof.Machine.execEnc comp s
  | .rdreg reg => Sys2Proof.Machine.execRdreg reg s

end Sys2Proof.Machine
end

