-- ==== Sys2Proof/Machine/Launch.lean ====
section
/-! DEFINITION. Building an instance with a configuration, before any command runs (R8, R9, R12, R196, R278). -/

namespace Sys2Proof.Machine

/-- An instance of an admissible configuration starts at its reset state; any other configuration describes no JEC and is
refused (R278, U4, log entry 7). -/
def launch (c : Config) : Host.Outcome State Fault Refusal :=
  if admissible c then .next (State.resetWith c) else .refused .inadmissibleConfiguration

end Sys2Proof.Machine
end

