-- ==== Sys2Proof/Machine/Streams.lean ====
section
/-! DEFINITION. The streams: taking a word from CMD, and what the host does to the core (20_memory.md R50, R53, R54, R58;
70_reset_and_hazards.md R300, R315). -/

namespace Sys2Proof.Machine

/-- The core takes the oldest word of CMD, if there is one (R50). -/
def State.takeCommand (s : State) : Option (Word × State) :=
  match s.cmd with
  | [] => none
  | w :: rest => some (w, { s with cmd := rest })

/-- A word placed where the core takes its next command, with no command in progress. -/
def State.placeCommand (s : State) (w : Word) : State := { s with cmd := w :: s.cmd, inflight := none }

/-- The host sends one word on CMD (R315). -/
def State.hostSend (s : State) (w : Word) : State := { s with cmd := s.cmd ++ [w] }

/-- The host takes the oldest word of OUT, which is removed (R56, R315). -/
def State.hostTake (s : State) : Option (Word × State) :=
  match s.out with
  | [] => none
  | w :: rest => some (w, { s with out := rest })

/-- The host resets the core, between commands or during one (R300): the command in progress is abandoned, the streams are
emptied, and every `QBUF` entry is a draw (U1, log entry 5). The configuration is unchanged. -/
def State.hostReset (s : State) : State :=
  { State.resetWith s.cfg with
    regs  := { Regs.reset with qbuf := Vector.ofFn fun k : Fin 64 => Config.freeValue (s.draws + k.val) }
    draws := s.draws + 64 }

/-- The four bytes of a word over a byte transport: the byte of bits 31:24 first (R53). -/
def bytesOfWord (w : Word) : List Byte :=
  [w.extractLsb' 24 8, w.extractLsb' 16 8, w.extractLsb' 8 8, w.extractLsb' 0 8]

/-- The whole words that a byte transport has delivered, and the bytes of a partial word, which deliver no command (R53,
R54). -/
def wordsOfBytes : List Byte → List Word × List Byte
  | b3 :: b2 :: b1 :: b0 :: rest => ((b3 ++ b2 ++ b1 ++ b0) :: (wordsOfBytes rest).1, (wordsOfBytes rest).2)
  | partialWord => ([], partialWord)

/-- The host sends bytes over a byte transport: the whole words reach CMD (R54). -/
def State.hostSendBytes (s : State) (bytes : List Byte) : State := { s with cmd := s.cmd ++ (wordsOfBytes bytes).1 }

end Sys2Proof.Machine
end

