-- ==== Sys2Proof/Machine/Step.lean ====
section
/-! DEFINITION. One step of the core. -/

namespace Sys2Proof.Machine

/-- One step. A command in progress goes on (R58). Otherwise the core takes one word from CMD and runs it to completion, or
until OUT has no room (R50, R58); a word that decodes to no command is an illegal command (R271, R275). With CMD empty the
core waits: nothing changes (R58). -/
def step (s : State) : Host.Outcome State Fault Refusal :=
  match s.inflight with
  | some e => s.done e
  | none =>
    match s.takeCommand with
    | none => .next s
    | some (w, t) =>
      match decode w with
      | .ok i => exec i t
      | .error _ => t.illegal

/-- `s` with the command word of these bits as the next that the core takes. -/
def State.withFetchWord (s : State) (nbits w : Nat) : State := s.placeCommand (BitVec.ofNat 32 (w % 2 ^ nbits))

end Sys2Proof.Machine
end

