-- ==== Sys2Proof/Safety.lean ====
section
/-! DEFINITION. What claims about the JEC speak of: room on OUT, the legal states, the form of result words, the fault
entry, runs, their end and their observation (R84 to R93, R270, R273, R317, R318), which configurations describe an instance
(R196), and the two ways of comparing states that the claims of
R12, R25 and R301 use. -/

namespace Sys2Proof.Machine

/-- OUT has room for `n` more words, so that a command that emits at most `n` words does not wait (R58). -/
def State.hasRoom (s : State) (n : Nat) : Bool :=
  match s.cfg.outDepth with
  | none => true
  | some depth => decide (s.out.length + n ≤ depth)

/-- The state after the fault entry of R273: nothing but MODE, CAUSE and one FLT word on OUT is new. -/
def State.faulted (s : State) (x : FaultCause) : State :=
  { s with
    out  := s.out ++ [0xF#4 ++ 0#24 ++ causeCode x]
    regs := { s.regs with mode := .fault, cause := causeCode x } }

/-- What an illegal word does: in RUN mode it raises ILLEGAL_COMMAND, in FAULT mode it is discarded (R271, R275). -/
def State.takesAsIllegal (s : State) (w : Word) : Prop :=
  (s.regs.mode = .run → s.hasRoom 1 = true →
    step { s with cmd := w :: s.cmd } = .next (s.faulted .illegalCommand)) ∧
  (s.regs.mode = .fault → step { s with cmd := w :: s.cmd } = .next s)

/-- `CAUSE` is 0 in RUN mode and 1..5 in FAULT mode (R23, R32). -/
def Regs.legal (r : Regs) : Bool :=
  match r.mode with
  | .run => r.cause == 0
  | .fault => decide (1 ≤ r.cause.toNat) && decide (r.cause.toNat ≤ 5)

/-- The legal states: the registers are legal (R23, R32), OUT holds no more than it can (R58), and a command in progress
waits for room on a bounded OUT with words left to emit and legal registers to write; in FAULT mode it writes none (R55,
R58, R275). -/
def State.legal (s : State) : Bool :=
  s.regs.legal && s.hasRoom 0 &&
  match s.inflight with
  | none => true
  | some e =>
    s.cfg.outDepth.isSome && !e.words.isEmpty && e.regs.legal && (s.regs.mode == .run || e.regs == s.regs)

/-- The kind of a result word, bits 31:28 (R84). -/
def kind (w : Word) : BitVec 4 := w.extractLsb' 28 4

/-- An FLT word (R92). -/
def isFlt (w : Word) : Bool := kind w == 0xF

/-- The `len` field of a word with a right-aligned bit string, bits 20:16 (R86, R89, R90). -/
def lenField (w : Word) : Nat := (w.extractLsb' 16 5).toNat

/-- The bit string of a word fits its length: bits 15:len are 0 (R86, R89, R90). -/
def bitsFit (w : Word) : Bool := decide ((w.extractLsb' 0 16).toNat < 2 ^ lenField w)

/-- A word has one of the layouts of R85 to R92, with its reserved bits 0 and its fields in range (R84, R93). -/
def resultOk (w : Word) : Bool :=
  match (kind w).toNat with
  | 2 => w.extractLsb' 24 4 == 0
  | 4 => w.extractLsb' 23 5 == 0
  | 5 => w.extractLsb' 17 11 == 0
  | 6 => w.extractLsb' 21 7 == 0 && decide (lenField w ≤ 16) && bitsFit w
  | 7 => w.extractLsb' 21 7 == 0 && decide (1 ≤ lenField w) && decide (lenField w ≤ 16) && bitsFit w
  | 8 =>
    decide ((w.extractLsb' 25 3).toNat ≤ 5) && w.extractLsb' 21 4 == 0 && decide (1 ≤ lenField w) &&
      decide (lenField w ≤ 16) && bitsFit w
  | 9 => decide ((w.extractLsb' 24 4).toNat ≤ 6)
  | 15 => w.extractLsb' 4 24 == 0 && decide (1 ≤ (w.extractLsb' 0 4).toNat) && decide ((w.extractLsb' 0 4).toNat ≤ 5)
  | _ => false

/-- Every word that the core has emitted and the host not taken, or that the command in progress will emit, has one of the
layouts of R85 to R92. -/
def State.resultsOk (s : State) : Bool :=
  s.out.all resultOk &&
  match s.inflight with
  | none => true
  | some e => e.words.all resultOk

/-- A clean-entry state (R318). -/
def State.cleanEntry (s : State) : Bool :=
  s.regs.mode == .run && s.regs.cause == 0 && s.regs.predY == 0 && s.regs.predCb == 0 && s.regs.predCr == 0 &&
    s.regs.loaded == 0 && s.inflight.isNone

/-- A run has ended: every word sent has been taken and no command is in progress (R317). -/
def State.ended (s : State) : Bool := s.cmd.isEmpty && s.inflight.isNone

/-- What can happen during a run: a step of the core, or one of the host's records of R315 but reset, which ends the run. -/
inductive Event where
  /-- The core makes a step. -/
  | step
  /-- The host sends a word on CMD. -/
  | send (w : Word)
  /-- The host takes the oldest word of OUT, if there is one. -/
  | take
deriving DecidableEq, Repr

/-- The outcome of one event. -/
def State.after (s : State) : Event → Host.Outcome State Fault Refusal
  | .step => Sys2Proof.Machine.step s
  | .send w => .next (s.hostSend w)
  | .take =>
    match s.hostTake with
    | none => .next s
    | some (_, t) => .next t

/-- The words that one event from `s` to `t` emits: those that a step has appended to OUT (R27). -/
def Event.emitted (e : Event) (s t : State) : List Word :=
  match e with
  | .step => t.out.drop s.out.length
  | .send _ => []
  | .take => []

/-- A run: the state after its events, and all words emitted during it, in order, taken by the host or not (R317). Words
that OUT held before are not among them (R318). -/
def runEvents : List Event → State → Host.Outcome (State × List Word) Fault Refusal
  | [], s => .next (s, [])
  | e :: es, s =>
    match s.after e with
    | .next t =>
      match runEvents es t with
      | .next (u, ws) => .next (u, e.emitted s t ++ ws)
      | .fault x => .fault x
      | .refused x => .refused x
    | .fault x => .fault x
    | .refused x => .refused x

/-- The command words sent during a run, oldest first (R317). Words that CMD held at its start come before them (log entry
18). -/
def wordsSent (es : List Event) : List Word :=
  es.filterMap fun e => match e with
    | .step => none
    | .send w => some w
    | .take => none

/-- The observation of a run (R317): the final MODE, CAUSE, PRED and LOADED, QBUF where loaded, and all words emitted during
the run. -/
structure Observation where
  mode   : Mode
  cause  : BitVec 4
  predY  : Half
  predCb : Half
  predCr : Half
  loaded : BitVec 64
  /-- `QBUF[0..63]`, `none` where the load bit is 0. -/
  coefs  : List (Option Half)
  words  : List Word
deriving DecidableEq, Repr

/-- The observation of a run that ends in this state and has emitted these words (R317). -/
def State.observed (t : State) (ws : List Word) : Observation where
  mode   := t.regs.mode
  cause  := t.regs.cause
  predY  := t.regs.predY
  predCb := t.regs.predCb
  predCr := t.regs.predCr
  loaded := t.regs.loaded
  coefs  := (List.finRange 64).map fun k =>
    if t.regs.isLoaded (BitVec.ofFin k) then some (t.regs.coef (BitVec.ofFin k)) else none
  words  := ws

/-- A launch state (R318): a clean entry with an admissible configuration. OUT may hold words of earlier runs. -/
def State.isLaunch (s : State) : Bool := s.cleanEntry && admissible s.cfg

/-- No fault shows in the observation of a run: MODE is RUN, and no word emitted during the run is a FLT word (R317). -/
def Observation.faultFree (o : Observation) : Bool := o.mode == .run && !o.words.any isFlt

/-- A successful run of these events from `s`: `s` is a launch state, the run has ended, and no fault shows in its observation
(R278, R317, R318). -/
def successfulRun (s : State) (es : List Event) : Bool :=
  match runEvents es s with
  | .next (t, ws) => s.isLaunch && t.ended && (t.observed ws).faultFree
  | .fault _ => false
  | .refused _ => false

/-- The commands of a list, one after the other. -/
def execAll : List Instr → State → Host.Outcome State Fault Refusal
  | [], s => .next s
  | i :: is, s =>
    match exec i s with
    | .next t => execAll is t
    | .fault x => .fault x
    | .refused x => .refused x

/-- The state in which the command in progress, if there is one, has completed on an OUT without bound (R12, R316). -/
def State.unbounded (s : State) : State :=
  match s.inflight with
  | none => { s with cfg := { s.cfg with outDepth := none } }
  | some e =>
    { s with
      cfg := { s.cfg with outDepth := none }, out := s.out ++ e.words, regs := e.regs, inflight := none }

/-- Registers that agree but for the `QBUF` entries whose load bit is 0 (R25). -/
def Regs.agrees (r q : Regs) : Prop :=
  r.mode = q.mode ∧ r.cause = q.cause ∧ r.predY = q.predY ∧ r.predCb = q.predCb ∧ r.predCr = q.predCr ∧
    r.loaded = q.loaded ∧ ∀ k : Index, r.isLoaded k = true → r.coef k = q.coef k

/-- Commands in progress that agree so. -/
def inflightAgrees : Option Effect → Option Effect → Prop
  | none, none => True
  | some e, some f => e.words = f.words ∧ e.regs.agrees f.regs
  | _, _ => False

/-- States that agree but for the `QBUF` entries whose load bit is 0 (R25, R301). -/
def State.agrees (s t : State) : Prop :=
  s.cfg = t.cfg ∧ s.regs.agrees t.regs ∧ s.out = t.out ∧ s.cmd = t.cmd ∧ inflightAgrees s.inflight t.inflight ∧
    s.draws = t.draws

/-- The configurations that describe an instance, in the words of R8, R12 and R196. A table is listed in rising symbol order,
which is the model's way to hold a partial map (R194, log entry 7). -/
structure Describes (c : Config) : Prop where
  /-- Every entry of both matrices is 1..255 (R8). -/
  matrices : ∀ n : Index, 1 ≤ (qrom c .luma n).toNat ∧ 1 ≤ (qrom c .chroma n).toNat
  /-- `OUT_DEPTH` is positive, or OUT is unbounded (R12). -/
  depth : c.outDepth ≠ some 0
  /-- The model's form of a table: no symbol is listed twice. -/
  listed : ∀ t : TableId, (huff c t).Pairwise fun e f => e.sym.toNat < f.sym.toNat
  /-- (a) Lengths are 1..16 and codes fit them. -/
  codes : ∀ t s e, hrom c t s = some e → 1 ≤ e.len ∧ e.len ≤ 16 ∧ e.bits < 2 ^ e.len
  /-- (b) No code is a prefix of the code of another symbol, or equal to it. -/
  prefixes : ∀ t s u e f, hrom c t s = some e → hrom c t u = some f → s ≠ u → e.len ≤ f.len →
    f.bits / 2 ^ (f.len - e.len) ≠ e.bits
  /-- (c) The symbols of a DC table are 0..11. -/
  dcSymbols : ∀ t s e, (t = .dcLuma ∨ t = .dcChroma) → hrom c t s = some e → s.toNat ≤ 11
  /-- (d) The symbols of an AC table are EOB, ZRL and `run << 4 | category` with category 1..10. -/
  acSymbols : ∀ t s e, (t = .acLuma ∨ t = .acChroma) → hrom c t s = some e →
    s = 0x00 ∨ s = 0xF0 ∨ (1 ≤ s.toNat % 16 ∧ s.toNat % 16 ≤ 10)

end Sys2Proof.Machine
end

