-- ==== Sys2Proof/Certificates/Slice0/Obligations.lean ====
section
/-! DEFINITION. The statements for the provers, from the numbered rules of spec/. -/

open Sys2Proof Sys2Proof.Machine

/-! ## Encoding -/

/-- Rule R83, with R72: the decoder, case by case, on every word. -/
def Obligations.DecoderFollowsItsTable : Prop :=
  ∀ w : Word,
    ((w.extractLsb' 28 4 = 0x0 → decode w = if w.extractLsb' 0 28 = 0 then .ok .nop else .error (.reservedBitSet 0)) ∧
     (w.extractLsb' 28 4 = 0x1 → decode w = if w.extractLsb' 0 28 = 0 then .ok .init else .error (.reservedBitSet 1)) ∧
     (w.extractLsb' 28 4 = 0x2 → decode w = if w.extractLsb' 24 4 = 0
        then .ok (.csc (w.extractLsb' 16 8) (w.extractLsb' 8 8) (w.extractLsb' 0 8)) else .error (.reservedBitSet 2)) ∧
     (w.extractLsb' 28 4 = 0x3 → decode w = if w.extractLsb' 16 4 = 0
        then .ok (.qld (w.extractLsb' 26 2) (w.extractLsb' 20 6) (w.extractLsb' 0 16)) else .error (.reservedBitSet 3)) ∧
     (w.extractLsb' 28 4 = 0x4 → decode w = if w.extractLsb' 6 22 = 0
        then .ok (.zrd (w.extractLsb' 0 6)) else .error (.reservedBitSet 4)) ∧
     (w.extractLsb' 28 4 = 0x5 → decode w = if w.extractLsb' 16 10 = 0
        then .ok (.dcp (w.extractLsb' 26 2) (w.extractLsb' 0 16)) else .error (.reservedBitSet 5)) ∧
     (w.extractLsb' 28 4 = 0x6 → decode w = if w.extractLsb' 16 12 = 0
        then .ok (.vli (w.extractLsb' 0 16)) else .error (.reservedBitSet 6)) ∧
     (w.extractLsb' 28 4 = 0x7 → decode w = if w.extractLsb' 8 18 = 0
        then .ok (.hlk (w.extractLsb' 26 2) (w.extractLsb' 0 8)) else .error (.reservedBitSet 7)) ∧
     (w.extractLsb' 28 4 = 0x8 → decode w = if w.extractLsb' 0 26 = 0
        then .ok (.enc (w.extractLsb' 26 2)) else .error (.reservedBitSet 8)) ∧
     (w.extractLsb' 28 4 = 0x9 → w.extractLsb' 8 20 = 0 → w.extractLsb' 0 8 ≤ 6 →
        decode w = .ok (.rdreg (w.extractLsb' 0 8))) ∧
     (w.extractLsb' 28 4 = 0x9 → w.extractLsb' 8 20 = 0 → ¬ w.extractLsb' 0 8 ≤ 6 →
        decode w = .error (.reservedRegister (w.extractLsb' 0 8))) ∧
     (w.extractLsb' 28 4 = 0x9 → w.extractLsb' 8 20 ≠ 0 → decode w = .error (.reservedBitSet 9)) ∧
     (10 ≤ (w.extractLsb' 28 4).toNat → decode w = .error (.reservedOpcode (w.extractLsb' 28 4)))) ∧
    ((∃ e, decode w = .error e) →
      ∀ (s : State) (rest : List Word), s.regs.mode = .run → s.inflight = none → s.hasRoom 1 = true → s.cmd = w :: rest →
        step s = .next ({ s with cmd := rest }.faulted .illegalCommand)) ∧
    ((∃ e, decode w = .error e) →
      ∀ (s : State) (rest : List Word), s.regs.mode = .fault → s.inflight = none → s.cmd = w :: rest →
        step s = .next { s with cmd := rest })

/-- Every well-formed command survives its encoding, whatever its operands: no bit of a format is dropped. -/
def Obligations.DecodeOfEncodeIsTheCommand : Prop :=
  ∀ i : Instr, i.wellFormed = true → decode (encode i) = .ok i

/-- A legal word has one command, whose encoding is that word, and the command is well formed. -/
def Obligations.EncodeOfDecodeIsTheWord : Prop :=
  ∀ (w : Word) (i : Instr), decode w = .ok i → encode i = w ∧ i.wellFormed = true

/-- Words written out from the formats decode to the commands they stand for (a sanity statement). -/
def Obligations.WrittenWordsDecode : Prop :=
  decode 0b00000000000000000000000000000000#32 = .ok .nop ∧
  decode 0b00010000000000000000000000000000#32 = .ok .init ∧
  decode 0b00100000011001001001011011001000#32 = .ok (.csc 100 150 200) ∧
  decode 0b00110111111100001111100111010000#32 = .ok (.qld 1 63 (-1584)) ∧
  decode 0b01000000000000000000000000111111#32 = .ok (.zrd 63) ∧
  decode 0b01011000000000001000000000000000#32 = .ok (.dcp 2 (-32768)) ∧
  decode 0b01100000000000001111111111111101#32 = .ok (.vli (-3)) ∧
  decode 0b01111000000000000000000011110000#32 = .ok (.hlk 2 0xF0) ∧
  decode 0b10000100000000000000000000000000#32 = .ok (.enc 1) ∧
  decode 0b10010000000000000000000000000110#32 = .ok (.rdreg 6)

/-! ## The step -/

/-- With no command in progress the core takes the oldest word of CMD, and a word that decodes runs as that command: the
step is `exec` of it on the state without the word. -/
def Obligations.StepRunsTheDecodedCommand : Prop :=
  ∀ (s : State) (w : Word) (rest : List Word) (i : Instr),
    s.inflight = none → s.cmd = w :: rest → decode w = .ok i → step s = exec i { s with cmd := rest }

/-- Rule R58: the core waits on an empty CMD, and before an emit while OUT is full; a wait changes nothing, and a command in
progress goes on as soon as there is room, in order, with no word lost or doubled. -/
def Obligations.WaitsChangeNothing : Prop :=
  ∀ s : State,
    (s.inflight = none → s.cmd = [] → step s = .next s) ∧
    (∀ e depth, s.inflight = some e → s.cfg.outDepth = some depth → s.out.length = depth → e.words ≠ [] →
      step s = .next s) ∧
    (∀ e, s.inflight = some e → e.words ≠ [] → s.hasRoom e.words.length = true →
      step s = .next { s with out := s.out ++ e.words, regs := e.regs, inflight := none }) ∧
    (∀ e depth t, s.inflight = some e → s.cfg.outDepth = some depth → s.out.length < depth →
      depth < s.out.length + e.words.length → step s = .next t →
      ∃ ws rest, e.words = ws ++ rest ∧ ws ≠ [] ∧ t.out = s.out ++ ws ∧ t.out.length = depth ∧
        t.inflight = some ⟨rest, e.regs⟩ ∧ t.regs = s.regs ∧ t.cmd = s.cmd)

/-- No step of the core stops: every state has a next state. This is the model's choice of log entries 10 (the faults of R270
are next states, as R273 describes them) and 8 (a wait is a step, also on a full OUT that the host does not drain, which R278
calls stuck). -/
def Obligations.EveryStepHasANextState : Prop :=
  ∀ s : State, ∃ t, step s = .next t

/-- On an OUT without bound, each step takes exactly one command and completes it, emitting at most 128 words (R50, R228,
R278). -/
def Obligations.OneStepCompletesOneCommand : Prop :=
  ∀ (s : State) (w : Word) (rest : List Word),
    s.cfg.outDepth = none → s.inflight = none → s.cmd = w :: rest →
    ∃ t ws, step s = .next t ∧ t.cmd = rest ∧ t.inflight = none ∧ t.out = s.out ++ ws ∧ ws.length ≤ 128

/-- A run of `n` words on an OUT without bound has ended after `n` steps (R317): every word taken, nothing in progress, and
the words observed are those appended to OUT. And the observation of a run that has ended depends on the command words alone:
not on when the host sends them, on when it takes words from OUT, or on the words of earlier runs that OUT held (R59, R318). -/
def Obligations.RunEndsAfterItsWords : Prop :=
  (∀ s : State, s.cfg.outDepth = none → s.inflight = none →
    ∃ t ws, runEvents (List.replicate s.cmd.length .step) s = .next (t, ws) ∧ t.ended = true ∧ t.out = s.out ++ ws ∧
      Host.Core.run Sys2Proof.core s.cmd.length s = .next t) ∧
  (∀ (s t u : State) (before ws vs : List Word) (es fs : List Event),
    runEvents es s = .next (t, ws) → runEvents fs { s with out := before } = .next (u, vs) →
    wordsSent es = wordsSent fs → t.ended = true → u.ended = true → t.observed ws = u.observed vs)

/-- `OUT_DEPTH` affects only when the core stalls (R12): on a bounded OUT each step either is the step of the same core with
an OUT without bound, or, with a command in progress, leaves the state of that core as it is. -/
def Obligations.BoundedOutRefinesUnboundedOut : Prop :=
  ∀ s t : State, step s = .next t →
    (s.inflight = none → step s.unbounded = .next t.unbounded) ∧
    (s.inflight ≠ none → t.unbounded = s.unbounded) ∧
    (∀ w u, s.hostTake = some (w, u) → s.unbounded.hostTake = some (w, u.unbounded))

/-- The configuration never changes, and OUT only grows, at its end, by a step (R27, R28). -/
def Obligations.StepKeepsConfigurationAndEmittedWords : Prop :=
  ∀ s t : State, step s = .next t → t.cfg = s.cfg ∧ s.out <+: t.out

/-! ## Invariants -/

/-- Every step keeps the legal states: MODE and CAUSE agree, OUT holds at most OUT_DEPTH words, and a command in progress
has words left and legal registers to write. -/
def Obligations.StepKeepsLegalStates : Prop :=
  ∀ s t : State, s.legal = true → step s = .next t → t.legal = true

/-- The reset state is legal, for every admissible OUT_DEPTH. -/
def Obligations.ResetStateIsLegal : Prop :=
  State.reset.legal = true ∧ State.reset.cleanEntry = true ∧ ∀ c : Config, (State.resetWith c).legal = true

/-- What the host does to the core keeps the legal states, and the words on OUT well formed. -/
def Obligations.HostActionsKeepLegalStates : Prop :=
  ∀ s : State, s.legal = true → s.resultsOk = true →
    (∀ w, (s.hostSend w).legal = true ∧ (s.hostSend w).resultsOk = true) ∧
    (∀ w t, s.hostTake = some (w, t) → t.legal = true ∧ t.resultsOk = true ∧ resultOk w = true) ∧
    (s.hostReset.legal = true ∧ s.hostReset.resultsOk = true)

/-- Every word that the core puts on OUT has one of the layouts of R85 to R92: its reserved bits are 0, its lengths and
types in range, and each bit string fits its length. -/
def Obligations.StepKeepsResultWordsWellFormed : Prop :=
  ∀ s t : State, admissible s.cfg = true → s.resultsOk = true → step s = .next t → t.resultsOk = true

/-- Only INIT leaves the fault state (R22, R277): a step from FAULT mode to RUN mode took the word 0x10000000. -/
def Obligations.OnlyInitLeavesTheFaultState : Prop :=
  ∀ s t : State, s.legal = true → s.regs.mode = .fault → step s = .next t → t.regs.mode = .run →
    s.inflight = none ∧ ∃ rest, s.cmd = 0x10000000#32 :: rest ∧
      t = { s with cmd := rest, regs := s.regs.initialise }

/-- Every fault puts exactly one FLT word on OUT, the last word of its command, with the cause that CAUSE then holds; no
other event produces a word of kind 0xF (R277). This holds of a step, whatever word it takes, legal or not, and of `exec`. -/
def Obligations.EveryFaultEmitsOneFltWord : Prop :=
  ∀ s t : State, s.cfg.outDepth = none → s.inflight = none → (step s = .next t ∨ ∃ i : Instr, exec i s = .next t) →
    ∃ ws, t.out = s.out ++ ws ∧
      ((s.regs.mode = .run ∧ t.regs.mode = .fault ∧
          ∃ pre, ws = pre ++ [0xF#4 ++ 0#24 ++ t.regs.cause] ∧ pre.all (fun w => !isFlt w) = true ∧
            1 ≤ t.regs.cause.toNat ∧ t.regs.cause.toNat ≤ 5) ∨
       (¬ (s.regs.mode = .run ∧ t.regs.mode = .fault) ∧ ws.all (fun w => !isFlt w) = true))

/-- A command that faults writes no register but MODE and CAUSE (R55, R273), with a cause that this command can raise
(R274); NOP, INIT, CSC, ZRD, VLI and a legal RDREG raise none. -/
def Obligations.FaultsOfEachCommand : Prop :=
  ∀ (i : Instr) (s t : State), s.regs.mode = .run → exec i s = .next t → t.regs.mode = .fault →
    t.regs = { s.regs with mode := .fault, cause := t.regs.cause } ∧ t.cmd = s.cmd ∧
    match i with
    | .qld cls _ _ => t.regs.cause = 2 ∧ 2 ≤ cls.toNat
    | .dcp comp _ => t.regs.cause = 3 ∧ comp = 3
    | .hlk tb sym => t.regs.cause = 4 ∧ hrom s.cfg (tableOf tb) sym = none
    | .enc comp =>
      (t.regs.cause = 3 ∧ comp = 3) ∨ (t.regs.cause = 5 ∧ comp ≠ 3 ∧ s.regs.full = false) ∨
        (t.regs.cause = 4 ∧ s.regs.full = true ∧
          ∃ c : Component, componentOf comp = some c ∧ (blockTokens s.cfg c s.regs).2 = false)
    | .nop => False
    | .init => False
    | .csc _ _ _ => False
    | .zrd _ => False
    | .vli _ => False
    | .rdreg reg => t.regs.cause = 1 ∧ 6 < reg.toNat

/-- The fault state (R275): every command but INIT and RDREG is discarded, and so is every illegal word. -/
def Obligations.FaultStateDiscardsCommands : Prop :=
  ∀ (s : State), s.regs.mode = .fault →
    (∀ i : Instr, i ≠ .init → (∀ reg, i ≠ .rdreg reg) → exec i s = .next s) ∧
    (exec .init s = .next (s.complete ⟨[], s.regs.initialise⟩)) ∧
    (∀ reg d, s.regs.register reg = some d → exec (.rdreg reg) s = .next (s.complete ⟨[regr reg d], s.regs⟩)) ∧
    (∀ w rest e, s.inflight = none → s.cmd = w :: rest → decode w = .error e → step s = .next { s with cmd := rest })

/-- Which commands write which registers: `QBUF` is written by QLD alone, one entry; `PRED` by DCP and ENC, of their own
component alone, and by INIT; load bits are set by QLD alone (R24, R25, R26, R154). -/
def Obligations.RegistersChangeOnlyByTheirCommands : Prop :=
  ∀ (i : Instr) (s t : State), exec i s = .next t →
    (t.regs.qbuf = s.regs.qbuf ∨
      ∃ cls n raw v, i = .qld cls n raw ∧ t.regs.qbuf = s.regs.qbuf.set (at64 (zzInv n)) v) ∧
    (∀ c : Component, t.regs.pred c = s.regs.pred c ∨ i = .init ∨
      ∃ comp, componentOf comp = some c ∧ (i = .enc comp ∨ ∃ dc, i = .dcp comp dc)) ∧
    (∀ k : Index, s.regs.isLoaded k = false → t.regs.isLoaded k = true → ∃ cls n raw, i = .qld cls n raw ∧ k = zzInv n) ∧
    (∀ k : Index, s.regs.isLoaded k = true → t.regs.isLoaded k = false → i = .init ∨ ∃ comp, i = .enc comp)

/-- Nothing can be learned of a `QBUF` entry whose load bit is 0 (R25, R301): two states that agree but for such entries
step to two states that agree so, with the same words on OUT. -/
def Obligations.UnloadedEntriesAreNeverObserved : Prop :=
  ∀ s t s' : State, s.agrees t → step s = .next s' → ∃ t', step t = .next t' ∧ s'.agrees t'

/-! ## Arithmetic -/

/-- Rule R16: the integer nearest to `n / d`, and how each rule resolves a tie. -/
def Obligations.RoundingIsToNearestWithTiesByRule : Prop :=
  ∀ (T : TieRule) (n d : Int), 0 < d →
    (2 * |n - d * roundT T n d| ≤ d) ∧
    (2 * (n % d) ≠ d → ∀ q : Int, 2 * |n - d * q| ≤ d → q = roundT T n d) ∧
    (2 * (n % d) = d →
      (T = .halfEven → roundT T n d % 2 = 0) ∧
      (T = .halfAway → |n| < |d * roundT T n d|) ∧
      (T = .halfUp → n < d * roundT T n d)) ∧
    (0 ≤ n → roundT .halfAway n d = roundT .halfUp n d)

/-- The category is the number of binary digits of the magnitude (R190). -/
def Obligations.CategoryBoundsTheMagnitude : Prop :=
  ∀ v : Int, (category v = 0 ↔ v = 0) ∧
    (∀ c : Nat, 1 ≤ c → (category v = c ↔ (2 : Int) ^ (c - 1) ≤ |v| ∧ |v| ≤ 2 ^ c - 1)) ∧
    (-32768 ≤ v → v ≤ 32767 → category v ≤ 16)

/-- The value bits of a signed integer and their inverse (R191, R193). -/
def Obligations.ValueBitsRoundTrip : Prop :=
  ∀ v : Int,
    (vliBits v).len = category v ∧ (vliBits v).bits < 2 ^ (vliBits v).len ∧
    (0 ≤ v → ((vliBits v).bits : Int) = v) ∧
    (v < 0 → ((vliBits v).bits : Int) = 2 ^ category v - 1 + v) ∧
    (0 < v → (vliBits v).bits.testBit (category v - 1) = true) ∧
    (v < 0 → (vliBits v).bits.testBit (category v - 1) = false) ∧
    unvli (vliBits v) = v

/-! ## Color-space converter -/

/-- `CSC` (R100): the formula of the document scaled by 10^6, clamped, rounded, truncated to 8 bits. -/
def Obligations.CscEmitsTheConvertedPixel : Prop :=
  ∀ (r g b : Byte) (s : State), s.inflight = none →
    (s.regs.mode = .run → s.hasRoom 1 = true →
      exec (.csc r g b) s = .next { s with out := s.out ++ [0x2#4 ++ 0#4 ++
        BitVec.ofInt 8 (roundT s.cfg.rndTies
          (min (max (299000 * (r.toNat : Int) + 587000 * g.toNat + 114000 * b.toNat) 0) 255000000) 1000000) ++
        BitVec.ofInt 8 (roundT s.cfg.rndTies
          (min (max (-168736 * (r.toNat : Int) - 331264 * g.toNat + 500000 * b.toNat + 128000000) 0) 255000000) 1000000) ++
        BitVec.ofInt 8 (roundT s.cfg.rndTies
          (min (max (500000 * (r.toNat : Int) - 418688 * g.toNat - 81312 * b.toNat + 128000000) 0) 255000000)
          1000000)] }) ∧
    (s.regs.mode = .fault → exec (.csc r g b) s = .next s) ∧
    (∀ w : Word, w.extractLsb' 28 4 = 2 → w.extractLsb' 24 4 ≠ 0 → s.takesAsIllegal w)

/-- The ranges of CSC (R102): the clamp never changes Y, the lower clamp never acts on Cb and Cr, and the truncation to 8 bits
never changes a rounded value, which is the nearest integer to the clamped one. -/
def Obligations.CscValuesStayInRange : Prop :=
  ∀ (T : TieRule) (r g b : Byte),
    (clamp6 (y6 r.toNat g.toNat b.toNat) = y6 r.toNat g.toNat b.toNat ∧
      0 ≤ y6 r.toNat g.toNat b.toNat ∧ y6 r.toNat g.toNat b.toNat ≤ 255000000) ∧
    (500000 ≤ cb6 r.toNat g.toNat b.toNat ∧ cb6 r.toNat g.toNat b.toNat ≤ 255500000) ∧
    (500000 ≤ cr6 r.toNat g.toNat b.toNat ∧ cr6 r.toNat g.toNat b.toNat ≤ 255500000) ∧
    (∀ x6 : Int, ((conv T x6).toNat : Int) = roundT T (clamp6 x6) 1000000 ∧
      ((conv T x6).toNat : Int) = min (max (roundT T x6 1000000) 0) 255 ∧
      2 * |clamp6 x6 - 1000000 * ((conv T x6).toNat : Int)| ≤ 1000000)

/-! ## Quantizer and zigzag scanner -/

/-- `QLD` (R120). -/
def Obligations.QldQuantizesIntoItsZigzagEntry : Prop :=
  ∀ (cls : BitVec 2) (n : Index) (raw : Half) (s : State), s.inflight = none →
    (∀ k, (cls = 0 ∧ k = ChannelClass.luma) ∨ (cls = 1 ∧ k = ChannelClass.chroma) → s.regs.mode = .run →
      exec (.qld cls n raw) s = .next { s with regs := { s.regs with
        qbuf   := s.regs.qbuf.set (at64 (zzInv n))
          (BitVec.ofInt 16 (roundT s.cfg.rndTies raw.toInt (16 * ((qrom s.cfg k n).toNat : Int))))
        loaded := s.regs.loaded ||| BitVec.ofNat 64 (2 ^ (zzInv n).toNat) } }) ∧
    (cls = 2 ∨ cls = 3 → s.regs.mode = .run → s.hasRoom 1 = true →
      exec (.qld cls n raw) s = .next (s.faulted .invalidChannelClass)) ∧
    (s.regs.mode = .fault → exec (.qld cls n raw) s = .next s) ∧
    (∀ w : Word, w.extractLsb' 28 4 = 3 → w.extractLsb' 16 4 ≠ 0 → s.takesAsIllegal w)

/-- The range of a quantized value (R122): with entries 1..255 it is in -2048..2048 under every tie rule, so the 16-bit
entry holds it exactly. -/
def Obligations.QuantizedValuesFit : Prop :=
  ∀ (c : Config) (k : ChannelClass) (n : Index) (raw : Half), 1 ≤ (qrom c k n).toNat →
    -2048 ≤ quantized c k n raw ∧ quantized c k n raw ≤ 2048 ∧
    (BitVec.ofInt 16 (quantized c k n raw)).toInt = quantized c k n raw

/-- A QLD writes one entry, sets one load bit and clears none; a later QLD of the entry wins; ZRD reads it back (R128,
R130). -/
def Obligations.QldThenZrdReadsTheEntry : Prop :=
  ∀ (cls : BitVec 2) (k : ChannelClass) (n : Index) (raw : Half) (s t : State),
    classOf cls = some k → s.regs.mode = .run → s.inflight = none → exec (.qld cls n raw) s = .next t →
    t.regs.coef (zzInv n) = BitVec.ofInt 16 (quantized s.cfg k n raw) ∧ t.regs.isLoaded (zzInv n) = true ∧
    (∀ j : Index, j ≠ zzInv n → t.regs.coef j = s.regs.coef j ∧ t.regs.isLoaded j = s.regs.isLoaded j) ∧
    (∀ raw' : Half, ∀ t', exec (.qld cls n raw') t = .next t' → exec (.qld cls n raw') s = .next t') ∧
    (t.hasRoom 1 = true → exec (.zrd (zzInv n)) t =
      .next { t with out := t.out ++ [0x4#4 ++ 0#5 ++ 1#1 ++ zzInv n ++ BitVec.ofInt 16 (quantized s.cfg k n raw)] })

/-- `ZRD` (R128): the load bit, the index and the entry; the value of an entry that is not loaded may be any. -/
def Obligations.ZrdEmitsTheEntry : Prop :=
  ∀ (k : Index) (s : State), s.inflight = none →
    (s.regs.mode = .run → s.hasRoom 1 = true → s.regs.isLoaded k = true →
      exec (.zrd k) s = .next { s with out := s.out ++ [0x4#4 ++ 0#5 ++ 1#1 ++ k ++ s.regs.coef k] }) ∧
    (s.regs.mode = .run → s.hasRoom 1 = true → s.regs.isLoaded k = false →
      ∃ (v : Half) (d : Nat), exec (.zrd k) s =
        .next { s with out := s.out ++ [0x4#4 ++ 0#5 ++ 0#1 ++ k ++ v], draws := d }) ∧
    (s.regs.mode = .fault → exec (.zrd k) s = .next s) ∧
    (∀ w : Word, w.extractLsb' 28 4 = 4 → w.extractLsb' 6 22 ≠ 0 → s.takesAsIllegal w)

/-- The zigzag ROM is the path of R125, and the two tables of R126 are inverse permutations of 0..63 (R127). -/
def Obligations.ZigzagRomIsTheInvertiblePath : Prop :=
  zigzagPath 64 0 0 true = zzTable.toList.map BitVec.toNat ∧
  (∀ n : Index, zz (zzInv n) = n) ∧ (∀ k : Index, zzInv (zz k) = k)

/-- The QLD commands of a block, in any order and with any repetition, leave `Zigzag(Quantize(d))` in `QBUF` and every load
bit set (R129). -/
def Obligations.BlockOfQldsIsZigzagOfQuantize : Prop :=
  ∀ (cls : BitVec 2) (k : ChannelClass) (d : Index → Half) (ns : List Index) (s : State),
    classOf cls = some k → s.regs.mode = .run → s.inflight = none → (∀ n : Index, n ∈ ns) →
    ∃ t, execAll (ns.map fun n => .qld cls n (d n)) s = .next t ∧
      (∀ j : Index, t.regs.coef j =
        BitVec.ofInt 16 (roundT s.cfg.rndTies (d (zz j)).toInt (16 * ((qrom s.cfg k (zz j)).toNat : Int)))) ∧
      t.regs.full = true ∧ t = { s with regs := { s.regs with qbuf := t.regs.qbuf, loaded := t.regs.loaded } }

/-! ## DC predictor -/

/-- `DCP` (R151, with the prediction step R150). -/
def Obligations.DcpEmitsTheDifference : Prop :=
  ∀ (comp : BitVec 2) (dc : Half) (s : State), s.inflight = none →
    (s.regs.mode = .run → s.hasRoom 1 = true →
      (comp = 0 → exec (.dcp comp dc) s = .next { s with
        out := s.out ++ [0x5#4 ++ 0#11 ++ BitVec.ofInt 17 (dc.toInt - s.regs.predY.toInt)]
        regs := { s.regs with predY := dc } }) ∧
      (comp = 1 → exec (.dcp comp dc) s = .next { s with
        out := s.out ++ [0x5#4 ++ 0#11 ++ BitVec.ofInt 17 (dc.toInt - s.regs.predCb.toInt)]
        regs := { s.regs with predCb := dc } }) ∧
      (comp = 2 → exec (.dcp comp dc) s = .next { s with
        out := s.out ++ [0x5#4 ++ 0#11 ++ BitVec.ofInt 17 (dc.toInt - s.regs.predCr.toInt)]
        regs := { s.regs with predCr := dc } }) ∧
      (comp = 3 → exec (.dcp comp dc) s = .next (s.faulted .invalidComponent))) ∧
    (s.regs.mode = .fault → exec (.dcp comp dc) s = .next s) ∧
    (∀ w : Word, w.extractLsb' 28 4 = 5 → w.extractLsb' 16 10 ≠ 0 → s.takesAsIllegal w)

/-- The range of a difference (R152): it is in -65535..65535 and the 17-bit field holds it exactly. -/
def Obligations.DcDifferenceFits17Bits : Prop :=
  ∀ (r : Regs) (c : Component) (dc : Half),
    -65535 ≤ dcDiff r c dc ∧ dcDiff r c dc ≤ 65535 ∧
    (BitVec.ofInt 17 (dcDiff r c dc)).toInt = dcDiff r c dc

/-- Summing the differences that DCP reports for one component, from a predictor of 0, gives back the DC values (R153). -/
def Obligations.DcDifferencesSumToTheDcValues : Prop :=
  ∀ (comp : BitVec 2) (c : Component) (dcs : List Half) (s : State),
    componentOf comp = some c → s.regs.mode = .run → s.inflight = none → s.cfg.outDepth = none → s.regs.pred c = 0 →
    ∃ (t : State) (ds : List Int), execAll (dcs.map fun dc => .dcp comp dc) s = .next t ∧
      t.out = s.out ++ ds.map (fun x => 0x5#4 ++ 0#11 ++ BitVec.ofInt 17 x) ∧ ds.length = dcs.length ∧
      ∀ j, (h : j < dcs.length) → (ds.take (j + 1)).sum = (dcs[j]).toInt

/-! ## VLI encoder and Huffman coder -/

/-- `VLI` (R192): the category and the value bits of R190 and R191, right-aligned. -/
def Obligations.VliEmitsCategoryAndValueBits : Prop :=
  ∀ (v : Half) (s : State), s.inflight = none →
    (s.regs.mode = .run → s.hasRoom 1 = true →
      ∃ (c : BitVec 5) (b : BitVec 16),
        exec (.vli v) s = .next { s with out := s.out ++ [0x6#4 ++ 0#7 ++ c ++ b] } ∧
        c.toNat = category v.toInt ∧
        (0 ≤ v.toInt → (b.toNat : Int) = v.toInt) ∧
        (v.toInt < 0 → (b.toNat : Int) = 2 ^ category v.toInt - 1 + v.toInt)) ∧
    (s.regs.mode = .fault → exec (.vli v) s = .next s) ∧
    (∀ w : Word, w.extractLsb' 28 4 = 6 → w.extractLsb' 16 12 ≠ 0 → s.takesAsIllegal w)

/-- `HLK` (R195): the code of the symbol in the table, or UNKNOWN_SYMBOL. -/
def Obligations.HlkEmitsTheCode : Prop :=
  ∀ (t : BitVec 2) (sym : Byte) (s : State), s.inflight = none →
    (∀ table, (t = 0 ∧ table = TableId.dcLuma) ∨ (t = 1 ∧ table = TableId.dcChroma) ∨ (t = 2 ∧ table = TableId.acLuma) ∨
        (t = 3 ∧ table = TableId.acChroma) → s.regs.mode = .run → s.hasRoom 1 = true →
      (∀ e, hrom s.cfg table sym = some e → exec (.hlk t sym) s =
        .next { s with out := s.out ++ [0x7#4 ++ 0#7 ++ BitVec.ofNat 5 e.len ++ BitVec.ofNat 16 e.bits] }) ∧
      (hrom s.cfg table sym = none → exec (.hlk t sym) s = .next (s.faulted .unknownSymbol))) ∧
    (s.regs.mode = .fault → exec (.hlk t sym) s = .next s) ∧
    (∀ w : Word, w.extractLsb' 28 4 = 7 → w.extractLsb' 8 18 ≠ 0 → s.takesAsIllegal w)

/-- What the well-formedness of a configuration gives every lookup (R196): the code's length and range, the symbols a table may
hold, and no code a prefix of another's. -/
def Obligations.AdmissibleTablesArePrefixFree : Prop :=
  ∀ (c : Config) (t : TableId), admissible c = true →
    (∀ s e, hrom c t s = some e → 1 ≤ e.len ∧ e.len ≤ 16 ∧ e.bits < 2 ^ e.len) ∧
    (∀ s u e f, hrom c t s = some e → hrom c t u = some f → s ≠ u → e.len ≤ f.len → f.bits / 2 ^ (f.len - e.len) ≠ e.bits) ∧
    (∀ s e, (t = .dcLuma ∨ t = .dcChroma) → hrom c t s = some e → s.toNat ≤ 11) ∧
    (∀ s e, (t = .acLuma ∨ t = .acChroma) → hrom c t s = some e →
      s = 0x00 ∨ s = 0xF0 ∨ (1 ≤ s.toNat % 16 ∧ s.toNat % 16 ≤ 10))

/-- The default tables are what the canonical construction makes of the BITS and HUFFVAL lists of R201; they are canonical in
the sense of R203, and none of their codes is all 1-bits. -/
def Obligations.DefaultTablesAreCanonical : Prop :=
  ((canon bitsDcLuma valsDcLuma 1 0 = byLength defaultDcLuma ∧ canonical defaultDcLuma = true) ∧
   (canon bitsDcChroma valsDcChroma 1 0 = byLength defaultDcChroma ∧ canonical defaultDcChroma = true) ∧
   (canon bitsAcLuma valsAcLuma 1 0 = byLength defaultAcLuma ∧ canonical defaultAcLuma = true) ∧
   (canon bitsAcChroma valsAcChroma 1 0 = byLength defaultAcChroma ∧ canonical defaultAcChroma = true)) ∧
  ∀ (t : TableId) (e : RomEntry), e ∈ huff defaultConfig t → e.code.toNat ≠ 2 ^ e.len.toNat - 1

/-- `launch` starts an instance of exactly the configurations that R8, R12 and R196 (a) to (d) admit, at its reset state, and
refuses every other; the default configuration is one of them. That the refusal happens at launch, and that a table is listed
in rising symbol order, are the model's choices (log entry 7). -/
def Obligations.LaunchRefusesInadmissibleConfigurations : Prop :=
  launch defaultConfig = .next State.reset ∧
  (∀ c : Config, Describes c → launch c = .next (State.resetWith c)) ∧
  (∀ c : Config, ¬ Describes c → launch c = .refused .inadmissibleConfiguration)

/-! ## AC run encoder -/

/-- `acExpand` undoes `acSymbols` on every vector of 63 coefficients (R175). -/
def Obligations.AcExpandUndoesAcSymbols : Prop :=
  ∀ a : List Int, a.length = 63 → acExpand (acSymbols a) = a

/-- The bounds on the symbol list of 63 coefficients (R172, R174) and its edge cases (R173): all zeros give one EOB; a nonzero
last coefficient makes an RC the last item and leaves no EOB; a ZRL is followed by a ZRL or an RC, never by EOB or the end. -/
def Obligations.AcSymbolListBounds : Prop :=
  ∀ a : List Int, a.length = 63 →
    ((acSymbols a).filterMap fun x => match x with | .rc _ _ v => some v | .zrl => none | .eob => none) =
      a.filter (fun v => v ≠ 0) ∧
    (acSymbols a).count .zrl ≤ 3 ∧
    (acSymbols a).count .eob = (if a.getLast? = some 0 then 1 else 0) ∧
    acSymbols a ≠ [] ∧
    (∀ run cat v, .rc run cat v ∈ acSymbols a → run ≤ 15 ∧ 1 ≤ cat ∧ cat = category v ∧ v ≠ 0) ∧
    ((acSymbols a).getLast? ≠ some .zrl) ∧
    (∀ pre x post, acSymbols a = pre ++ .zrl :: x :: post → x = .zrl ∨ ∃ run cat v, x = .rc run cat v) ∧
    (a.getLast? ≠ some 0 → .eob ∉ acSymbols a ∧ ∃ run cat v, (acSymbols a).getLast? = some (.rc run cat v)) ∧
    ((∀ v ∈ a, v = 0) → acSymbols a = [.eob])

/-! ## Block encode -/

/-- `ENC` of a full block whose symbols all have codes (R220, R223, R226): its tokens on OUT, the predictor of its component
set to `QBUF[0]`, every load bit 0, and nothing else changed. -/
def Obligations.EncCompletesABlock : Prop :=
  ∀ (comp : BitVec 2) (c : Component) (s : State) (toks : List Token),
    (comp = 0 ∧ c = .y) ∨ (comp = 1 ∧ c = .cb) ∨ (comp = 2 ∧ c = .cr) →
    s.regs.mode = .run → s.inflight = none → (∀ k : Index, s.regs.isLoaded k = true) →
    blockTokens s.cfg c s.regs = (toks, true) → s.hasRoom toks.length = true →
    exec (.enc comp) s = .next { s with
      out  := s.out ++ toks.map tokenWord
      regs := { s.regs.setPred c (s.regs.qbuf[0]) with loaded := 0 } }

/-- The order of the checks of ENC before any token (R227, R276): the component first, then the load bits. -/
def Obligations.EncChecksComponentThenBlock : Prop :=
  ∀ (comp : BitVec 2) (s : State), s.inflight = none →
    (comp = 3 → s.regs.mode = .run → s.hasRoom 1 = true → exec (.enc comp) s = .next (s.faulted .invalidComponent)) ∧
    (comp ≠ 3 → s.regs.mode = .run → s.hasRoom 1 = true → (∃ k : Index, s.regs.isLoaded k = false) →
      exec (.enc comp) s = .next (s.faulted .incompleteBlock)) ∧
    (s.regs.mode = .fault → exec (.enc comp) s = .next s) ∧
    (∀ w : Word, w.extractLsb' 28 4 = 8 → w.extractLsb' 0 26 ≠ 0 → s.takesAsIllegal w)

/-- A faulting ENC (R227): some first `p` of the `i` tokens before the symbol without a code, then the FLT word; neither
`PRED` nor `LOADED` is written. -/
def Obligations.EncUnknownSymbolLeavesAPartOfItsTokens : Prop :=
  ∀ (comp : BitVec 2) (c : Component) (s : State) (toks : List Token),
    componentOf comp = some c → s.regs.mode = .run → s.inflight = none → (∀ k : Index, s.regs.isLoaded k = true) →
    blockTokens s.cfg c s.regs = (toks, false) → s.hasRoom (toks.length + 1) = true →
    ∃ (p d : Nat), p ≤ toks.length ∧ exec (.enc comp) s = .next { s with
      out   := s.out ++ (toks.take p).map tokenWord ++ [0xF#4 ++ 0#24 ++ 4#4]
      regs  := { s.regs with mode := .fault, cause := 4 }
      draws := d }

/-- When a symbol has no code (R224): the tokens of a block are complete exactly when the DC category is at most 11 and has
a code, every AC category is at most 10 and its symbol has a code, and ZRL and EOB have codes where they occur. -/
def Obligations.BlockFaultsExactlyWithoutACode : Prop :=
  ∀ (c : Config) (comp : Component) (r : Regs),
    (blockTokens c comp r).2 = true ↔
      (category (r.dc.toInt - (r.pred comp).toInt) ≤ 11 ∧
        hrom c (dcTable (classOfComponent comp)) (BitVec.ofNat 8 (category (r.dc.toInt - (r.pred comp).toInt))) ≠ none) ∧
      (∀ item ∈ acSymbols r.acs,
        match item with
        | .zrl => hrom c (acTable (classOfComponent comp)) 0xF0 ≠ none
        | .rc run cat _ => cat ≤ 10 ∧ hrom c (acTable (classOfComponent comp)) (BitVec.ofNat 8 (16 * run + cat)) ≠ none
        | .eob => hrom c (acTable (classOfComponent comp)) 0x00 ≠ none)

/-- The tokens of a block, in order, with their codes and values (R202, R225). If a symbol has no code (R224), they are the
tokens of what stands before the first such symbol, of which a faulting ENC emits a part (R227). -/
def Obligations.TokensFollowTheSymbolOrder : Prop :=
  (∀ (c : Config) (comp : Component) (r : Regs) (toks : List Token), blockTokens c comp r = (toks, true) →
    toks.map Token.ttype =
      .dcCode :: (if r.dc.toInt - (r.pred comp).toInt = 0 then [] else [.dcValue]) ++
        (acSymbols r.acs).flatMap (fun x => match x with
          | .zrl => [.zrl] | .rc _ _ _ => [.acCode, .acValue] | .eob => [.eob]) ∧
    (toks.filter fun t => t.ttype == .dcValue || t.ttype == .acValue).map Token.str =
      (if r.dc.toInt - (r.pred comp).toInt = 0 then [] else [vliBits (r.dc.toInt - (r.pred comp).toInt)]) ++
        (r.acs.filter fun v => v ≠ 0).map vliBits ∧
    (toks.filter fun t => !(t.ttype == .dcValue || t.ttype == .acValue)).map (fun t => some t.str) =
      hrom c (dcTable (classOfComponent comp)) (BitVec.ofNat 8 (category (r.dc.toInt - (r.pred comp).toInt))) ::
        (acSymbols r.acs).map (fun x => match x with
          | .zrl => hrom c (acTable (classOfComponent comp)) 0xF0
          | .rc run cat _ => hrom c (acTable (classOfComponent comp)) (BitVec.ofNat 8 (16 * run + cat))
          | .eob => hrom c (acTable (classOfComponent comp)) 0x00)) ∧
  (∀ (c : Config) (comp : Component) (r : Regs) (toks : List Token), blockTokens c comp r = (toks, false) →
    let diff : Int := r.dc.toInt - (r.pred comp).toInt
    let dcEntry : Option BitString :=
      if category diff ≤ 11 then hrom c (dcTable (classOfComponent comp)) (BitVec.ofNat 8 (category diff)) else none
    let acEntry : AcItem → Option BitString := fun x => match x with
      | .zrl => hrom c (acTable (classOfComponent comp)) 0xF0
      | .rc run cat _ =>
        if cat ≤ 10 then hrom c (acTable (classOfComponent comp)) (BitVec.ofNat 8 (16 * run + cat)) else none
      | .eob => hrom c (acTable (classOfComponent comp)) 0x00
    (dcEntry = none ∧ toks = []) ∨
    ∃ (e : BitString) (pre post : List AcItem) (x : AcItem) (es : List BitString),
      dcEntry = some e ∧ acSymbols r.acs = pre ++ x :: post ∧ pre.map acEntry = es.map some ∧ acEntry x = none ∧
      toks = (⟨.dcCode, e⟩ :: if diff = 0 then [] else [⟨.dcValue, vliBits diff⟩]) ++
        (pre.zip es).flatMap fun y => match y.1 with
          | .zrl => [⟨.zrl, y.2⟩]
          | .rc _ _ v => [⟨.acCode, y.2⟩, ⟨.acValue, vliBits v⟩]
          | .eob => [⟨.eob, y.2⟩])

/-- The bounds of a successful ENC (R228): how many tokens it emits, at least 2 and at most 128, and the length of each. -/
def Obligations.EncTokenBounds : Prop :=
  ∀ (c : Config) (comp : Component) (r : Regs) (toks : List Token), blockTokens c comp r = (toks, true) →
    toks.length = 1 + (if r.dc.toInt - (r.pred comp).toInt = 0 then 0 else 1) +
        2 * (r.acs.filter fun v => v ≠ 0).length + (acSymbols r.acs).count .zrl +
        (if r.coef 63 = 0 then 1 else 0) ∧
    2 ≤ toks.length ∧ toks.length ≤ 128 ∧
    (admissible c = true → (∀ t ∈ toks, 1 ≤ t.str.len ∧ t.str.len ≤ 16 ∧ t.str.bits < 2 ^ t.str.len) ∧
      (toks.map fun t => t.str.len).sum ≤ 1665)

/-- ENC and the commands DCP, VLI and HLK agree (R229): the difference is what DCP would report, and the bits of the value
tokens, in order, are what VLI reports of the difference and of the nonzero coefficients, and the bits of the other tokens are
what HLK reports of the symbols. -/
def Obligations.EncAgreesWithDcpVliHlk : Prop :=
  ∀ (comp : BitVec 2) (c : Component) (s : State) (toks : List Token),
    componentOf comp = some c → s.regs.mode = .run → s.inflight = none → s.cfg.outDepth = none →
    blockTokens s.cfg c s.regs = (toks, true) →
    (exec (.dcp comp s.regs.dc) s = .next { s with
      out  := s.out ++ [dcpr (dcDiff s.regs c s.regs.dc)]
      regs := s.regs.setPred c s.regs.dc }) ∧
    List.Forall₂
      (fun (t : Token) (v : Int) => exec (.vli (BitVec.ofInt 16 v)) s =
        .next { s with out := s.out ++ [0x6#4 ++ 0#7 ++ (tokenWord t).extractLsb' 0 21] })
      (toks.filter fun t => t.ttype == .dcValue || t.ttype == .acValue)
      ((if dcDiff s.regs c s.regs.dc = 0 then [] else [dcDiff s.regs c s.regs.dc]) ++ s.regs.acs.filter fun v => v ≠ 0) ∧
    List.Forall₂
      (fun (t : Token) (x : BitVec 2 × Byte) => exec (.hlk x.1 x.2) s =
        .next { s with out := s.out ++ [0x7#4 ++ 0#7 ++ (tokenWord t).extractLsb' 0 21] })
      (toks.filter fun t => !(t.ttype == .dcValue || t.ttype == .acValue))
      ((if c = .y then 0 else 1, BitVec.ofNat 8 (category (dcDiff s.regs c s.regs.dc))) ::
        (acSymbols s.regs.acs).map fun x => (if c = .y then 2 else 3, match x with
          | .zrl => 0xF0
          | .rc run cat _ => BitVec.ofNat 8 (16 * run + cat)
          | .eob => 0x00))

/-- Reach with the default configuration (R224): ENC of a full block whose DC difference is within category 11 and whose AC
coefficients are within category 10 always completes. -/
def Obligations.EncCompletesWithDefaultTables : Prop :=
  ∀ (comp : BitVec 2) (c : Component) (s : State),
    componentOf comp = some c → s.regs.mode = .run → s.inflight = none → s.cfg = defaultConfig → s.regs.full = true →
    |s.regs.dc.toInt - (s.regs.pred c).toInt| ≤ 2047 → (∀ k : Index, k ≠ 0 → |(s.regs.coef k).toInt| ≤ 1023) →
    ∃ toks : List Token, exec (.enc comp) s = .next { s with
      out  := s.out ++ toks.map tokenWord
      regs := { s.regs.setPred c s.regs.dc with loaded := 0 } } ∧ 2 ≤ toks.length ∧ toks.length ≤ 128

/-- The bits of a block determine it: with admissible tables, two blocks of one class whose tokens concatenate to the same
bit string have the same DC difference and the same AC coefficients. -/
def Obligations.BlockBitsDetermineTheBlock : Prop :=
  ∀ (c : Config) (comp : Component) (r q : Regs) (ts us : List Token), admissible c = true →
    blockTokens c comp r = (ts, true) → blockTokens c comp q = (us, true) →
    concatAll (ts.map Token.str) = concatAll (us.map Token.str) →
    r.dc.toInt - (r.pred comp).toInt = q.dc.toInt - (q.pred comp).toInt ∧ r.acs = q.acs

/-! ## Control commands and reset -/

/-- `NOP` (R250): nothing, in either mode. -/
def Obligations.NopDoesNothing : Prop :=
  ∀ s : State, exec .nop s = .next s ∧
    (s.inflight = none → ∀ w : Word, w.extractLsb' 28 4 = 0 → w.extractLsb' 0 28 ≠ 0 → s.takesAsIllegal w)

/-- `INIT` (R251): in either mode, whatever OUT holds; `QBUF` and OUT are not written, and a second INIT does no more. -/
def Obligations.InitStartsAnEncode : Prop :=
  ∀ s : State, s.inflight = none →
    (∃ t, exec .init s = .next t ∧
      t = { s with regs := { s.regs with
              mode := .run, cause := 0, predY := 0, predCb := 0, predCr := 0, loaded := 0 } } ∧
      t.regs.qbuf = s.regs.qbuf ∧ t.cleanEntry = true ∧ exec .init t = .next t) ∧
    (∀ w : Word, w.extractLsb' 28 4 = 1 → w.extractLsb' 0 28 ≠ 0 → s.takesAsIllegal w)

/-- `RDREG` (R252, with R32 to R34): in either mode, one REGR word with the register's contents. -/
def Obligations.RdregEmitsTheRegister : Prop :=
  ∀ s : State, s.inflight = none →
    (s.hasRoom 1 = true →
      (exec (.rdreg 0) s = .next { s with out := s.out ++ [0x9#4 ++ 0#4 ++ (0#18 ++
        BitVec.ofBool (decide (∀ k : Fin 64, s.regs.isLoaded (BitVec.ofFin k) = true)) ++
        BitVec.ofBool (s.regs.mode == .fault) ++ s.regs.cause)] }) ∧
      (exec (.rdreg 1) s = .next { s with out := s.out ++ [0x9#4 ++ 1#4 ++ (0#8 ++ s.regs.predY)] }) ∧
      (exec (.rdreg 2) s = .next { s with out := s.out ++ [0x9#4 ++ 2#4 ++ (0#8 ++ s.regs.predCb)] }) ∧
      (exec (.rdreg 3) s = .next { s with out := s.out ++ [0x9#4 ++ 3#4 ++ (0#8 ++ s.regs.predCr)] }) ∧
      (exec (.rdreg 4) s = .next { s with out := s.out ++ [0x9#4 ++ 4#4 ++ s.regs.loaded.extractLsb' 0 24] }) ∧
      (exec (.rdreg 5) s = .next { s with out := s.out ++ [0x9#4 ++ 5#4 ++ s.regs.loaded.extractLsb' 24 24] }) ∧
      (exec (.rdreg 6) s = .next { s with
        out := s.out ++ [0x9#4 ++ 6#4 ++ (0#8 ++ s.regs.loaded.extractLsb' 48 16)] })) ∧
    (∀ w : Word, w.extractLsb' 28 4 = 9 → (w.extractLsb' 8 20 ≠ 0 ∨ ¬ w.extractLsb' 0 8 ≤ 6) → s.takesAsIllegal w)

/-- Reset (R300), between commands or during one, whatever the state was. -/
def Obligations.ResetSetsTheResetState : Prop :=
  ∀ s : State,
    s.hostReset.regs.mode = .run ∧ s.hostReset.regs.cause = 0 ∧ s.hostReset.regs.predY = 0 ∧
    s.hostReset.regs.predCb = 0 ∧ s.hostReset.regs.predCr = 0 ∧ s.hostReset.regs.loaded = 0 ∧
    s.hostReset.out = [] ∧ s.hostReset.cmd = [] ∧ s.hostReset.inflight = none ∧ s.hostReset.cfg = s.cfg ∧
    (∀ reg : Byte, reg.toNat ≤ 6 → s.hostReset.regs.register reg = some 0) ∧
    State.reset.cleanEntry = true ∧ State.reset.out = [] ∧ State.reset.cmd = []

/-- The state after reset is the state after INIT, but for OUT, CMD and `QBUF` (R301). -/
def Obligations.ResetAndInitDifferOnlyInStreamsAndBuffer : Prop :=
  ∀ s t : State, s.inflight = none → exec .init s = .next t →
    s.hostReset = { t with
      out := [], cmd := [], draws := s.hostReset.draws, regs := { t.regs with qbuf := s.hostReset.regs.qbuf } } ∧
    t.out = s.out ∧ t.cmd = s.cmd ∧ t.regs.qbuf = s.regs.qbuf

/-- Over a byte transport (R53, R54): the bytes of whole words, high byte first, arrive as those words, and the bytes of a
partial word deliver no command. -/
def Obligations.BytesDeliverWholeWords : Prop :=
  ∀ (ws : List Word) (tail : List Byte) (s : State), tail.length < 4 →
    wordsOfBytes ((ws.flatMap fun w =>
      [w.extractLsb' 24 8, w.extractLsb' 16 8, w.extractLsb' 8 8, w.extractLsb' 0 8]) ++ tail) = (ws, tail) ∧
    s.hostSendBytes (ws.flatMap bytesOfWord ++ tail) = { s with cmd := s.cmd ++ ws }

/-! ## Frames -/

/-- NOP, CSC, ZRD, VLI, HLK and RDREG write no predictor, no buffer entry and no load bit, whether they complete, wait for
room, fault or are discarded; MODE and CAUSE change only by the fault of an HLK whose symbol has no code, or of an ill-formed RDREG (log entry 14). -/
def Obligations.ReadOnlyCommandsFrame : Prop :=
  ∀ (i : Instr) (s t : State),
    (i = .nop ∨ (∃ r g b, i = .csc r g b) ∨ (∃ k, i = .zrd k) ∨ (∃ v, i = .vli v) ∨ (∃ tb sym, i = .hlk tb sym) ∨
      ∃ reg, i = .rdreg reg) → exec i s = .next t →
    t.regs.predY = s.regs.predY ∧ t.regs.predCb = s.regs.predCb ∧ t.regs.predCr = s.regs.predCr ∧
    t.regs.qbuf = s.regs.qbuf ∧ t.regs.loaded = s.regs.loaded ∧ t.cfg = s.cfg ∧ t.cmd = s.cmd ∧ s.out <+: t.out ∧
    ((t.regs.mode = s.regs.mode ∧ t.regs.cause = s.regs.cause) ∨ (∃ tb sym, i = .hlk tb sym ∧ hrom s.cfg (tableOf tb) sym = none ∧ s.regs.mode = .run ∧ t.regs.mode = .fault ∧
        t.regs.cause = 4) ∨
      ∃ reg : Byte, i = .rdreg reg ∧ 6 < reg.toNat ∧ s.regs.mode = .run ∧ t.regs.mode = .fault ∧ t.regs.cause = 1)

/-- QLD writes no predictor, no other buffer entry, no other load bit, and no word on OUT unless it faults. -/
def Obligations.QldFrame : Prop :=
  ∀ (cls : BitVec 2) (n : Index) (raw : Half) (s t : State), exec (.qld cls n raw) s = .next t →
    t.regs.predY = s.regs.predY ∧ t.regs.predCb = s.regs.predCb ∧ t.regs.predCr = s.regs.predCr ∧
    (∀ k : Index, k ≠ zzInv n → t.regs.coef k = s.regs.coef k ∧ t.regs.isLoaded k = s.regs.isLoaded k) ∧
    t.cfg = s.cfg ∧ t.cmd = s.cmd ∧ t.draws = s.draws ∧
    ((classOf cls).isSome = true → t.regs.mode = s.regs.mode ∧ t.regs.cause = s.regs.cause ∧ t.out = s.out) ∧
    ((classOf cls).isNone = true → t.regs.qbuf = s.regs.qbuf ∧ t.regs.loaded = s.regs.loaded ∧ s.out <+: t.out)

/-- DCP and ENC write no predictor of another component, and no buffer entry; DCP writes no load bit (R154, R226). -/
def Obligations.DcpAndEncFrame : Prop :=
  ∀ (comp : BitVec 2) (s t : State), (exec (.enc comp) s = .next t ∨ ∃ dc, exec (.dcp comp dc) s = .next t) →
    (∀ c : Component, componentOf comp ≠ some c → t.regs.pred c = s.regs.pred c) ∧
    t.regs.qbuf = s.regs.qbuf ∧ t.cfg = s.cfg ∧ t.cmd = s.cmd ∧ s.out <+: t.out ∧
    (t.regs.mode = s.regs.mode → t.regs.cause = s.regs.cause) ∧
    ((∃ dc, exec (.dcp comp dc) s = .next t) → t.regs.loaded = s.regs.loaded ∧ t.draws = s.draws)
end

