-- ==== Sys2Proof/Laws/Bits.lean ====
section
/-! SUPPORT. Words as numbers: a concatenation, a field, and the word of each command (R73 to R81). -/

namespace Sys2Proof

/-- A concatenation, as a number (R13). -/
theorem append_toNat {m n : Nat} (x : BitVec m) (y : BitVec n) : (x ++ y).toNat = x.toNat * 2 ^ n + y.toNat := by
  rw [BitVec.toNat_append, ← Nat.shiftLeft_add_eq_or_of_lt y.isLt, Nat.shiftLeft_eq]

/-- A field, as a number (R13). -/
theorem field_toNat {w : Nat} (x : BitVec w) (lo n : Nat) : (x.extractLsb' lo n).toNat = x.toNat / 2 ^ lo % 2 ^ n := by
  rw [BitVec.extractLsb'_toNat, Nat.shiftRight_eq_div_pow]

theorem encode_nop_toNat : (encode .nop).toNat = 0 := rfl

theorem encode_init_toNat : (encode .init).toNat = 0x1 * 2 ^ 28 := rfl

theorem encode_csc_toNat (r g b : Byte) :
    (encode (.csc r g b)).toNat = 0x2 * 2 ^ 28 + r.toNat * 2 ^ 16 + g.toNat * 2 ^ 8 + b.toNat := by
  have h : (encode (.csc r g b)).toNat = _ := append_toNat (0x2#4 ++ 0#4 ++ r ++ g) b
  rw [h]; simp only [append_toNat, BitVec.toNat_ofNat]; omega

theorem encode_qld_toNat (cls : BitVec 2) (n : Index) (raw : Half) :
    (encode (.qld cls n raw)).toNat = 0x3 * 2 ^ 28 + cls.toNat * 2 ^ 26 + n.toNat * 2 ^ 20 + raw.toNat := by
  have h : (encode (.qld cls n raw)).toNat = _ := append_toNat (0x3#4 ++ cls ++ n ++ 0#4) raw
  rw [h]; simp only [append_toNat, BitVec.toNat_ofNat]; omega

theorem encode_zrd_toNat (k : Index) : (encode (.zrd k)).toNat = 0x4 * 2 ^ 28 + k.toNat := by
  have h : (encode (.zrd k)).toNat = _ := append_toNat (0x4#4 ++ 0#22) k
  rw [h]; simp only [append_toNat, BitVec.toNat_ofNat]; omega

theorem encode_dcp_toNat (comp : BitVec 2) (dc : Half) :
    (encode (.dcp comp dc)).toNat = 0x5 * 2 ^ 28 + comp.toNat * 2 ^ 26 + dc.toNat := by
  have h : (encode (.dcp comp dc)).toNat = _ := append_toNat (0x5#4 ++ comp ++ 0#10) dc
  rw [h]; simp only [append_toNat, BitVec.toNat_ofNat]; omega

theorem encode_vli_toNat (v : Half) : (encode (.vli v)).toNat = 0x6 * 2 ^ 28 + v.toNat := by
  have h : (encode (.vli v)).toNat = _ := append_toNat (0x6#4 ++ 0#12) v
  rw [h]; simp only [append_toNat, BitVec.toNat_ofNat]; omega

theorem encode_hlk_toNat (t : BitVec 2) (sym : Byte) :
    (encode (.hlk t sym)).toNat = 0x7 * 2 ^ 28 + t.toNat * 2 ^ 26 + sym.toNat := by
  have h : (encode (.hlk t sym)).toNat = _ := append_toNat (0x7#4 ++ t ++ 0#18) sym
  rw [h]; simp only [append_toNat, BitVec.toNat_ofNat]; omega

theorem encode_enc_toNat (comp : BitVec 2) : (encode (.enc comp)).toNat = 0x8 * 2 ^ 28 + comp.toNat * 2 ^ 26 := by
  have h : (encode (.enc comp)).toNat = _ := append_toNat (0x8#4 ++ comp) 0#26
  rw [h]; simp only [append_toNat, BitVec.toNat_ofNat]; omega

theorem encode_rdreg_toNat (reg : Byte) : (encode (.rdreg reg)).toNat = 0x9 * 2 ^ 28 + reg.toNat := by
  have h : (encode (.rdreg reg)).toNat = _ := append_toNat (0x9#4 ++ 0#20) reg
  rw [h]; simp only [append_toNat, BitVec.toNat_ofNat]; omega

end Sys2Proof
end

