-- ==== Sys2Proof/Laws/State.lean ====
section
/-! SUPPORT. The small lemmas of each update of the state and the registers: one per field, true by unfolding once. -/

namespace Sys2Proof.Machine

@[simp] theorem resetWith_cfg (c : Config) : (State.resetWith c).cfg = c := rfl
@[simp] theorem resetWith_regs (c : Config) : (State.resetWith c).regs = Regs.reset := rfl
@[simp] theorem resetWith_out (c : Config) : (State.resetWith c).out = [] := rfl
@[simp] theorem resetWith_cmd (c : Config) : (State.resetWith c).cmd = [] := rfl
@[simp] theorem resetWith_inflight (c : Config) : (State.resetWith c).inflight = none := rfl
@[simp] theorem resetWith_draws (c : Config) : (State.resetWith c).draws = 0 := rfl

@[simp] theorem setPred_mode (r : Regs) (c : Component) (v : Half) : (r.setPred c v).mode = r.mode := by cases c <;> rfl
@[simp] theorem setPred_cause (r : Regs) (c : Component) (v : Half) : (r.setPred c v).cause = r.cause := by cases c <;> rfl
@[simp] theorem setPred_qbuf (r : Regs) (c : Component) (v : Half) : (r.setPred c v).qbuf = r.qbuf := by cases c <;> rfl
@[simp] theorem setPred_loaded (r : Regs) (c : Component) (v : Half) : (r.setPred c v).loaded = r.loaded := by
  cases c <;> rfl
@[simp] theorem setPred_pred (r : Regs) (c : Component) (v : Half) : (r.setPred c v).pred c = v := by cases c <;> rfl
theorem setPred_pred_of_ne (r : Regs) {c d : Component} (v : Half) (h : d ≠ c) : (r.setPred c v).pred d = r.pred d := by
  cases c <;> cases d <;> first | rfl | exact absurd rfl h

@[simp] theorem load_mode (r : Regs) (k : Index) (v : Half) : (r.load k v).mode = r.mode := rfl
@[simp] theorem load_cause (r : Regs) (k : Index) (v : Half) : (r.load k v).cause = r.cause := rfl
@[simp] theorem load_pred (r : Regs) (k : Index) (v : Half) (c : Component) : (r.load k v).pred c = r.pred c := by
  cases c <;> rfl
@[simp] theorem load_qbuf (r : Regs) (k : Index) (v : Half) : (r.load k v).qbuf = r.qbuf.set (at64 k) v := rfl
@[simp] theorem load_loaded (r : Regs) (k : Index) (v : Half) :
    (r.load k v).loaded = r.loaded ||| BitVec.ofNat 64 (2 ^ k.toNat) := rfl

@[simp] theorem initialise_mode (r : Regs) : r.initialise.mode = .run := rfl
@[simp] theorem initialise_cause (r : Regs) : r.initialise.cause = 0 := rfl
@[simp] theorem initialise_pred (r : Regs) (c : Component) : r.initialise.pred c = 0 := by cases c <;> rfl
@[simp] theorem initialise_qbuf (r : Regs) : r.initialise.qbuf = r.qbuf := rfl
@[simp] theorem initialise_loaded (r : Regs) : r.initialise.loaded = 0 := rfl

@[simp] theorem blockDone_mode (r : Regs) (c : Component) : (r.blockDone c).mode = r.mode := by cases c <;> rfl
@[simp] theorem blockDone_cause (r : Regs) (c : Component) : (r.blockDone c).cause = r.cause := by cases c <;> rfl
@[simp] theorem blockDone_qbuf (r : Regs) (c : Component) : (r.blockDone c).qbuf = r.qbuf := by cases c <;> rfl
@[simp] theorem blockDone_loaded (r : Regs) (c : Component) : (r.blockDone c).loaded = 0 := rfl
@[simp] theorem blockDone_pred (r : Regs) (c : Component) : (r.blockDone c).pred c = r.dc := by cases c <;> rfl
theorem blockDone_pred_of_ne (r : Regs) {c d : Component} (h : d ≠ c) : (r.blockDone c).pred d = r.pred d := by
  cases c <;> cases d <;> first | rfl | exact absurd rfl h

@[simp] theorem faultEffect_words (x : FaultCause) (ws : List Word) (r : Regs) :
    (faultEffect x ws r).words = ws ++ [flt (causeCode x)] := rfl
@[simp] theorem faultEffect_mode (x : FaultCause) (ws : List Word) (r : Regs) : (faultEffect x ws r).regs.mode = .fault := rfl
@[simp] theorem faultEffect_cause (x : FaultCause) (ws : List Word) (r : Regs) :
    (faultEffect x ws r).regs.cause = causeCode x := rfl
@[simp] theorem faultEffect_pred (x : FaultCause) (ws : List Word) (r : Regs) (c : Component) :
    (faultEffect x ws r).regs.pred c = r.pred c := by cases c <;> rfl
@[simp] theorem faultEffect_qbuf (x : FaultCause) (ws : List Word) (r : Regs) : (faultEffect x ws r).regs.qbuf = r.qbuf := rfl
@[simp] theorem faultEffect_loaded (x : FaultCause) (ws : List Word) (r : Regs) :
    (faultEffect x ws r).regs.loaded = r.loaded := rfl

/-- Reading an entry of `QBUF` after a load. -/
theorem load_coef (r : Regs) (k j : Index) (v : Half) : (r.load k v).coef j = if j = k then v else r.coef j := by
  unfold Regs.coef Regs.load
  simp only [Fin.getElem_fin]
  rw [Vector.getElem_set]
  have h : (at64 k).val = (at64 j).val ↔ j = k := by
    constructor
    · intro h; exact (BitVec.eq_of_toNat_eq h).symm
    · rintro rfl; rfl
  simp only [h]

/-- Reading a load bit after a load. -/
theorem load_isLoaded (r : Regs) (k j : Index) (v : Half) :
    (r.load k v).isLoaded j = if j = k then true else r.isLoaded j := by
  have hj : j.toNat < 64 := j.isLt
  have hk : k.toNat < 64 := k.isLt
  unfold Regs.isLoaded Regs.load
  simp only [BitVec.getLsbD_or, BitVec.getLsbD_ofNat, hj, decide_true, Bool.true_and, Nat.testBit_two_pow]
  by_cases h : j = k
  · simp [h]
  · have : ¬ k.toNat = j.toNat := fun e => h (BitVec.eq_of_toNat_eq e.symm)
    simp [h, this]

/-- The buffer is full exactly when every load bit is 1 (R32). -/
theorem full_iff (r : Regs) : r.full = true ↔ ∀ k : Index, r.isLoaded k = true := by
  unfold Regs.full Regs.isLoaded
  rw [beq_iff_eq]
  constructor
  · intro h k
    rw [h, BitVec.getLsbD_allOnes]
    exact decide_eq_true k.isLt
  · intro h
    refine BitVec.eq_of_getLsbD_eq fun i hi => ?_
    rw [BitVec.getLsbD_allOnes]
    have := h (BitVec.ofNat 6 i)
    rw [BitVec.toNat_ofNat, Nat.mod_eq_of_lt hi] at this
    simpa [hi] using this

end Sys2Proof.Machine
end

