-- ==== Sys2Proof/Laws/Ops.lean ====
section
/-! SUPPORT. One lemma per shared operation: everything that completing, running in a mode, and dispatching can do. -/

namespace Sys2Proof.Machine

/-- A command that has room for its words completes at once (R50, R58). -/
theorem complete_of_room {s : State} {e : Effect} (h : s.hasRoom e.words.length = true) :
    s.complete e = { s with out := s.out ++ e.words, regs := e.regs, inflight := none } := by
  unfold State.hasRoom at h
  unfold State.complete
  split
  · rfl
  · rename_i depth hd
    simp only [hd, decide_eq_true_eq] at h
    rw [if_pos (by omega)]

/-- A command that emits nothing completes at once, whatever OUT holds (R58). -/
theorem complete_nil (s : State) (r : Regs) : s.complete ⟨[], r⟩ = { s with regs := r, inflight := none } := by
  unfold State.complete
  split <;> simp

/-- Everything that completing can do: finish, or fill OUT and stay in progress with the rest of the words (R50, R58). -/
theorem complete_cases (s : State) (e : Effect) :
    s.complete e = { s with out := s.out ++ e.words, regs := e.regs, inflight := none } ∨
    ∃ depth ws rest, s.cfg.outDepth = some depth ∧ e.words = ws ++ rest ∧ rest ≠ [] ∧
      ws.length = depth - s.out.length ∧
      s.complete e = { s with out := s.out ++ ws, inflight := some ⟨rest, e.regs⟩ } := by
  unfold State.complete
  split
  · exact .inl rfl
  · rename_i depth hd
    split
    · exact .inl rfl
    · rename_i h
      refine .inr ⟨depth, e.words.take (depth - s.out.length), e.words.drop (depth - s.out.length), hd,
        (List.take_append_drop _ _).symm, ?_, ?_, rfl⟩
      · intro hnil
        rw [List.drop_eq_nil_iff] at hnil
        exact h hnil
      · rw [List.length_take]; omega

@[simp] theorem complete_cfg (s : State) (e : Effect) : (s.complete e).cfg = s.cfg := by
  obtain h | ⟨_, _, _, _, _, _, _, h⟩ := complete_cases s e <;> rw [h]

@[simp] theorem complete_cmd (s : State) (e : Effect) : (s.complete e).cmd = s.cmd := by
  obtain h | ⟨_, _, _, _, _, _, _, h⟩ := complete_cases s e <;> rw [h]

@[simp] theorem complete_draws (s : State) (e : Effect) : (s.complete e).draws = s.draws := by
  obtain h | ⟨_, _, _, _, _, _, _, h⟩ := complete_cases s e <;> rw [h]

/-- The registers after completing are the old ones, or those of the completion (R55). -/
theorem complete_regs (s : State) (e : Effect) : (s.complete e).regs = s.regs ∨ (s.complete e).regs = e.regs := by
  obtain h | ⟨_, _, _, _, _, _, _, h⟩ := complete_cases s e <;> rw [h] <;> simp

/-- Completing only appends to OUT (R27). -/
theorem complete_out (s : State) (e : Effect) : s.out <+: (s.complete e).out := by
  obtain h | ⟨_, _, _, _, _, _, _, h⟩ := complete_cases s e <;> rw [h] <;> exact List.prefix_append _ _

theorem inRun_run {s : State} (h : s.regs.mode = .run) (o : Host.Outcome State Fault Refusal) : s.inRun o = o := by
  simp [State.inRun, h]

theorem inRun_fault {s : State} (h : s.regs.mode = .fault) (o : Host.Outcome State Fault Refusal) :
    s.inRun o = .next s := by
  simp [State.inRun, h]

/-- A command begun between commands, with room for its words, completes: its words follow on OUT, its registers are
written, and nothing else changes (R50, R55). -/
theorem done_of_room {s : State} {e : Effect} (hi : s.inflight = none) (h : s.hasRoom e.words.length = true) :
    s.done e = .next { s with out := s.out ++ e.words, regs := e.regs } := by
  unfold State.done
  rw [complete_of_room h]
  obtain ⟨cfg, regs, out, cmd, inflight, draws⟩ := s
  simp only at hi
  subst hi
  rfl

/-- A command begun between commands that emits nothing completes, whatever OUT holds (R55, R58). -/
theorem done_nil {s : State} (hi : s.inflight = none) (r : Regs) : s.done ⟨[], r⟩ = .next { s with regs := r } := by
  unfold State.done
  rw [complete_nil]
  obtain ⟨cfg, regs, out, cmd, inflight, draws⟩ := s
  simp only at hi
  subst hi
  rfl

/-- A fault before any word, with room for the FLT word (R273). -/
theorem raise_of_room {s : State} (hi : s.inflight = none) (x : FaultCause) (h : s.hasRoom 1 = true) :
    s.raise x = .next (s.faulted x) := by
  unfold State.raise
  rw [done_of_room hi (e := faultEffect x [] s.regs) (by simpa [faultEffect] using h)]
  rfl

/-- The number of tokens drawn for a faulting ENC is within its bound (R227). -/
theorem countUpTo_le (i c : Nat) : countUpTo i c ≤ i := by
  cases i with
  | zero => exact Nat.le_refl 0
  | succ j => exact Nat.le_of_lt_succ (Nat.mod_lt _ (by omega))

/-- The effects a command can have, in the registers `r` of RUN mode: fault entry, or one of the register updates of the
commands' rules. -/
inductive EffectOf (c : Config) (r : Regs) : Instr → Effect → Prop where
  | csc (x y z : Byte) : EffectOf c r (.csc x y z) ⟨[cscWord c.rndTies x y z], r⟩
  | qld (cls : BitVec 2) (n : Index) (raw : Half) (k : ChannelClass) (h : classOf cls = some k) :
      EffectOf c r (.qld cls n raw) ⟨[], r.load (zzInv n) (BitVec.ofInt 16 (quantized c k n raw))⟩
  | qldFault (cls : BitVec 2) (n : Index) (raw : Half) (h : classOf cls = none) :
      EffectOf c r (.qld cls n raw) (faultEffect .invalidChannelClass [] r)
  | zrd (k : Index) (h : r.isLoaded k = true) : EffectOf c r (.zrd k) ⟨[zrdr true k (r.coef k)], r⟩
  | zrdUnloaded (k : Index) (v : Half) (h : r.isLoaded k = false) : EffectOf c r (.zrd k) ⟨[zrdr false k v], r⟩
  | dcp (comp : BitVec 2) (dc : Half) (k : Component) (h : componentOf comp = some k) :
      EffectOf c r (.dcp comp dc) ⟨[dcpr (dcDiff r k dc)], r.setPred k dc⟩
  | dcpFault (comp : BitVec 2) (dc : Half) (h : componentOf comp = none) :
      EffectOf c r (.dcp comp dc) (faultEffect .invalidComponent [] r)
  | vli (v : Half) : EffectOf c r (.vli v) ⟨[vlir (vliBits (sext16 v))], r⟩
  | hlk (t : BitVec 2) (sym : Byte) (e : BitString) (h : hrom c (tableOf t) sym = some e) :
      EffectOf c r (.hlk t sym) ⟨[hlkr e], r⟩
  | hlkFault (t : BitVec 2) (sym : Byte) (h : hrom c (tableOf t) sym = none) :
      EffectOf c r (.hlk t sym) (faultEffect .unknownSymbol [] r)
  | encComponent (comp : BitVec 2) (h : componentOf comp = none) :
      EffectOf c r (.enc comp) (faultEffect .invalidComponent [] r)
  | encIncomplete (comp : BitVec 2) (k : Component) (h : componentOf comp = some k) (hf : r.full = false) :
      EffectOf c r (.enc comp) (faultEffect .incompleteBlock [] r)
  | enc (comp : BitVec 2) (k : Component) (h : componentOf comp = some k) (hf : r.full = true)
      (hok : (blockTokens c k r).2 = true) :
      EffectOf c r (.enc comp) ⟨(blockTokens c k r).1.map tokenWord, r.blockDone k⟩
  | encUnknown (comp : BitVec 2) (k : Component) (p : Nat) (h : componentOf comp = some k) (hf : r.full = true)
      (hok : (blockTokens c k r).2 = false) (hp : p ≤ (blockTokens c k r).1.length) :
      EffectOf c r (.enc comp) (faultEffect .unknownSymbol (((blockTokens c k r).1.take p).map tokenWord) r)
  | illegalReg (reg : Byte) (h : r.register reg = none) : EffectOf c r (.rdreg reg) (faultEffect .illegalCommand [] r)

/-- Everything `exec` can do: nothing (NOP, or a command discarded in FAULT mode); INIT or RDREG, in either mode; or, in
RUN mode, one of the effects above, with at most one draw made. -/
theorem exec_cases (i : Instr) (s : State) :
    (exec i s = .next s ∧ (i = .nop ∨ (s.regs.mode = .fault ∧ i ≠ .init ∧ ∀ reg, i = .rdreg reg → s.regs.register reg = none))) ∨
    (i = .init ∧ exec i s = .next (s.complete ⟨[], s.regs.initialise⟩)) ∨
    (∃ reg d, i = .rdreg reg ∧ s.regs.register reg = some d ∧ exec i s = .next (s.complete ⟨[regr reg d], s.regs⟩)) ∨
    (s.regs.mode = .run ∧ ∃ e n, EffectOf s.cfg s.regs i e ∧ n ≤ s.draws + 1 ∧ s.draws ≤ n ∧
      exec i s = .next (({ s with draws := n } : State).complete e)) := by
  cases i with
  | nop => exact .inl ⟨rfl, .inl rfl⟩
  | init => exact .inr (.inl ⟨rfl, rfl⟩)
  | rdreg reg =>
    cases h : s.regs.register reg with
    | some d => exact .inr (.inr (.inl ⟨reg, d, rfl, h, by simp [exec, execRdreg, h, State.done]⟩))
    | none =>
      cases hm : s.regs.mode with
      | run =>
        refine .inr (.inr (.inr ⟨rfl, faultEffect .illegalCommand [] s.regs, s.draws, .illegalReg reg h, by omega, by omega, ?_⟩))
        simp [exec, execRdreg, h, State.illegal, inRun_run hm, State.raise, State.done]
      | fault =>
        refine .inl ⟨by simp [exec, execRdreg, h, State.illegal, inRun_fault hm], .inr ⟨rfl, by simp, ?_⟩⟩
        intro q hq; cases hq; exact h
  | csc x y z =>
    cases hm : s.regs.mode with
    | run =>
      refine .inr (.inr (.inr ⟨rfl, _, s.draws, .csc x y z, by omega, by omega, ?_⟩))
      simp [exec, execCsc, inRun_run hm, State.done]
    | fault => exact .inl ⟨by simp [exec, execCsc, inRun_fault hm], .inr ⟨rfl, by simp, by simp⟩⟩
  | vli v =>
    cases hm : s.regs.mode with
    | run =>
      refine .inr (.inr (.inr ⟨rfl, _, s.draws, .vli v, by omega, by omega, ?_⟩))
      simp [exec, execVli, inRun_run hm, State.done]
    | fault => exact .inl ⟨by simp [exec, execVli, inRun_fault hm], .inr ⟨rfl, by simp, by simp⟩⟩
  | qld cls n raw =>
    cases hm : s.regs.mode with
    | run =>
      cases h : classOf cls with
      | some k =>
        refine .inr (.inr (.inr ⟨rfl, _, s.draws, .qld cls n raw k h, by omega, by omega, ?_⟩))
        simp [exec, execQld, inRun_run hm, h, State.done]
      | none =>
        refine .inr (.inr (.inr ⟨rfl, _, s.draws, .qldFault cls n raw h, by omega, by omega, ?_⟩))
        simp [exec, execQld, inRun_run hm, h, State.raise, State.done]
    | fault => exact .inl ⟨by simp [exec, execQld, inRun_fault hm], .inr ⟨rfl, by simp, by simp⟩⟩
  | zrd k =>
    cases hm : s.regs.mode with
    | run =>
      cases h : s.regs.isLoaded k with
      | true =>
        refine .inr (.inr (.inr ⟨rfl, _, s.draws, .zrd k h, by omega, by omega, ?_⟩))
        simp [exec, execZrd, inRun_run hm, h, State.done]
      | false =>
        refine .inr (.inr (.inr ⟨rfl, _, s.draws + 1, .zrdUnloaded k (Config.freeValue s.draws) h, by omega, by omega, ?_⟩))
        simp [exec, execZrd, inRun_run hm, h, State.done, State.draw16]
    | fault => exact .inl ⟨by simp [exec, execZrd, inRun_fault hm], .inr ⟨rfl, by simp, by simp⟩⟩
  | dcp comp dc =>
    cases hm : s.regs.mode with
    | run =>
      cases h : componentOf comp with
      | some k =>
        refine .inr (.inr (.inr ⟨rfl, _, s.draws, .dcp comp dc k h, by omega, by omega, ?_⟩))
        simp [exec, execDcp, inRun_run hm, h, State.done]
      | none =>
        refine .inr (.inr (.inr ⟨rfl, _, s.draws, .dcpFault comp dc h, by omega, by omega, ?_⟩))
        simp [exec, execDcp, inRun_run hm, h, State.raise, State.done]
    | fault => exact .inl ⟨by simp [exec, execDcp, inRun_fault hm], .inr ⟨rfl, by simp, by simp⟩⟩
  | hlk t sym =>
    cases hm : s.regs.mode with
    | run =>
      cases h : hrom s.cfg (tableOf t) sym with
      | some k =>
        refine .inr (.inr (.inr ⟨rfl, _, s.draws, .hlk t sym k h, by omega, by omega, ?_⟩))
        simp [exec, execHlk, inRun_run hm, h, State.done]
      | none =>
        refine .inr (.inr (.inr ⟨rfl, _, s.draws, .hlkFault t sym h, by omega, by omega, ?_⟩))
        simp [exec, execHlk, inRun_run hm, h, State.raise, State.done]
    | fault => exact .inl ⟨by simp [exec, execHlk, inRun_fault hm], .inr ⟨rfl, by simp, by simp⟩⟩
  | enc comp =>
    cases hm : s.regs.mode with
    | fault => exact .inl ⟨by simp [exec, execEnc, inRun_fault hm], .inr ⟨rfl, by simp, by simp⟩⟩
    | run =>
      cases h : componentOf comp with
      | none =>
        refine .inr (.inr (.inr ⟨rfl, _, s.draws, .encComponent comp h, by omega, by omega, ?_⟩))
        simp [exec, execEnc, inRun_run hm, h, State.raise, State.done]
      | some k =>
        cases hf : s.regs.full with
        | false =>
          refine .inr (.inr (.inr ⟨rfl, _, s.draws, .encIncomplete comp k h hf, by omega, by omega, ?_⟩))
          simp [exec, execEnc, inRun_run hm, h, hf, State.raise, State.done]
        | true =>
          cases hok : (blockTokens s.cfg k s.regs).2 with
          | true =>
            refine .inr (.inr (.inr ⟨rfl, _, s.draws, .enc comp k h hf hok, by omega, by omega, ?_⟩))
            simp [exec, execEnc, inRun_run hm, h, hf, hok, blockEffect, State.done]
          | false =>
            refine .inr (.inr (.inr ⟨rfl, _, s.draws + 1, .encUnknown comp k
              (countUpTo (blockTokens s.cfg k s.regs).1.length s.draws) h hf hok (countUpTo_le _ _), by omega, by omega, ?_⟩))
            simp [exec, execEnc, inRun_run hm, h, hf, hok, blockEffect, State.done, State.drawUpTo]

end Sys2Proof.Machine
end

