-- ==== Sys2Proof/Laws/Effect.lean ====
section
/-! SUPPORT. Every command is a function of the configuration, the registers and the number of draws alone: its effect, which
`exec` then completes. -/

namespace Sys2Proof.Machine

/-- The effect of a command in RUN mode, with the number of draws after it. -/
def runEffect (c : Config) (r : Regs) (d : Nat) : Instr → Option (Effect × Nat)
  | .nop => none
  | .init => some (⟨[], r.initialise⟩, d)
  | .csc x y z => some (⟨[cscWord c.rndTies x y z], r⟩, d)
  | .qld cls n raw =>
    match classOf cls with
    | none => some (faultEffect .invalidChannelClass [] r, d)
    | some k => some (⟨[], r.load (zzInv n) (BitVec.ofInt 16 (quantized c k n raw))⟩, d)
  | .zrd k =>
    if r.isLoaded k then some (⟨[zrdr true k (r.coef k)], r⟩, d)
    else some (⟨[zrdr false k (Config.freeValue d)], r⟩, d + 1)
  | .dcp comp dc =>
    match componentOf comp with
    | none => some (faultEffect .invalidComponent [] r, d)
    | some k => some (⟨[dcpr (dcDiff r k dc)], r.setPred k dc⟩, d)
  | .vli v => some (⟨[vlir (vliBits (sext16 v))], r⟩, d)
  | .hlk t sym =>
    match hrom c (tableOf t) sym with
    | none => some (faultEffect .unknownSymbol [] r, d)
    | some e => some (⟨[hlkr e], r⟩, d)
  | .enc comp =>
    match componentOf comp with
    | none => some (faultEffect .invalidComponent [] r, d)
    | some k =>
      if r.full then
        if (blockTokens c k r).2 then some (blockEffect c k r 0, d)
        else some (blockEffect c k r (countUpTo (blockTokens c k r).1.length d), d + 1)
      else some (faultEffect .incompleteBlock [] r, d)
  | .rdreg reg =>
    match r.register reg with
    | none => some (faultEffect .illegalCommand [] r, d)
    | some v => some (⟨[regr reg v], r⟩, d)

/-- The effect of a command in FAULT mode (R275). -/
def faultModeEffect (r : Regs) (d : Nat) : Instr → Option (Effect × Nat)
  | .init => some (⟨[], r.initialise⟩, d)
  | .rdreg reg => (r.register reg).map fun v => (⟨[regr reg v], r⟩, d)
  | .nop => none
  | .csc _ _ _ => none
  | .qld _ _ _ => none
  | .zrd _ => none
  | .dcp _ _ => none
  | .vli _ => none
  | .hlk _ _ => none
  | .enc _ => none

/-- The effect of a command in either mode. -/
def effect (c : Config) (r : Regs) (d : Nat) (i : Instr) : Option (Effect × Nat) :=
  match r.mode with
  | .run => runEffect c r d i
  | .fault => faultModeEffect r d i

/-- The state after a command with this effect; a command without one changes nothing. -/
def State.afterEffect (s : State) : Option (Effect × Nat) → State
  | none => s
  | some (e, d) => ({ s with draws := d } : State).complete e

/-- `exec` completes the command's effect in FAULT mode. -/
theorem exec_eq_faultModeEffect (i : Instr) {s : State} (hm : s.regs.mode = .fault) :
    exec i s = .next (s.afterEffect (faultModeEffect s.regs s.draws i)) := by
  cases i with
  | rdreg reg =>
    simp only [exec, execRdreg, faultModeEffect]
    cases s.regs.register reg with
    | none => exact inRun_fault hm _
    | some d => rfl
  | nop => rfl
  | init => rfl
  | csc _ _ _ => exact inRun_fault hm _
  | qld _ _ _ => exact inRun_fault hm _
  | zrd _ => exact inRun_fault hm _
  | dcp _ _ => exact inRun_fault hm _
  | vli _ => exact inRun_fault hm _
  | hlk _ _ => exact inRun_fault hm _
  | enc _ => exact inRun_fault hm _

/-- `exec` completes the command's effect in RUN mode. -/
theorem exec_eq_runEffect (i : Instr) {s : State} (hm : s.regs.mode = .run) :
    exec i s = .next (s.afterEffect (runEffect s.cfg s.regs s.draws i)) := by
  cases i with
  | nop => rfl
  | init => rfl
  | csc _ _ _ => exact inRun_run hm _
  | vli _ => exact inRun_run hm _
  | qld cls _ _ =>
    refine (inRun_run hm _).trans ?_
    simp only [runEffect]
    cases classOf cls <;> rfl
  | zrd k =>
    refine (inRun_run hm _).trans ?_
    simp only [runEffect]
    cases s.regs.isLoaded k <;> rfl
  | dcp comp _ =>
    refine (inRun_run hm _).trans ?_
    simp only [runEffect]
    cases componentOf comp <;> rfl
  | hlk t sym =>
    refine (inRun_run hm _).trans ?_
    simp only [runEffect]
    cases hrom s.cfg (tableOf t) sym <;> rfl
  | enc comp =>
    refine (inRun_run hm _).trans ?_
    simp only [runEffect]
    cases componentOf comp with
    | none => rfl
    | some c =>
      cases s.regs.full with
      | false => rfl
      | true => simp only [if_true]; cases (blockTokens s.cfg c s.regs).2 <;> rfl
  | rdreg reg =>
    simp only [exec, execRdreg, runEffect]
    cases s.regs.register reg with
    | none => exact inRun_run hm _
    | some d => rfl

/-- `exec` completes the command's effect. -/
theorem exec_eq_effect (i : Instr) (s : State) :
    exec i s = .next (s.afterEffect (effect s.cfg s.regs s.draws i)) := by
  unfold effect
  cases hm : s.regs.mode
  · exact exec_eq_runEffect i hm
  · exact exec_eq_faultModeEffect i hm

/-- The effect does not depend on how many words OUT can hold (R12). -/
theorem effect_outDepth (c : Config) (depth : Option Nat) (r : Regs) (d : Nat) (i : Instr) :
    effect { c with outDepth := depth } r d i = effect c r d i := by
  unfold effect
  cases r.mode <;> cases i <;> rfl

/-- The effect of a command word, legal or not (R83, R271, R275). -/
def wordEffect (c : Config) (r : Regs) (d : Nat) (w : Word) : Option (Effect × Nat) :=
  match decode w with
  | .ok i => effect c r d i
  | .error _ =>
    match r.mode with
    | .run => some (faultEffect .illegalCommand [] r, d)
    | .fault => none

/-- The state after one step: the command in progress goes on, or the core waits, or the effect of the oldest command word
completes. -/
def State.afterStep (s : State) : State :=
  match s.inflight with
  | some e => s.complete e
  | none =>
    match s.cmd with
    | [] => s
    | w :: rest => ({ s with cmd := rest } : State).afterEffect (wordEffect s.cfg s.regs s.draws w)

/-- A step always has a next state, and this is it. -/
theorem step_eq_afterStep (s : State) : step s = .next s.afterStep := by
  obtain ⟨cfg, regs, out, cmd, inflight, draws⟩ := s
  cases inflight with
  | some e => rfl
  | none =>
    cases cmd with
    | nil => rfl
    | cons w rest =>
      simp only [step, State.afterStep, State.takeCommand, wordEffect]
      cases decode w with
      | ok i => exact exec_eq_effect i _
      | error _ => cases hm : regs.mode <;> simp [State.illegal, State.inRun, State.raise, State.done, State.afterEffect, hm]

end Sys2Proof.Machine
end

