-- ==== Sys2Proof/Laws/Operands.lean ====
section
/-! SUPPORT. The operand codes (R75, R77, R79 to R81) and the register numbers (R31), each in one lemma. -/

namespace Sys2Proof.Machine

theorem classOf_eq_none_iff (cls : BitVec 2) : classOf cls = none ↔ cls = 2 ∨ cls = 3 := by revert cls; decide

theorem classOf_eq_some_iff (cls : BitVec 2) (k : ChannelClass) :
    classOf cls = some k ↔ (cls = 0 ∧ k = .luma) ∨ (cls = 1 ∧ k = .chroma) := by
  cases k <;> revert cls <;> decide

theorem componentOf_eq_none_iff (comp : BitVec 2) : componentOf comp = none ↔ comp = 3 := by revert comp; decide

theorem componentOf_eq_some_iff (comp : BitVec 2) (c : Component) :
    componentOf comp = some c ↔ (comp = 0 ∧ c = .y) ∨ (comp = 1 ∧ c = .cb) ∨ (comp = 2 ∧ c = .cr) := by
  cases c <;> revert comp <;> decide

theorem tableOf_eq_iff (t : BitVec 2) (table : TableId) :
    tableOf t = table ↔ (t = 0 ∧ table = .dcLuma) ∨ (t = 1 ∧ table = .dcChroma) ∨ (t = 2 ∧ table = .acLuma) ∨
      (t = 3 ∧ table = .acChroma) := by
  cases table <;> revert t <;> decide

/-- The defined register numbers are 0 to 6 (R31). -/
theorem register_eq_none_iff (r : Regs) (reg : Byte) : r.register reg = none ↔ 6 < reg.toNat := by
  unfold Regs.register
  split <;> simp_all
  omega

end Sys2Proof.Machine
end

