-- ==== Sys2Proof/Laws/PerInstr.lean ====
section
/-! SUPPORT. Statements for all commands, one lemma per constructor. -/

namespace Sys2Proof.Laws.OpcodeField

/-- The opcode of a command (R71). -/
def opcode : Instr → BitVec 4
  | .nop => 0x0
  | .init => 0x1
  | .csc _ _ _ => 0x2
  | .qld _ _ _ => 0x3
  | .zrd _ => 0x4
  | .dcp _ _ => 0x5
  | .vli _ => 0x6
  | .hlk _ _ => 0x7
  | .enc _ => 0x8
  | .rdreg _ => 0x9

/-- Bits 31:28 of the word of a command are its opcode (R70, R71). -/
def Statement (i : Instr) : Prop := (encode i).extractLsb' 28 4 = opcode i

/-- The opcode of a word of which 28 bits are left after `op`. -/
theorem of_toNat {i : Instr} {x : Nat} (h : (encode i).toNat = (opcode i).toNat * 2 ^ 28 + x) (hx : x < 2 ^ 28) :
    Statement i := by
  apply BitVec.eq_of_toNat_eq
  rw [field_toNat, h]
  have := (opcode i).isLt
  omega

theorem nop : Statement .nop := of_toNat (x := 0) rfl (by omega)

theorem init : Statement .init := of_toNat (x := 0) rfl (by omega)

theorem csc (r g b : Byte) : Statement (.csc r g b) := by
  refine of_toNat (x := r.toNat * 2 ^ 16 + g.toNat * 2 ^ 8 + b.toNat) ?_ ?_
  · rw [encode_csc_toNat]; simp only [opcode, BitVec.ofNat_eq_ofNat, BitVec.toNat_ofNat]; omega
  · have := r.isLt; have := g.isLt; have := b.isLt; omega

theorem qld (cls : BitVec 2) (n : Index) (raw : Half) : Statement (.qld cls n raw) := by
  refine of_toNat (x := cls.toNat * 2 ^ 26 + n.toNat * 2 ^ 20 + raw.toNat) ?_ ?_
  · rw [encode_qld_toNat]; simp only [opcode, BitVec.ofNat_eq_ofNat, BitVec.toNat_ofNat]; omega
  · have := cls.isLt; have := n.isLt; have := raw.isLt; omega

theorem zrd (k : Index) : Statement (.zrd k) :=
  of_toNat (encode_zrd_toNat k) (by have := k.isLt; omega)

theorem dcp (comp : BitVec 2) (dc : Half) : Statement (.dcp comp dc) := by
  refine of_toNat (x := comp.toNat * 2 ^ 26 + dc.toNat) ?_ ?_
  · rw [encode_dcp_toNat]; simp only [opcode, BitVec.ofNat_eq_ofNat, BitVec.toNat_ofNat]; omega
  · have := comp.isLt; have := dc.isLt; omega

theorem vli (v : Half) : Statement (.vli v) :=
  of_toNat (encode_vli_toNat v) (by have := v.isLt; omega)

theorem hlk (t : BitVec 2) (sym : Byte) : Statement (.hlk t sym) := by
  refine of_toNat (x := t.toNat * 2 ^ 26 + sym.toNat) ?_ ?_
  · rw [encode_hlk_toNat]; simp only [opcode, BitVec.ofNat_eq_ofNat, BitVec.toNat_ofNat]; omega
  · have := t.isLt; have := sym.isLt; omega

theorem enc (comp : BitVec 2) : Statement (.enc comp) :=
  of_toNat (encode_enc_toNat comp) (by have := comp.isLt; omega)

theorem rdreg (reg : Byte) : Statement (.rdreg reg) :=
  of_toNat (encode_rdreg_toNat reg) (by have := reg.isLt; omega)

end Sys2Proof.Laws.OpcodeField
end

