-- ==== Sys2Proof/Laws/Rom.lean ====
section
/-! SUPPORT. The checks of a code table as propositions, and looking a symbol up in a table in rising order (R194, R196). -/

namespace Sys2Proof.Machine

theorem risingSymbols_iff (tab : CodeTable) :
    risingSymbols tab = true ↔ tab.Pairwise fun e f => e.sym.toNat < f.sym.toNat := by
  induction tab with
  | nil => simp [risingSymbols]
  | cons e es ih =>
    cases es with
    | nil => simp [risingSymbols]
    | cons f es =>
      simp only [risingSymbols, Bool.and_eq_true, decide_eq_true_eq, ih]
      constructor
      · rintro ⟨h1, h2⟩
        refine List.pairwise_cons.2 ⟨fun g hg => ?_, h2⟩
        rcases List.mem_cons.1 hg with rfl | hg
        · exact h1
        · exact h1.trans ((List.pairwise_cons.1 h2).1 g hg)
      · intro h
        exact ⟨(List.pairwise_cons.1 h).1 f (by simp), (List.pairwise_cons.1 h).2⟩

theorem prefixFree_iff (tab : CodeTable) :
    prefixFree tab = true ↔ tab.Pairwise fun e f => codePrefix e f = false ∧ codePrefix f e = false := by
  induction tab with
  | nil => simp [prefixFree]
  | cons e es ih => simp [prefixFree, ih, List.pairwise_cons]

/-- In a table in rising order the entry of a symbol is the one listed for it. -/
theorem lookup_eq_some_iff {tab : CodeTable} (hr : tab.Pairwise fun e f => e.sym.toNat < f.sym.toNat) (s : Byte)
    (b : BitString) : lookup tab s = some b ↔ ∃ e ∈ tab, e.sym = s ∧ entryString e = b := by
  induction tab with
  | nil => simp [lookup]
  | cons a tab ih =>
    rw [List.pairwise_cons] at hr
    by_cases ha : a.sym = s
    · have : lookup (a :: tab) s = some (entryString a) := by simp [lookup, ha]
      rw [this]
      constructor
      · intro h
        exact ⟨a, by simp, ha, Option.some.inj h⟩
      · rintro ⟨e, he, hs, rfl⟩
        rcases List.mem_cons.1 he with rfl | he
        · rfl
        · exact absurd (hr.1 e he) (by rw [ha, hs]; exact Nat.lt_irrefl _)
    · have hb : (a.sym == s) = false := by simpa using ha
      have : lookup (a :: tab) s = lookup tab s := by simp only [lookup, List.find?_cons, hb]
      rw [this, ih hr.2]
      simp [ha]

end Sys2Proof.Machine
end

