-- ==== Sys2Proof/Laws/Runs.lean ====
section
/-! SUPPORT. The events of a run, one lemma each (R315, R317). -/

namespace Sys2Proof.Machine

theorem after_step (s : State) : s.after .step = .next s.afterStep := step_eq_afterStep s

@[simp] theorem after_send (s : State) (w : Word) : s.after (.send w) = .next { s with cmd := s.cmd ++ [w] } := rfl

theorem after_take (s : State) : s.after .take = .next { s with out := s.out.tail } := by
  obtain ⟨cfg, regs, out, cmd, inflight, draws⟩ := s
  cases out <;> rfl

/-- Every event has a next state. -/
theorem after_next (s : State) (e : Event) : ∃ t, s.after e = .next t := by
  cases e with
  | step => exact ⟨_, after_step s⟩
  | send w => exact ⟨_, after_send s w⟩
  | take => exact ⟨_, after_take s⟩

@[simp] theorem runEvents_nil (s : State) : runEvents [] s = .next (s, []) := rfl

/-- A run goes through the state after its first event, and puts the words of that event first. -/
theorem runEvents_cons_iff {s t u : State} {e : Event} {es : List Event} {ws : List Word} (h : s.after e = .next t) :
    runEvents (e :: es) s = .next (u, ws) ↔ ∃ vs, runEvents es t = .next (u, vs) ∧ ws = e.emitted s t ++ vs := by
  simp only [runEvents, h]
  cases runEvents es t with
  | next p =>
    obtain ⟨v, vs⟩ := p
    simp only [Host.Outcome.next.injEq, Prod.mk.injEq]
    constructor
    · rintro ⟨rfl, rfl⟩
      exact ⟨vs, ⟨rfl, rfl⟩, rfl⟩
    · rintro ⟨_, ⟨rfl, rfl⟩, rfl⟩
      exact ⟨rfl, rfl⟩
  | fault x => simp
  | refused x => simp

@[simp] theorem wordsSent_nil : wordsSent [] = [] := rfl
@[simp] theorem wordsSent_step (es : List Event) : wordsSent (.step :: es) = wordsSent es := rfl
@[simp] theorem wordsSent_send (w : Word) (es : List Event) : wordsSent (.send w :: es) = w :: wordsSent es := rfl
@[simp] theorem wordsSent_take (es : List Event) : wordsSent (.take :: es) = wordsSent es := rfl

end Sys2Proof.Machine
end

