-- ==== Sys2Proof/Machine/Assembler.lean ====
section
/-! DEFINITION. The assembler of R95 and the pseudo-instructions of R96, on operands that have been read as numbers: which
numbers an operand may be, and the command words. The core executes words alone; this is host software. -/

namespace Sys2Proof.Machine

/-- A line of R95, with its operands as the numbers written: `cls`, `comp`, `t` and `reg` have the numbers of their names. -/
inductive Source where
  | nop
  | init
  | csc (r g b : Int)
  | qld (cls n raw : Int)
  | zrd (k : Int)
  | dcp (comp dc : Int)
  | vli (v : Int)
  | hlk (t sym : Int)
  | enc (comp : Int)
  | rdreg (reg : Int)
deriving DecidableEq, Repr

/-- A field of `w` bits that holds the numbers `0` to `2 ^ w - 1`; any other number is an assembly error (R95). -/
def unsignedField (w : Nat) (x : Int) : Option (BitVec w) :=
  if 0 ≤ x ∧ x < 2 ^ w then some (BitVec.ofInt w x) else none

/-- A 16-bit two's-complement field; a number outside -32768..32767 is an assembly error (R95). -/
def signedField (x : Int) : Option Half := if -32768 ≤ x ∧ x ≤ 32767 then some (BitVec.ofInt 16 x) else none

/-- `raw` of an operand written `=x`, where `x` is `num / den`: `16 * x`, which must be an integer (R95). -/
def rawOfFraction (num : Int) (den : Nat) : Option Int :=
  if 0 < den ∧ 16 * num % den = 0 then some (16 * num / den) else none

/-- `n` of an operand written `(r,c)`: `8 * r + c`, with `r` and `c` in 0..7 (R75, R95). -/
def naturalIndex (r c : Int) : Option Int :=
  if 0 ≤ r ∧ r ≤ 7 ∧ 0 ≤ c ∧ c ≤ 7 then some (8 * r + c) else none

/-- The fields of a line, or `none` for an assembly error: no word is produced (R95). A reserved value that the field can hold
is accepted (R95). -/
def Source.fields : Source → Option Instr
  | .nop => some .nop
  | .init => some .init
  | .csc r g b =>
    match unsignedField 8 r, unsignedField 8 g, unsignedField 8 b with
    | some r, some g, some b => some (.csc r g b)
    | _, _, _ => none
  | .qld cls n raw =>
    match unsignedField 2 cls, unsignedField 6 n, signedField raw with
    | some cls, some n, some raw => some (.qld cls n raw)
    | _, _, _ => none
  | .zrd k => (unsignedField 6 k).map .zrd
  | .dcp comp dc =>
    match unsignedField 2 comp, signedField dc with
    | some comp, some dc => some (.dcp comp dc)
    | _, _ => none
  | .vli v => (signedField v).map .vli
  | .hlk t sym =>
    match unsignedField 2 t, unsignedField 8 sym with
    | some t, some sym => some (.hlk t sym)
    | _, _ => none
  | .enc comp => (unsignedField 2 comp).map .enc
  | .rdreg reg => (unsignedField 8 reg).map .rdreg

/-- The word of a line (R95). -/
def Source.word (x : Source) : Option Word := x.fields.map encode

/-- `LDBLK cls, d0, ..., d63`: one QLD for each natural index, in order (R96). -/
def loadBlock (cls : Int) (d : Vector Int 64) : List Source :=
  (List.finRange 64).map fun n => .qld cls n.val d[n]

/-- The class of the block of a component in `ENCBLK`: luma for Y, chroma for Cb and Cr (R96). For the reserved component
3, which R96 does not name, chroma: DESIGN CHOICE (log entry 17), safe. -/
def blockClass (comp : Int) : Int := if comp = 0 then 0 else 1

/-- `ENCBLK comp, d0, ..., d63` (R96). -/
def encodeBlock (comp : Int) (d : Vector Int 64) : List Source := loadBlock (blockClass comp) d ++ [.enc comp]

/-- `MCU y0..y63, cb0..cb63, cr0..cr63` (R96). -/
def encodeMcu (y cb cr : Vector Int 64) : List Source := encodeBlock 0 y ++ encodeBlock 1 cb ++ encodeBlock 2 cr

/-- `RDSTAT` (R96). -/
def readStatus : List Source := [.rdreg 0]

end Sys2Proof.Machine
end

