-- ==== Sys2Proof/Tests/Slice0.lean ====
section
/-! SUPPORT. Small checks of the model against spec/95_test_vectors.md and the worked examples of the rules, one step each, and
for every statement with hypotheses a state and operands that meet them. -/

namespace Sys2Proof.Tests

open Sys2Proof.Machine

/-! ## Helpers -/

/-- OUT after an outcome. -/
def outOf : Host.Outcome State Fault Refusal → List Word
  | .next t => t.out
  | .fault _ => []
  | .refused _ => []

/-- A test of the state after an outcome; false where there is none. -/
def holds (p : State → Bool) : Host.Outcome State Fault Refusal → Bool
  | .next t => p t
  | .fault _ => false
  | .refused _ => false

/-- Reset with one tie rule. -/
def tied (rule : TieRule) : State := State.resetWith { defaultConfig with rndTies := rule }

/-- Reset, with a full buffer that holds `v` at the zigzag position `k` and 0 elsewhere. -/
def blockWith (k : Fin 64) (v : Half) : State :=
  { State.reset with
    regs := { Regs.reset with qbuf := (Vector.replicate 64 0).set k v, loaded := BitVec.allOnes 64 } }

/-- The fault state, with cause 4. -/
def faultState : State := { State.reset with regs := { Regs.reset with mode := .fault, cause := 4 } }

/-- Reset with words on CMD. -/
def withCmd (ws : List Word) : State := { State.reset with cmd := ws }

/-- An OUT of two words that holds `n` words. -/
def bounded (n : Nat) : State :=
  { State.resetWith { defaultConfig with outDepth := some 2 } with out := List.replicate n 0x90000000#32 }

/-- A core that waits with two words to emit, on an OUT of two words that holds `n`. -/
def waiting (n : Nat) : State := { bounded n with inflight := some ⟨[0x8005001E#32, 0x8A04000A#32], Regs.reset⟩ }

/-! ## Well-formedness and decoding -/

theorem test_wellFormed_refuses_reserved_registers :
    (Instr.rdreg 7).wellFormed = false ∧ (Instr.rdreg 255).wellFormed = false ∧ (Instr.rdreg 6).wellFormed = true := by
  decide

-- The words are the patterns of R73 to R81, written field by field.
theorem test_decode_nop : decode 0b0000_0000000000000000000000000000#32 = .ok .nop := by decide
theorem test_decode_init : decode 0b0001_0000000000000000000000000000#32 = .ok .init := by decide
theorem test_decode_csc : decode 0b0010_0000_11111111_00000000_00000001#32 = .ok (.csc 255 0 1) := by decide
theorem test_decode_qld : decode 0b0011_00_000001_0000_0000000010110000#32 = .ok (.qld 0 1 176) := by decide
theorem test_decode_zrd : decode 0b0100_0000000000000000000000_100000#32 = .ok (.zrd 32) := by decide
theorem test_decode_dcp : decode 0b0101_01_0000000000_1111111111111011#32 = .ok (.dcp 1 (-5)) := by decide
theorem test_decode_vli : decode 0b0110_000000000000_1000000000000000#32 = .ok (.vli (-32768)) := by decide
theorem test_decode_hlk : decode 0b0111_11_000000000000000000_11111010#32 = .ok (.hlk 3 0xFA) := by decide
theorem test_decode_enc : decode 0b1000_10_00000000000000000000000000#32 = .ok (.enc 2) := by decide
theorem test_decode_rdreg : decode 0b1001_00000000000000000000_00000101#32 = .ok (.rdreg 5) := by decide

/-- The words of 95_test_vectors.md section 2 that fault as ILLEGAL_COMMAND. -/
theorem test_illegal_words :
    [0x00000001#32, 0x10000001, 0x21000000, 0x30010000, 0x40000040, 0x50010000, 0x60010000, 0x70000100, 0x70400000,
      0x80000001, 0x90000007, 0x900000FF, 0x90000100, 0xA0000000, 0xF0000000].all
      (fun w => match decode w with | .ok _ => false | .error _ => true) = true := by decide

theorem test_table_word : decodeTableWord 32 0x301000B0 = some (.qld 0 1 176) := by decide

theorem test_fetch_word : outOf (step (State.reset.withFetchWord 32 0x50007FFF)) = [0x50007FFF] := by decide

theorem test_encode_p4 : encode (.qld 0 63 (-1584)) = 0x33F0F9D0 ∧ encode (.dcp 2 (-32768)) = 0x58008000 := by decide

/-! ## One step of each command, with the values of spec/95_test_vectors.md -/

theorem test_nop : holds (fun t => t.out.isEmpty && t.regs == Regs.reset) (step (withCmd [0])) = true := by decide

theorem test_init_in_fault_mode : holds (fun t => t.cleanEntry && t.out.isEmpty) (exec .init faultState) = true := by decide

theorem test_csc_gray : outOf (exec (.csc 128 128 128) State.reset) = [0x20808080] := by decide

/-- R103 and program P3: ties of Y and Cb. -/
theorem test_csc_ties :
    outOf (exec (.csc 0 0 1) (tied .halfEven)) = [0x20008080] ∧ outOf (exec (.csc 0 0 1) (tied .halfAway)) = [0x20008180] ∧
      outOf (exec (.csc 255 0 0) State.reset) = [0x204C55FF] := by decide

/-- R120: `QLD luma, 0, 16384` stores 64. -/
theorem test_qld_dc :
    holds (fun t => t.regs.coef 0 == 64 && t.regs.loaded == 1#64 && t.out.isEmpty) (exec (.qld 0 0 16384) State.reset) = true := by
  decide

/-- Program P5: a quotient of -1.5 under the three tie rules. -/
theorem test_qld_ties :
    (holds (fun t => t.regs.coef 0 == -2) (exec (.qld 0 0 (-384)) (tied .halfEven)) &&
      holds (fun t => t.regs.coef 0 == -2) (exec (.qld 0 0 (-384)) (tied .halfAway)) &&
      holds (fun t => t.regs.coef 0 == -1) (exec (.qld 0 0 (-384)) (tied .halfUp))) = true := by decide

/-- R128: after `QLD luma, 0, 16384`, `ZRD 0` emits 0x40400040. -/
theorem test_zrd_loaded : outOf (exec (.zrd 0) (blockWith 0 64)) = [0x40400040] := by decide

/-- Program P4: `ZRD 63` of the value -1. -/
theorem test_zrd_last : outOf (exec (.zrd 63) (blockWith 63 (-1))) = [0x407FFFFF] := by decide

/-- 95, section 2.3: the largest difference. -/
theorem test_dcp_largest_difference :
    outOf (exec (.dcp 2 32767) { State.reset with regs := { Regs.reset with predCr := -32768 } }) = [0x5000FFFF] := by decide

theorem test_dcp_invalid_component : outOf (exec (.dcp 3 0) State.reset) = [0xF0000003] := by decide

theorem test_vli_negative : outOf (exec (.vli (-3)) State.reset) = [0x60020000] := by decide

theorem test_vli_extremes :
    outOf (exec (.vli (-32768)) State.reset) = [0x60107FFF] ∧ outOf (exec (.vli 0) State.reset) = [0x60000000] := by decide

theorem test_hlk_eob : outOf (exec (.hlk 2 0x00) State.reset) = [0x7004000A] := by decide

theorem test_hlk_longest_and_none :
    outOf (exec (.hlk 3 0xFA) State.reset) = [0x7010FFFE] ∧ outOf (exec (.hlk 0 12) State.reset) = [0xF0000004] := by decide

/-- 95, section 2.6, vector 43-3 for Y: three ZRL and no EOB. -/
theorem test_enc_zrl :
    outOf (exec (.enc 0) (blockWith 63 1)) =
      [0x80020000, 0x880B07F9, 0x880B07F9, 0x880B07F9, 0x8410FFEB, 0x86010001] := by decide

/-- R220: the solid gray block, as Y and as Cb. -/
theorem test_enc_gray :
    outOf (exec (.enc 0) (blockWith 0 64)) = [0x8005001E, 0x82070040, 0x8A04000A] ∧
      outOf (exec (.enc 1) (blockWith 0 60)) = [0x8006003E, 0x8206003C, 0x8A020000] := by decide

/-- R252, 95 section 2.7: a predictor of -4 is not sign-extended; load bits 0, 24, 47, 48, 63. -/
theorem test_rdreg_values :
    outOf (exec (.rdreg 1) { State.reset with regs := { Regs.reset with predY := -4 } }) = [0x9100FFFC] ∧
      outOf (exec (.rdreg 5) { State.reset with regs := { Regs.reset with loaded := 0x8001800001000001#64 } }) = [0x95800001] := by
  decide

/-- Program P2, commands 67 and 71: the fault keeps the load bits, and STATUS shows it. -/
theorem test_fault_state_status :
    outOf (exec (.enc 0) { blockWith 0 64 with regs := { (blockWith 0 64).regs with predY := 32767 } }) = [0xF0000004] ∧
      outOf (exec (.rdreg 0) { blockWith 0 64 with regs := { (blockWith 0 64).regs with mode := .fault, cause := 4 } }) =
        [0x90000034] := by decide

/-! ## Runs -/

/-- R317: a run whose FLT word the host has taken, and which an INIT has put back into RUN mode, is not successful. -/
theorem test_run_with_a_taken_fault :
    successfulRun State.reset [.send 0xA0000000, .step, .take, .send 0x10000000, .step] = false ∧
      successfulRun State.reset [.send 0x90000000, .step, .take, .send 0x10000000, .step] = true := by decide +kernel

/-- R318: an FLT word that an earlier run has left on OUT does not count. -/
theorem test_run_after_a_fault :
    successfulRun { State.reset with out := [0xF0000001] } [.send 0x90000000, .step] = true := by decide +kernel

/-! ## Units and tables -/

/-- 43_ac_run_encoder.md section 3, vectors 43-4, 43-7 and 43-11. -/
theorem test_ac_symbols :
    acSymbols ((List.replicate 63 0).set 16 3) = [.zrl, .rc 0 2 3, .eob] ∧
      acSymbols ((List.replicate 63 0).set 32 1) = [.zrl, .zrl, .rc 0 1 1, .eob] ∧
      acSymbols (((List.replicate 63 0).set 0 1).set 62 (-1)) = [.rc 0 1 1, .zrl, .zrl, .zrl, .rc 13 1 (-1)] := by decide

/-- R16's own examples. -/
theorem test_rounding :
    roundT .halfEven 57 2 = 28 ∧ roundT .halfAway 57 2 = 29 ∧ roundT .halfEven (-3) 2 = -2 ∧ roundT .halfUp (-3) 2 = -1 := by
  decide

/-- R201: the lengths of the listed codes are the BITS lists. -/
theorem test_default_lengths :
    lengthCounts defaultDcLuma = bitsDcLuma ∧ lengthCounts defaultDcChroma = bitsDcChroma ∧
      lengthCounts defaultAcLuma = bitsAcLuma ∧ lengthCounts defaultAcChroma = bitsAcChroma := by decide +kernel

/-- The default configuration describes an instance (R8 to R10, R196). -/
theorem test_default_admissible : admissible defaultConfig = true := by decide +kernel

/-- R53, and program P3's word of `DCP Y, 64`. -/
theorem test_bytes : wordsOfBytes [0x50, 0x00, 0x00, 0x40, 0x10] = ([0x50000040], [0x10]) := by decide

/-- R95: an operand out of range is no word; a reserved value that fits is; `=-99.0` is -1584. -/
theorem test_assembler :
    (Source.csc 256 0 0).word = none ∧ (Source.rdreg 9).word = some 0x90000009 ∧
      (Source.qld 0 63 (-1584)).word = some 0x33F0F9D0 ∧ rawOfFraction (-990) 10 = some (-1584) ∧ rawOfFraction 1 32 = none := by
  decide

/-- R96: `MCU` is 195 words. -/
theorem test_mcu_length :
    (encodeMcu (Vector.replicate 64 0) (Vector.replicate 64 0) (Vector.replicate 64 0)).length = 195 := by
  simp [encodeMcu, encodeBlock, loadBlock]

/-! ## Witnesses: for each statement with hypotheses, a state and operands that meet all of them, for each clause -/

theorem witness_DecoderFollowsItsTable :
    ([0x00000000#32, 0x10000000, 0x2FFFFFFF, 0x3FFFFFFF, 0x4FFFFFFF, 0x5FFFFFFF, 0x6FFFFFFF, 0x7FFFFFFF, 0x8FFFFFFF].map
      fun w => (w.extractLsb' 28 4).toNat) = [0, 1, 2, 3, 4, 5, 6, 7, 8] ∧
    ((0x90000006#32).extractLsb' 8 20 = 0 ∧ (0x90000006#32).extractLsb' 0 8 ≤ 6) ∧
    ((0x90000007#32).extractLsb' 8 20 = 0 ∧ ¬ (0x90000007#32).extractLsb' 0 8 ≤ 6) ∧
    (0x90000100#32).extractLsb' 8 20 ≠ 0 ∧
    10 ≤ ((0xA0000000#32).extractLsb' 28 4).toNat ∧ 10 ≤ ((0xFFFFFFFF#32).extractLsb' 28 4).toNat ∧
    decode 0xA0000000 = .error (.reservedOpcode 0xA) ∧
    State.reset.regs.mode = .run ∧ State.reset.inflight = none ∧ State.reset.hasRoom 1 = true ∧ (bounded 1).hasRoom 1 = true ∧
    faultState.regs.mode = .fault ∧ faultState.inflight = none := by decide

theorem witness_DecodeOfEncodeIsTheCommand : (Instr.rdreg 6).wellFormed = true ∧ (Instr.qld 3 63 0xFFFF).wellFormed = true := by
  decide

theorem witness_EncodeOfDecodeIsTheWord : decode 0x90000006 = .ok (.rdreg 6) ∧ decode 0x3FF0FFFF = .ok (.qld 3 63 (-1)) := by
  decide

theorem witness_StepRunsTheDecodedCommand :
    (withCmd [0x90000000]).inflight = none ∧ (withCmd [0x90000000]).cmd = 0x90000000 :: [] ∧
      decode 0x90000000 = .ok (.rdreg 0) := by decide

theorem witness_WaitsChangeNothing :
    (State.reset.inflight = none ∧ State.reset.cmd = []) ∧
    ((waiting 2).inflight = some ⟨[0x8005001E, 0x8A04000A], Regs.reset⟩ ∧ (waiting 2).cfg.outDepth = some 2 ∧
      (waiting 2).out.length = 2) ∧
    (waiting 0).hasRoom 2 = true ∧ ((waiting 1).out.length < 2 ∧ 2 < (waiting 1).out.length + 2) ∧
    ∃ t, step (waiting 1) = .next t := by
  refine ⟨by decide, ⟨rfl, rfl, by decide⟩, by decide, by decide, _, rfl⟩

theorem witness_OneStepCompletesOneCommand :
    (withCmd [0x80000000]).cfg.outDepth = none ∧ (withCmd [0x80000000]).inflight = none ∧
      (withCmd [0x80000000]).cmd = 0x80000000 :: [] := by decide

theorem witness_RunEndsAfterItsWords :
    ((withCmd [0x10000000, 0xA0000000]).cfg.outDepth = none ∧ (withCmd [0x10000000, 0xA0000000]).inflight = none) ∧
    ∃ t u ws vs,
      runEvents [.send 0xA0000000, .send 0x90000000, .step, .take, .step] (bounded 0) = .next (t, ws) ∧
      runEvents [.send 0xA0000000, .step, .take, .step, .take, .send 0x90000000, .step]
        { bounded 0 with out := [0xF0000001, 0xF0000002] } = .next (u, vs) ∧
      wordsSent [.send 0xA0000000, .send 0x90000000, .step, .take, .step] =
        wordsSent [.send 0xA0000000, .step, .take, .step, .take, .send 0x90000000, .step] ∧
      t.ended = true ∧ u.ended = true ∧ vs = [0xF0000001, 0x90000011] :=
  ⟨by decide, _, _, _, _, rfl, rfl, by decide, by decide, by decide, by decide⟩

theorem witness_BoundedOutRefinesUnboundedOut :
    (∃ t, step (waiting 1) = .next t) ∧ (waiting 1).inflight ≠ none ∧ (bounded 1).inflight = none ∧
      (∃ t, step (bounded 1) = .next t) ∧ ∃ w u, (waiting 1).hostTake = some (w, u) :=
  ⟨⟨_, rfl⟩, by decide, by decide, ⟨_, rfl⟩, _, _, rfl⟩

theorem witness_StepKeepsConfigurationAndEmittedWords : ∃ t, step (waiting 1) = .next t := ⟨_, rfl⟩

theorem witness_StepKeepsLegalStates :
    ((waiting 1).legal = true ∧ ∃ t, step (waiting 1) = .next t) ∧
      (faultState.legal = true ∧ ∃ t, step faultState = .next t) :=
  ⟨⟨by decide, _, rfl⟩, by decide, _, rfl⟩

theorem witness_HostActionsKeepLegalStates :
    (waiting 2).legal = true ∧ (waiting 2).resultsOk = true ∧ ∃ w t, (waiting 2).hostTake = some (w, t) :=
  ⟨by decide, by decide, _, _, rfl⟩

theorem witness_StepKeepsResultWordsWellFormed :
    admissible State.reset.cfg = true ∧ (withCmd [0x90000000]).resultsOk = true ∧
      ∃ t, step (withCmd [0x90000000]) = .next t :=
  ⟨test_default_admissible, by decide, _, rfl⟩

theorem witness_OnlyInitLeavesTheFaultState :
    faultState.legal = true ∧ faultState.regs.mode = .fault ∧
      ∃ t, step { faultState with cmd := [0x10000000] } = .next t ∧ t.regs.mode = .run :=
  ⟨by decide, by decide, _, rfl, by decide⟩

theorem witness_EveryFaultEmitsOneFltWord :
    State.reset.cfg.outDepth = none ∧ State.reset.inflight = none ∧
      (∃ t, exec (.dcp 3 0) State.reset = .next t) ∧ (∃ t, exec (.vli 1) State.reset = .next t) ∧
      (∃ t, step (withCmd [0xA0000000]) = .next t ∧ t.regs.mode = .fault) ∧ ∃ t, step State.reset = .next t :=
  ⟨by decide, by decide, ⟨_, rfl⟩, ⟨_, rfl⟩, ⟨_, rfl, by decide⟩, _, rfl⟩

/-- Every cause of every command that has one (R274). -/
theorem witness_FaultsOfEachCommand :
    State.reset.regs.mode = .run ∧
    ([.qld 2 0 0, .qld 3 63 0, .dcp 3 0, .hlk 0 12, .enc 3, .enc 0, .rdreg 7].all
      fun i => holds (fun t => t.regs.mode == .fault) (exec i State.reset)) = true ∧
    holds (fun t => t.regs.mode == .fault) (exec (.enc 2) (blockWith 1 (-1024))) = true := by decide

theorem witness_FaultStateDiscardsCommands :
    faultState.regs.mode = .fault ∧ Instr.nop ≠ .init ∧ faultState.regs.register 6 = some 0 ∧
      faultState.inflight = none ∧ decode 0xA0000000 = .error (.reservedOpcode 0xA) := by decide

theorem witness_RegistersChangeOnlyByTheirCommands :
    (∃ t, exec (.qld 0 1 176) State.reset = .next t ∧ State.reset.regs.isLoaded 1 = false ∧ t.regs.isLoaded 1 = true) ∧
    (∃ t, exec (.enc 0) (blockWith 0 64) = .next t ∧ (blockWith 0 64).regs.isLoaded 1 = true ∧ t.regs.isLoaded 1 = false) :=
  ⟨⟨_, rfl, by decide, by decide⟩, _, rfl, by decide, by decide⟩

/-- Two different states that agree on all that can be observed. -/
theorem witness_UnloadedEntriesAreNeverObserved :
    State.reset.agrees { State.reset with regs := { Regs.reset with qbuf := Vector.replicate 64 1 } } ∧
      State.reset ≠ { State.reset with regs := { Regs.reset with qbuf := Vector.replicate 64 1 } } ∧
      ∃ t, step State.reset = .next t := by
  refine ⟨⟨rfl, ⟨rfl, rfl, rfl, rfl, rfl, rfl, ?_⟩, rfl, rfl, trivial, rfl⟩, ?_, _, rfl⟩
  · decide
  · intro h
    have := congrArg (fun s : State => s.regs.qbuf[0]) h
    revert this
    decide

theorem witness_RoundingIsToNearestWithTiesByRule :
    (0 : Int) < 2 ∧ 2 * ((57 : Int) % 2) = 2 ∧ 2 * ((-3 : Int) % 2) = 2 ∧ 2 * ((4 : Int) % 2) ≠ 2 ∧
      2 * |(4 : Int) - 2 * 2| ≤ 2 ∧ (0 : Int) ≤ 0 := by decide

theorem witness_CategoryBoundsTheMagnitude :
    1 ≤ (16 : Nat) ∧ category (-32768) = 16 ∧ category 1 = 1 ∧ category 0 = 0 := by decide

theorem witness_ValueBitsRoundTrip : (0 : Int) ≤ 0 ∧ (-1 : Int) < 0 ∧ (0 : Int) < 1 := by decide

theorem witness_CscEmitsTheConvertedPixel :
    State.reset.inflight = none ∧ State.reset.regs.mode = .run ∧ State.reset.hasRoom 1 = true ∧ (bounded 1).hasRoom 1 = true ∧
      (bounded 1).regs.mode = .run ∧ (bounded 1).inflight = none ∧
      faultState.regs.mode = .fault ∧ faultState.inflight = none ∧
      (0x21000000#32).extractLsb' 28 4 = 2 ∧ (0x21000000#32).extractLsb' 24 4 ≠ 0 := by decide

-- Both classes, an invalid class with no room needed by the first two, FAULT mode, and an illegal word.
theorem witness_QldQuantizesIntoItsZigzagEntry :
    State.reset.inflight = none ∧ State.reset.regs.mode = .run ∧ (bounded 2).regs.mode = .run ∧ (bounded 2).inflight = none ∧
      State.reset.hasRoom 1 = true ∧ faultState.regs.mode = .fault ∧ faultState.inflight = none ∧
      (0x30010000#32).extractLsb' 28 4 = 3 ∧ (0x30010000#32).extractLsb' 16 4 ≠ 0 := by decide

theorem witness_QuantizedValuesFit :
    1 ≤ (qrom defaultConfig .luma 0).toNat ∧
      1 ≤ (qrom { defaultConfig with qtabChroma := Vector.replicate 64 1 } .chroma 63).toNat := by decide

theorem witness_QldThenZrdReadsTheEntry :
    classOf 1 = some .chroma ∧ State.reset.regs.mode = .run ∧ State.reset.inflight = none ∧
      ∃ t, exec (.qld 1 63 (-32768)) State.reset = .next t ∧ t.hasRoom 1 = true ∧
        ∃ u, exec (.qld 1 63 0) t = .next u :=
  ⟨by decide, by decide, by decide, _, rfl, by decide, _, rfl⟩

theorem witness_ZrdEmitsTheEntry :
    (blockWith 0 64).inflight = none ∧ (blockWith 0 64).regs.mode = .run ∧ (blockWith 0 64).hasRoom 1 = true ∧
      (blockWith 0 64).regs.isLoaded 63 = true ∧ State.reset.regs.isLoaded 63 = false ∧ State.reset.hasRoom 1 = true ∧
      faultState.regs.mode = .fault ∧ faultState.inflight = none ∧
      (0x40000040#32).extractLsb' 28 4 = 4 ∧ (0x40000040#32).extractLsb' 6 22 ≠ 0 := by decide

theorem witness_BlockOfQldsIsZigzagOfQuantize :
    classOf 0 = some .luma ∧ State.reset.regs.mode = .run ∧ State.reset.inflight = none ∧
      ∀ n : Index, n ∈ (List.finRange 64).map BitVec.ofFin := by
  refine ⟨by decide, by decide, by decide, fun n => ?_⟩
  exact List.mem_map.2 ⟨n.toFin, List.mem_finRange _, rfl⟩

theorem witness_DcpEmitsTheDifference :
    State.reset.inflight = none ∧ State.reset.regs.mode = .run ∧ State.reset.hasRoom 1 = true ∧ (bounded 1).hasRoom 1 = true ∧
      faultState.regs.mode = .fault ∧ faultState.inflight = none ∧
      (0x50010000#32).extractLsb' 28 4 = 5 ∧ (0x50010000#32).extractLsb' 16 10 ≠ 0 := by decide

theorem witness_DcDifferencesSumToTheDcValues :
    componentOf 2 = some .cr ∧ State.reset.regs.mode = .run ∧ State.reset.inflight = none ∧
      State.reset.cfg.outDepth = none ∧ State.reset.regs.pred .cr = 0 ∧ 1 < [(-32768 : Half), 32767].length := by decide

theorem witness_VliEmitsCategoryAndValueBits :
    State.reset.inflight = none ∧ State.reset.regs.mode = .run ∧ State.reset.hasRoom 1 = true ∧
      0 ≤ (0 : Half).toInt ∧ (-32768 : Half).toInt < 0 ∧
      faultState.regs.mode = .fault ∧ faultState.inflight = none ∧
      (0x60010000#32).extractLsb' 28 4 = 6 ∧ (0x60010000#32).extractLsb' 16 12 ≠ 0 := by decide

theorem witness_HlkEmitsTheCode :
    State.reset.inflight = none ∧ State.reset.regs.mode = .run ∧ State.reset.hasRoom 1 = true ∧
      hrom State.reset.cfg .dcLuma 11 = some ⟨9, 0b111111110⟩ ∧ hrom State.reset.cfg .dcLuma 12 = none ∧
      hrom State.reset.cfg .dcChroma 0 = some ⟨2, 0⟩ ∧ hrom State.reset.cfg .acLuma 0x0B = none ∧
      hrom State.reset.cfg .acChroma 0xFA = some ⟨16, 0xFFFE⟩ ∧
      faultState.regs.mode = .fault ∧ faultState.inflight = none ∧
      (0x70000100#32).extractLsb' 28 4 = 7 ∧ (0x70000100#32).extractLsb' 8 18 ≠ 0 := by decide

theorem witness_AdmissibleTablesArePrefixFree :
    admissible defaultConfig = true ∧ hrom defaultConfig .dcLuma 0 = some ⟨2, 0⟩ ∧
      hrom defaultConfig .dcLuma 11 = some ⟨9, 0b111111110⟩ ∧ (2 : Nat) ≤ 9 ∧
      hrom defaultConfig .acLuma 0xF0 = some ⟨11, 0b11111111001⟩ :=
  ⟨test_default_admissible, by decide, by decide, by decide, by decide⟩

/-- A small configuration: every divisor is 1, and the DC-luma table has the codes `0` and `10`. -/
def smallConfig : Config where
  qtabLuma     := Vector.replicate 64 1
  qtabChroma   := Vector.replicate 64 255
  huffDcLuma   := [row 0 1 0b0, row 11 2 0b10]
  huffDcChroma := []
  huffAcLuma   := []
  huffAcChroma := []
  rndTies      := .halfUp
  outDepth     := some 1

/-- The entries of the small configuration, by symbol. -/
theorem smallConfig_hrom {t : TableId} {s : Byte} {e : BitString} (h : hrom smallConfig t s = some e) :
    t = .dcLuma ∧ ((s = 0 ∧ e = ⟨1, 0⟩) ∨ (s = 11 ∧ e = ⟨2, 2⟩)) := by
  have all : ∀ s : Byte, hrom smallConfig .dcLuma s = if s = 0 then some ⟨1, 0⟩ else if s = 11 then some ⟨2, 2⟩ else none := by
    decide +kernel
  cases t with
  | dcLuma =>
    rw [all] at h
    split at h
    · exact ⟨rfl, .inl ⟨‹_›, (Option.some.inj h).symm⟩⟩
    · split at h
      · exact ⟨rfl, .inr ⟨‹_›, (Option.some.inj h).symm⟩⟩
      · cases h
  | dcChroma => cases h
  | acLuma => cases h
  | acChroma => cases h

theorem witness_LaunchRefusesInadmissibleConfigurations : Describes smallConfig where
  matrices := by decide
  depth := by decide
  listed := by intro t; cases t <;> decide
  codes := by
    intro t s e h
    obtain ⟨_, ⟨_, rfl⟩ | ⟨_, rfl⟩⟩ := smallConfig_hrom h <;> decide
  prefixes := by
    intro t s u e f h g hne hle
    obtain ⟨_, ⟨rfl, rfl⟩ | ⟨rfl, rfl⟩⟩ := smallConfig_hrom h <;>
      obtain ⟨_, ⟨rfl, rfl⟩ | ⟨rfl, rfl⟩⟩ := smallConfig_hrom g <;> first | exact absurd rfl hne | (revert hle; decide)
  dcSymbols := by
    intro t s e _ h
    obtain ⟨_, ⟨rfl, _⟩ | ⟨rfl, _⟩⟩ := smallConfig_hrom h <;> decide
  acSymbols := by
    intro t s e ht h
    obtain ⟨rfl, _⟩ := smallConfig_hrom h
    rcases ht with ht | ht <;> cases ht

/-- One configuration outside each clause: a chroma entry 0, an OUT of no word, a symbol listed twice, a code of 17 bits, a
code that is the prefix of another, a DC symbol 12, an AC symbol of category 11. -/
theorem witness_LaunchRefusesInadmissibleConfigurations_not :
    (¬ Describes { smallConfig with qtabChroma := Vector.replicate 64 0 }) ∧
    (¬ Describes { smallConfig with outDepth := some 0 }) ∧
    (¬ Describes { smallConfig with huffDcLuma := [row 0 1 0, row 0 2 2] }) ∧
    (¬ Describes { smallConfig with huffAcChroma := [row 0 17 0] }) ∧
    (¬ Describes { smallConfig with huffAcLuma := [row 0 1 0, row 1 2 1] }) ∧
    (¬ Describes { smallConfig with huffDcChroma := [row 12 1 0] }) ∧
    (¬ Describes { smallConfig with huffAcLuma := [row 0x0B 1 0] }) := by
  refine ⟨fun h => ?_, fun h => h.depth rfl, fun h => ?_, fun h => ?_, fun h => ?_, fun h => ?_, fun h => ?_⟩
  · exact absurd (h.matrices 0).2 (by decide)
  · exact absurd (h.listed .dcLuma) (by decide)
  · exact absurd (h.codes .acChroma 0 ⟨17, 0⟩ (by decide)).2.1 (by decide)
  · exact h.prefixes .acLuma 0 1 ⟨1, 0⟩ ⟨2, 1⟩ (by decide) (by decide) (by decide) (by decide) (by decide)
  · exact absurd (h.dcSymbols .dcChroma 12 ⟨1, 0⟩ (.inr rfl) (by decide)) (by decide)
  · exact absurd (h.acSymbols .acLuma 0x0B ⟨1, 0⟩ (.inl rfl) (by decide)) (by decide)

/-- `launch` does refuse them, and starts the small configuration. -/
theorem test_launch :
    (match launch smallConfig with | .next t => t.cfg == smallConfig | .fault _ => false | .refused _ => false) = true ∧
    admissible { smallConfig with huffAcLuma := [row 0 1 0, row 1 2 1] } = false ∧
    admissible { smallConfig with qtabChroma := Vector.replicate 64 0 } = false := by decide +kernel

theorem witness_DefaultTablesAreCanonical : row 0x00 2 0b00 ∈ huff defaultConfig .dcLuma := by decide

theorem witness_AcExpandUndoesAcSymbols : ((List.replicate 63 0).set 62 (1 : Int)).length = 63 := by decide

theorem witness_AcSymbolListBounds :
    ((List.replicate 63 0).set 62 (1 : Int)).length = 63 ∧
      .rc 14 1 1 ∈ acSymbols ((List.replicate 63 0).set 62 (1 : Int)) ∧ (∀ v ∈ List.replicate 63 (0 : Int), v = 0) ∧
      acSymbols ((List.replicate 63 0).set 62 (1 : Int)) = [.zrl, .zrl] ++ .zrl :: .rc 14 1 1 :: [] ∧
      ((List.replicate 63 0).set 62 (1 : Int)).getLast? ≠ some 0 := by decide

theorem witness_EncCompletesABlock :
    (blockWith 0 64).regs.mode = .run ∧ (blockWith 0 64).inflight = none ∧
      (∀ k : Index, (blockWith 0 64).regs.isLoaded k = true) ∧
      (blockTokens (blockWith 0 64).cfg .y (blockWith 0 64).regs).2 = true ∧ (blockWith 0 64).hasRoom 3 = true ∧
      (blockTokens (blockWith 0 64).cfg .y (blockWith 0 64).regs).1.length = 3 := by decide

theorem witness_EncChecksComponentThenBlock :
    State.reset.inflight = none ∧ State.reset.regs.mode = .run ∧ State.reset.hasRoom 1 = true ∧
      (∃ k : Index, State.reset.regs.isLoaded k = false) ∧ (2 : BitVec 2) ≠ 3 ∧
      faultState.regs.mode = .fault ∧ faultState.inflight = none ∧
      (0x80000001#32).extractLsb' 28 4 = 8 ∧ (0x80000001#32).extractLsb' 0 26 ≠ 0 :=
  ⟨by decide, by decide, by decide, ⟨63, by decide⟩, by decide, by decide, by decide, by decide, by decide⟩

/-- Vector 43-9: category 11 has no AC symbol; one token stands before it. -/
theorem witness_EncUnknownSymbolLeavesAPartOfItsTokens :
    componentOf 0 = some .y ∧ (blockWith 1 (-1024)).regs.mode = .run ∧ (blockWith 1 (-1024)).inflight = none ∧
      (∀ k : Index, (blockWith 1 (-1024)).regs.isLoaded k = true) ∧
      blockTokens (blockWith 1 (-1024)).cfg .y (blockWith 1 (-1024)).regs = ([⟨.dcCode, ⟨2, 0⟩⟩], false) ∧
      (blockWith 1 (-1024)).hasRoom 2 = true := by decide

theorem witness_TokensFollowTheSymbolOrder :
    blockTokens defaultConfig .y (blockWith 0 64).regs =
      ([⟨.dcCode, ⟨5, 0b11110⟩⟩, ⟨.dcValue, ⟨7, 64⟩⟩, ⟨.eob, ⟨4, 0b1010⟩⟩], true) := by decide

/-- A block whose DC symbol has no code, and one whose second AC item has none (category 11 after a coefficient 5). -/
theorem witness_TokensFollowTheSymbolOrder_without_a_code :
    blockTokens defaultConfig .y { (blockWith 0 64).regs with predY := 32767 } = ([], false) ∧
      blockTokens defaultConfig .y { (blockWith 1 5).regs with qbuf := (blockWith 1 5).regs.qbuf.set 2 (-1024) } =
        ([⟨.dcCode, ⟨2, 0⟩⟩, ⟨.acCode, ⟨3, 0b100⟩⟩, ⟨.acValue, ⟨3, 0b101⟩⟩], false) := by decide

theorem witness_EncTokenBounds :
    admissible defaultConfig = true ∧
      blockTokens defaultConfig .cb (blockWith 63 1).regs =
        ([⟨.dcCode, ⟨2, 0⟩⟩, ⟨.zrl, ⟨10, 0x3FA⟩⟩, ⟨.zrl, ⟨10, 0x3FA⟩⟩, ⟨.zrl, ⟨10, 0x3FA⟩⟩, ⟨.acCode, ⟨14, 0x3FE0⟩⟩,
          ⟨.acValue, ⟨1, 1⟩⟩], true) :=
  ⟨test_default_admissible, by decide⟩

theorem witness_EncAgreesWithDcpVliHlk :
    componentOf 0 = some .y ∧ (blockWith 0 64).regs.mode = .run ∧ (blockWith 0 64).inflight = none ∧
      (blockWith 0 64).cfg.outDepth = none ∧
      blockTokens (blockWith 0 64).cfg .y (blockWith 0 64).regs =
        ([⟨.dcCode, ⟨5, 0b11110⟩⟩, ⟨.dcValue, ⟨7, 64⟩⟩, ⟨.eob, ⟨4, 0b1010⟩⟩], true) := by decide

/-- The boundary values: a DC difference of -2047 and an AC coefficient of 1023. -/
theorem witness_EncCompletesWithDefaultTables :
    (componentOf 0 = some .y ∧ (blockWith 63 1023).regs.mode = .run ∧ (blockWith 63 1023).inflight = none ∧
      (blockWith 63 1023).cfg = defaultConfig ∧ (blockWith 63 1023).regs.full = true ∧
      |(blockWith 63 1023).regs.dc.toInt - ((blockWith 63 1023).regs.pred .y).toInt| ≤ 2047) ∧
    (∀ k : Index, k ≠ 0 → |((blockWith 63 1023).regs.coef k).toInt| ≤ 1023) ∧
    |(blockWith 0 (-2047)).regs.dc.toInt - ((blockWith 0 (-2047)).regs.pred .y).toInt| ≤ 2047 :=
  ⟨⟨by decide, by decide, by decide, rfl, by decide, by decide⟩, by decide, by decide⟩

theorem witness_BlockBitsDetermineTheBlock :
    admissible defaultConfig = true ∧ (blockTokens defaultConfig .y (blockWith 0 64).regs).2 = true ∧
      concatAll ((blockTokens defaultConfig .y (blockWith 0 64).regs).1.map Token.str) = ⟨16, 0b1111010000001010⟩ :=
  ⟨test_default_admissible, by decide, by decide⟩

theorem witness_NopDoesNothing :
    State.reset.inflight = none ∧ (0x00000001#32).extractLsb' 28 4 = 0 ∧ (0x00000001#32).extractLsb' 0 28 ≠ 0 := by decide

theorem witness_InitStartsAnEncode :
    (bounded 2).inflight = none ∧ faultState.inflight = none ∧
      (0x10000001#32).extractLsb' 28 4 = 1 ∧ (0x10000001#32).extractLsb' 0 28 ≠ 0 := by decide

theorem witness_RdregEmitsTheRegister :
    faultState.inflight = none ∧ faultState.hasRoom 1 = true ∧ (bounded 1).hasRoom 1 = true ∧
      (0x90000100#32).extractLsb' 28 4 = 9 ∧ (0x90000100#32).extractLsb' 8 20 ≠ 0 ∧
      (0x90000007#32).extractLsb' 28 4 = 9 ∧ ¬ (0x90000007#32).extractLsb' 0 8 ≤ 6 := by decide

theorem witness_ResetSetsTheResetState : (6 : Byte).toNat ≤ 6 := by decide

theorem witness_ResetAndInitDifferOnlyInStreamsAndBuffer :
    faultState.inflight = none ∧ ∃ t, exec .init faultState = .next t := ⟨by decide, _, rfl⟩

theorem witness_BytesDeliverWholeWords : [0x10#8, 0x20, 0x30].length < 4 := by decide

theorem witness_ReadOnlyCommandsFrame :
    (∃ t, exec (.rdreg 7) State.reset = .next t) ∧ (∃ t, exec (.hlk 0 12) State.reset = .next t) ∧
      ∃ t, exec (.zrd 0) (bounded 2) = .next t :=
  ⟨⟨_, rfl⟩, ⟨_, rfl⟩, _, rfl⟩

theorem witness_QldFrame :
    (∃ t, exec (.qld 1 63 5) State.reset = .next t) ∧ (classOf 1).isSome = true ∧
      (∃ t, exec (.qld 2 0 5) State.reset = .next t) ∧ (classOf 2).isNone = true ∧ (1 : Index) ≠ zzInv 63 :=
  ⟨⟨_, rfl⟩, by decide, ⟨_, rfl⟩, by decide, by decide⟩

theorem witness_DcpAndEncFrame :
    (∃ t, exec (.enc 1) (blockWith 0 60) = .next t) ∧ (∃ t, exec (.dcp 2 5) State.reset = .next t) ∧
      componentOf 2 ≠ some .y :=
  ⟨⟨_, rfl⟩, ⟨_, rfl⟩, by decide⟩

end Sys2Proof.Tests
end

