-- ==== Sys2Proof/Proofs/Rounding.lean ====
section
/-! PROOFS. `round_T` on each side of the middle and on the tie, its distance to `n / d`, and O22 (R15, R16). -/

namespace Sys2Proof.Machine

variable {T : TieRule} {n d q r : Int}

theorem fmod_eq_emod (n d : Int) : fmod n d = n % d := (Int.emod_def n d).symm

/-! Below the middle, above it, and on it. -/

theorem roundT_of_lt_middle (h : 2 * (n % d) < d) : roundT T n d = n / d := by
  simp only [roundT, fmod_eq_emod, fdiv, if_pos h]

theorem roundT_of_middle_lt (h : d < 2 * (n % d)) : roundT T n d = n / d + 1 := by
  simp only [roundT, fmod_eq_emod, fdiv, if_neg h.not_gt, if_pos h]

theorem roundT_of_tie (h : 2 * (n % d) = d) : roundT T n d = roundTie T n (n / d) := by
  simp only [roundT, fmod_eq_emod, fdiv, if_neg h.not_lt, if_neg h.not_gt]

theorem roundTie_eq_or_succ (T : TieRule) (n q : Int) : roundTie T n q = q ∨ roundTie T n q = q + 1 := by
  cases T <;> simp only [roundTie]
  case halfEven => split <;> simp
  case halfAway => split <;> simp
  case halfUp => simp

/-! What the successor of the quotient leaves of `n`; `Int.emod_def` says it of the quotient. -/

theorem sub_mul_ediv_succ (n d : Int) : n - d * (n / d + 1) = n % d - d := by
  rw [Int.emod_def]; ring

/-! The distance of the result. -/

theorem two_mul_abs_sub_mul_roundT_lt (hd : 0 < d) (h : 2 * (n % d) ≠ d) : 2 * |n - d * roundT T n d| < d := by
  have hnonneg : 0 ≤ n % d := Int.emod_nonneg n hd.ne'
  have hlt : n % d < d := Int.emod_lt_of_pos n hd
  rcases lt_or_gt_of_ne h with hbelow | habove
  · rw [roundT_of_lt_middle hbelow, ← Int.emod_def, abs_of_nonneg hnonneg]
    exact hbelow
  · rw [roundT_of_middle_lt habove, sub_mul_ediv_succ, abs_of_neg (by omega)]
    omega

theorem two_mul_abs_sub_mul_roundT_of_tie (hd : 0 < d) (h : 2 * (n % d) = d) : 2 * |n - d * roundT T n d| = d := by
  rw [roundT_of_tie h]
  rcases roundTie_eq_or_succ T n (n / d) with hq | hq <;> rw [hq]
  · rw [← Int.emod_def, abs_of_pos (by omega), h]
  · rw [sub_mul_ediv_succ, abs_of_neg (by omega)]
    omega

theorem two_mul_abs_sub_mul_roundT_le (hd : 0 < d) : 2 * |n - d * roundT T n d| ≤ d := by
  by_cases h : 2 * (n % d) = d
  · exact (two_mul_abs_sub_mul_roundT_of_tie hd h).le
  · exact (two_mul_abs_sub_mul_roundT_lt hd h).le

/-- Two multiples of `d`, one at most and one less than `d / 2` from `n`, are less than `d` apart. -/
theorem eq_of_nearest (hq : 2 * |n - d * q| ≤ d) (hr : 2 * |n - d * r| < d) : q = r := by
  have hd : 0 < d := by linarith [abs_nonneg (n - d * r)]
  have hclose : |d * (q - r)| < d := by
    have htri := abs_sub (n - d * r) (n - d * q)
    rw [show n - d * r - (n - d * q) = d * (q - r) by ring] at htri
    linarith
  have hzero := Int.eq_zero_of_abs_lt_dvd (dvd_mul_right d (q - r)) hclose
  exact sub_eq_zero.mp ((mul_eq_zero.mp hzero).resolve_left hd.ne')

/-! Each tie rule. -/

theorem roundT_halfEven_of_tie (h : 2 * (n % d) = d) : roundT .halfEven n d % 2 = 0 := by
  rw [roundT_of_tie h]
  simp only [roundTie]
  split <;> omega

theorem lt_mul_roundT_halfUp_of_tie (hd : 0 < d) (h : 2 * (n % d) = d) : n < d * roundT .halfUp n d := by
  have hrem := sub_mul_ediv_succ n d
  rw [roundT_of_tie h]
  simp only [roundTie]
  linarith

theorem roundT_halfAway_eq_halfUp (hn : 0 ≤ n) : roundT .halfAway n d = roundT .halfUp n d := by
  simp only [roundT, roundTie, if_pos hn]

theorem abs_lt_abs_mul_roundT_halfAway_of_tie (hd : 0 < d) (h : 2 * (n % d) = d) :
    |n| < |d * roundT .halfAway n d| := by
  by_cases hn : 0 ≤ n
  · have hup := lt_mul_roundT_halfUp_of_tie hd h
    rw [roundT_halfAway_eq_halfUp hn, abs_of_nonneg hn, abs_of_pos (hn.trans_lt hup)]
    exact hup
  · have hrem := Int.emod_def n d
    have hdown : d * roundT .halfAway n d < n := by
      rw [roundT_of_tie h]
      simp only [roundTie, if_neg hn]
      linarith
    rw [abs_of_neg (not_le.mp hn), abs_of_neg (hdown.trans (not_le.mp hn))]
    exact neg_lt_neg hdown

end Sys2Proof.Machine

open Sys2Proof Sys2Proof.Machine

/-- Settles O22, from the distance of `round_T` (strict off a tie, hence unique there) and one lemma per tie rule. -/
theorem roundingIsToNearestWithTiesByRule : Obligations.RoundingIsToNearestWithTiesByRule := by
  intro T n d hd
  refine ⟨two_mul_abs_sub_mul_roundT_le hd, ?unique, ?tie, roundT_halfAway_eq_halfUp⟩
  case unique =>
    intro hoff q hq
    exact eq_of_nearest hq (two_mul_abs_sub_mul_roundT_lt hd hoff)
  case tie =>
    intro htie
    refine ⟨?_, ?_, ?_⟩ <;> rintro rfl
    · exact roundT_halfEven_of_tie htie
    · exact abs_lt_abs_mul_roundT_halfAway_of_tie hd htie
    · exact lt_mul_roundT_halfUp_of_tie hd htie
end

