-- ==== Sys2Proof/Proofs/Decoding.lean ====
section
/-! PROOFS. The decoder opcode by opcode (R72, R83), the step on an illegal word (R271, R275), and O1. -/

namespace Sys2Proof

variable {w : Word}

/-! The row of the decoder's table for each opcode. -/

theorem decode_of_opcode_nop (h : w.extractLsb' 28 4 = 0x0) : decode w = whenZero 0 (w.extractLsb' 0 28) .nop := by
  rw [decode, h]; rfl

theorem decode_of_opcode_init (h : w.extractLsb' 28 4 = 0x1) : decode w = whenZero 1 (w.extractLsb' 0 28) .init := by
  rw [decode, h]; rfl

theorem decode_of_opcode_csc (h : w.extractLsb' 28 4 = 0x2) :
    decode w = whenZero 2 (w.extractLsb' 24 4)
      (.csc (w.extractLsb' 16 8) (w.extractLsb' 8 8) (w.extractLsb' 0 8)) := by
  rw [decode, h]; rfl

theorem decode_of_opcode_qld (h : w.extractLsb' 28 4 = 0x3) :
    decode w = whenZero 3 (w.extractLsb' 16 4)
      (.qld (w.extractLsb' 26 2) (w.extractLsb' 20 6) (w.extractLsb' 0 16)) := by
  rw [decode, h]; rfl

theorem decode_of_opcode_zrd (h : w.extractLsb' 28 4 = 0x4) :
    decode w = whenZero 4 (w.extractLsb' 6 22) (.zrd (w.extractLsb' 0 6)) := by
  rw [decode, h]; rfl

theorem decode_of_opcode_dcp (h : w.extractLsb' 28 4 = 0x5) :
    decode w = whenZero 5 (w.extractLsb' 16 10) (.dcp (w.extractLsb' 26 2) (w.extractLsb' 0 16)) := by
  rw [decode, h]; rfl

theorem decode_of_opcode_vli (h : w.extractLsb' 28 4 = 0x6) :
    decode w = whenZero 6 (w.extractLsb' 16 12) (.vli (w.extractLsb' 0 16)) := by
  rw [decode, h]; rfl

theorem decode_of_opcode_hlk (h : w.extractLsb' 28 4 = 0x7) :
    decode w = whenZero 7 (w.extractLsb' 8 18) (.hlk (w.extractLsb' 26 2) (w.extractLsb' 0 8)) := by
  rw [decode, h]; rfl

theorem decode_of_opcode_enc (h : w.extractLsb' 28 4 = 0x8) :
    decode w = whenZero 8 (w.extractLsb' 0 26) (.enc (w.extractLsb' 26 2)) := by
  rw [decode, h]; rfl

theorem decode_of_opcode_rdreg (h : w.extractLsb' 28 4 = 0x9) :
    decode w =
      if w.extractLsb' 8 20 = 0 then
        if w.extractLsb' 0 8 ≤ 6 then .ok (.rdreg (w.extractLsb' 0 8))
        else .error (.reservedRegister (w.extractLsb' 0 8))
      else .error (.reservedBitSet 9) := by
  rw [decode, h]; rfl

theorem decode_of_opcode_reserved (h : 10 ≤ (w.extractLsb' 28 4).toNat) :
    decode w = .error (.reservedOpcode (w.extractLsb' 28 4)) := by
  unfold decode
  split
  case h_11 => rfl
  all_goals omega

end Sys2Proof

namespace Sys2Proof.Machine

variable {s : State}

theorem illegal_of_run (hi : s.inflight = none) (hm : s.regs.mode = .run) (hr : s.hasRoom 1 = true) :
    s.illegal = .next (s.faulted .illegalCommand) :=
  (inRun_run hm _).trans (raise_of_room hi _ hr)

theorem illegal_of_fault (hm : s.regs.mode = .fault) : s.illegal = .next s := inRun_fault hm _

/-- The core takes an illegal word from CMD, and the outcome is that of an illegal word on the state without it. -/
theorem step_of_decode_error {w : Word} {rest : List Word} {e : DecodeError} (hi : s.inflight = none)
    (hc : s.cmd = w :: rest) (he : decode w = .error e) : step s = ({ s with cmd := rest } : State).illegal := by
  simp only [step, hi, State.takeCommand, hc, he]

end Sys2Proof.Machine

open Sys2Proof Sys2Proof.Machine

/-- Settles O1, from the decoder's row for each opcode and the outcome of an illegal word in each mode. -/
theorem decoderFollowsItsTable : Obligations.DecoderFollowsItsTable := by
  intro w
  refine ⟨⟨decode_of_opcode_nop, decode_of_opcode_init, decode_of_opcode_csc, decode_of_opcode_qld, decode_of_opcode_zrd,
    decode_of_opcode_dcp, decode_of_opcode_vli, decode_of_opcode_hlk, decode_of_opcode_enc, ?register, ?noRegister,
    ?reservedBit, decode_of_opcode_reserved⟩, ?run, ?fault⟩
  case register =>
    intro hop hzero hreg
    rw [decode_of_opcode_rdreg hop, if_pos hzero, if_pos hreg]
  case noRegister =>
    intro hop hzero hreg
    rw [decode_of_opcode_rdreg hop, if_pos hzero, if_neg hreg]
  case reservedBit =>
    intro hop hbit
    rw [decode_of_opcode_rdreg hop, if_neg hbit]
  case run =>
    rintro ⟨e, he⟩ s rest hm hi hr hc
    exact (step_of_decode_error hi hc he).trans (illegal_of_run hi hm hr)
  case fault =>
    rintro ⟨e, he⟩ s rest hm hi hc
    exact (step_of_decode_error hi hc he).trans (illegal_of_fault hm)
end

