-- ==== Sys2Proof/Proofs/ColorConvert.lean ====
section
/-! PROOFS. `round_T` as a monotone function that is the identity on multiples, the ranges of CSC (O26, R102), the step on
a word with a reserved bit set (R72), and the CSCR word of a pixel (O25, R100). -/

namespace Sys2Proof

theorem whenZero_of_ne {n : Nat} {op : BitVec 4} {reserved : BitVec n} {i : Instr} (h : reserved ≠ 0) :
    whenZero op reserved i = .error (.reservedBitSet op) := if_neg h

end Sys2Proof

namespace Sys2Proof.Machine

theorem takesAsIllegal_of_decode_error {s : State} {w : Word} {e : DecodeError} (hi : s.inflight = none)
    (he : decode w = .error e) : s.takesAsIllegal w := by
  have hstep : step { s with cmd := w :: s.cmd } = s.illegal := step_of_decode_error hi rfl he
  exact ⟨fun hm hr => hstep.trans (illegal_of_run hi hm hr), fun hm => hstep.trans (illegal_of_fault hm)⟩

/-! Rounding keeps order and multiples of `d`, so it commutes with a clamp to multiples of `d`. -/

/-- If the order were reversed, the results would be a whole `d` apart and each at most `d / 2` from its argument, so the
arguments would be equal. -/
theorem roundT_mono (T : TieRule) {d : Int} (hd : 0 < d) : Monotone fun n => roundT T n d := by
  intro n m hnm
  by_contra hlt
  have hgap : d * (roundT T m d + 1) ≤ d * roundT T n d := mul_le_mul_of_nonneg_left (not_le.mp hlt) hd.le
  have hn := neg_abs_le (n - d * roundT T n d)
  have hm := le_abs_self (m - d * roundT T m d)
  have hdn := two_mul_abs_sub_mul_roundT_le (T := T) (n := n) hd
  have hdm := two_mul_abs_sub_mul_roundT_le (T := T) (n := m) hd
  have heq : n = m := by linarith
  exact hlt (heq ▸ le_rfl)

theorem roundT_mul_left (T : TieRule) {d : Int} (hd : 0 < d) (k : Int) : roundT T (d * k) d = k := by
  rw [roundT_of_lt_middle (by rwa [Int.mul_emod_right]), Int.mul_ediv_cancel_left k hd.ne']

/-- Clamping before the rounding or after it gives the same value (R102). -/
theorem roundT_clamp6 (T : TieRule) (x6 : Int) :
    roundT T (clamp6 x6) 1000000 = min (max (roundT T x6 1000000) 0) 255 := by
  have hd : (0 : Int) < 1000000 := by decide
  have hzero : roundT T 0 1000000 = 0 := roundT_mul_left T hd 0
  have htop : roundT T 255000000 1000000 = 255 := roundT_mul_left T hd 255
  rw [clamp6, (roundT_mono T hd).map_min, (roundT_mono T hd).map_max, hzero, htop]

/-- The clamped value rounds into 0..255, so the truncation to 8 bits keeps it (R102). -/
theorem conv_toNat (T : TieRule) (x6 : Int) : ((conv T x6).toNat : Int) = roundT T (clamp6 x6) 1000000 := by
  rw [conv, BitVec.toNat_ofInt]
  have hclamp := roundT_clamp6 T x6
  omega

/-! The scaled values of a pixel: each is linear in samples of 0..255, so its extremes are at samples of 0 and 255. -/

section Pixel

variable (r g b : Byte)

theorem y6_range : 0 ≤ y6 r.toNat g.toNat b.toNat ∧ y6 r.toNat g.toNat b.toNat ≤ 255000000 := by
  unfold y6; omega

theorem cb6_range : 500000 ≤ cb6 r.toNat g.toNat b.toNat ∧ cb6 r.toNat g.toNat b.toNat ≤ 255500000 := by
  unfold cb6; omega

theorem cr6_range : 500000 ≤ cr6 r.toNat g.toNat b.toNat ∧ cr6 r.toNat g.toNat b.toNat ≤ 255500000 := by
  unfold cr6; omega

end Pixel

theorem clamp6_of_range {x6 : Int} (h : 0 ≤ x6 ∧ x6 ≤ 255000000) : clamp6 x6 = x6 := by
  rw [clamp6, max_eq_left h.1, min_eq_left h.2]

/-! What CSC does in each mode. -/

theorem execCsc_of_run {s : State} (hi : s.inflight = none) (hm : s.regs.mode = .run) (hr : s.hasRoom 1 = true)
    (r g b : Byte) : execCsc r g b s = .next { s with out := s.out ++ [cscWord s.cfg.rndTies r g b] } :=
  (inRun_run hm _).trans (done_of_room hi hr)

theorem execCsc_of_fault {s : State} (hm : s.regs.mode = .fault) (r g b : Byte) : execCsc r g b s = .next s :=
  inRun_fault hm _

end Sys2Proof.Machine

open Sys2Proof Sys2Proof.Machine

/-- Settles O26, from the range of each scaled component and from the rounding's commuting with the clamp. -/
theorem cscValuesStayInRange : Obligations.CscValuesStayInRange := by
  intro T r g b
  refine ⟨⟨clamp6_of_range (y6_range r g b), y6_range r g b⟩, cb6_range r g b, cr6_range r g b, fun x6 => ⟨?_, ?_, ?_⟩⟩
  · exact conv_toNat T x6
  · exact (conv_toNat T x6).trans (roundT_clamp6 T x6)
  · rw [conv_toNat]
    exact two_mul_abs_sub_mul_roundT_le (by decide)

/-- Settles O25, from what CSC does in each mode, and from the decoder's row for opcode 2 when a reserved bit is set. -/
theorem cscEmitsTheConvertedPixel : Obligations.CscEmitsTheConvertedPixel := by
  intro r g b s hi
  refine ⟨?run, ?fault, ?reservedBit⟩
  case run => exact fun hm hr => execCsc_of_run hi hm hr r g b
  case fault => exact fun hm => execCsc_of_fault hm r g b
  case reservedBit =>
    intro w hop hbit
    exact takesAsIllegal_of_decode_error hi ((decode_of_opcode_csc hop).trans (whenZero_of_ne hbit))
end

