-- ==== Sys2Proof/Proofs/QuantizeZigzag.lean ====
section
/-! PROOFS. The zigzag map and its inverse (O31, R125 to R127), the range of a quantized value (O28, R122), what QLD and ZRD
do in each mode (O27 and O30, R120 and R128), and the QLD commands of a block (O32, R129). -/

namespace Sys2Proof.Machine

/-! The zigzag ROM. -/

theorem zigzagPath_eq_zzTable : zigzagPath 64 0 0 true = zzTable.toList.map BitVec.toNat := by decide

@[simp] theorem zz_zzInv : ∀ n : Index, zz (zzInv n) = n := by decide

@[simp] theorem zzInv_zz : ∀ k : Index, zzInv (zz k) = k := by decide

theorem eq_zzInv_iff {j n : Index} : j = zzInv n ↔ zz j = n :=
  ⟨fun h => h ▸ zz_zzInv n, fun h => h ▸ (zzInv_zz j).symm⟩

/-! The range of a quantized value: rounding keeps the bounds that are multiples of the divisor. -/

section Bounds

variable (T : TieRule) {n d q : Int}

theorem le_roundT_of_mul_le (hd : 0 < d) (h : d * q ≤ n) : q ≤ roundT T n d :=
  (roundT_mul_left T hd q).ge.trans (roundT_mono T hd h)

theorem roundT_le_of_le_mul (hd : 0 < d) (h : n ≤ d * q) : roundT T n d ≤ q :=
  (roundT_mono T hd h).trans (roundT_mul_left T hd q).le

end Bounds

/-- A coefficient is in `16 * -2048 .. 16 * 2048`, and the divisor is at least 16. -/
theorem quantized_range {c : Config} {k : ChannelClass} {n : Index} (hq : 1 ≤ (qrom c k n).toNat) (raw : Half) :
    -2048 ≤ quantized c k n raw ∧ quantized c k n raw ≤ 2048 := by
  have hd : (0 : Int) < 16 * (qrom c k n).toNat := by omega
  have hlow : -2 ^ 15 ≤ sext16 raw := BitVec.le_toInt raw
  have hhigh : sext16 raw < 2 ^ 15 := BitVec.toInt_lt
  exact ⟨le_roundT_of_mul_le c.rndTies hd (by omega), roundT_le_of_le_mul c.rndTies hd (by omega)⟩

/-! What QLD and ZRD do in each mode. -/

section Commands

variable {s : State} {cls : BitVec 2} {k : ChannelClass}

theorem exec_qld (n : Index) (raw : Half) : exec (.qld cls n raw) s = execQld cls n raw s := rfl

/-- QLD emits nothing, so it needs no room on OUT. -/
theorem execQld_of_class (hi : s.inflight = none) (hm : s.regs.mode = .run) (hk : classOf cls = some k) (n : Index)
    (raw : Half) : execQld cls n raw s =
      .next { s with regs := s.regs.load (zzInv n) (BitVec.ofInt 16 (quantized s.cfg k n raw)) } := by
  rw [execQld, inRun_run hm, hk]
  exact done_nil hi _

theorem execQld_of_no_class (hi : s.inflight = none) (hm : s.regs.mode = .run) (hr : s.hasRoom 1 = true)
    (hk : classOf cls = none) (n : Index) (raw : Half) :
    execQld cls n raw s = .next (s.faulted .invalidChannelClass) := by
  rw [execQld, inRun_run hm, hk]
  exact raise_of_room hi _ hr

theorem execQld_of_fault (hm : s.regs.mode = .fault) (n : Index) (raw : Half) : execQld cls n raw s = .next s :=
  inRun_fault hm _

theorem execZrd_of_loaded {j : Index} (hi : s.inflight = none) (hm : s.regs.mode = .run) (hr : s.hasRoom 1 = true)
    (hl : s.regs.isLoaded j = true) :
    execZrd j s = .next { s with out := s.out ++ [zrdr true j (s.regs.coef j)] } := by
  rw [execZrd, inRun_run hm, if_pos hl]
  exact done_of_room hi hr

theorem execZrd_of_unloaded {j : Index} (hi : s.inflight = none) (hm : s.regs.mode = .run) (hr : s.hasRoom 1 = true)
    (hl : s.regs.isLoaded j = false) :
    execZrd j s = .next { s with
      out := s.out ++ [zrdr false j (Config.freeValue s.draws)], draws := s.draws + 1 } := by
  rw [execZrd, inRun_run hm, if_neg (Bool.eq_false_iff.mp hl)]
  exact done_of_room (s := s.draw16.2) hi hr

theorem execZrd_of_fault (hm : s.regs.mode = .fault) (j : Index) : execZrd j s = .next s := inRun_fault hm _

end Commands

/-! A block of coefficients: each is loaded at the zigzag position of its natural index. -/

/-- The values `v` of the natural indices of a list, loaded one after the other. -/
def Regs.loadAll (v : Index → Half) : List Index → Regs → Regs
  | [], r => r
  | n :: ns, r => Regs.loadAll v ns (r.load (zzInv n) (v n))

section LoadAll

variable (v : Index → Half) (ns : List Index) (r : Regs)

theorem loadAll_coef (j : Index) : (r.loadAll v ns).coef j = if zz j ∈ ns then v (zz j) else r.coef j := by
  induction ns generalizing r with
  | nil => rfl
  | cons n ns ih =>
    rw [Regs.loadAll, ih, load_coef]
    by_cases hj : zz j = n <;> simp [eq_zzInv_iff, hj]

theorem loadAll_isLoaded (j : Index) : (r.loadAll v ns).isLoaded j = if zz j ∈ ns then true else r.isLoaded j := by
  induction ns generalizing r with
  | nil => rfl
  | cons n ns ih =>
    rw [Regs.loadAll, ih, load_isLoaded]
    by_cases hj : zz j = n <;> simp [eq_zzInv_iff, hj]

theorem loadAll_frame :
    r.loadAll v ns = { r with qbuf := (r.loadAll v ns).qbuf, loaded := (r.loadAll v ns).loaded } := by
  induction ns generalizing r with
  | nil => rfl
  | cons n ns ih => exact ih (r.load (zzInv n) (v n))

end LoadAll

/-- The QLD commands of a list of coefficients load their quantized values; each starts in RUN mode, since a load keeps the
mode, and with no command in progress, since QLD never waits. -/
theorem execAll_qld {s : State} {cls : BitVec 2} {k : ChannelClass} (hk : classOf cls = some k) (d : Index → Half)
    (ns : List Index) (hm : s.regs.mode = .run) (hi : s.inflight = none) :
    execAll (ns.map fun n => .qld cls n (d n)) s = .next { s with
      regs := s.regs.loadAll (fun n => BitVec.ofInt 16 (quantized s.cfg k n (d n))) ns } := by
  induction ns generalizing s with
  | nil => rfl
  | cons n ns ih =>
    rw [List.map_cons, execAll, exec_qld, execQld_of_class hi hm hk]
    exact ih hm hi

end Sys2Proof.Machine

open Sys2Proof Sys2Proof.Machine

/-- Settles O31, from the two tables' being inverse to each other and the walk of the path. -/
theorem zigzagRomIsTheInvertiblePath : Obligations.ZigzagRomIsTheInvertiblePath :=
  ⟨zigzagPath_eq_zzTable, zz_zzInv, zzInv_zz⟩

/-- Settles O28, from the range of the quantized value, which is inside that of 16 bits. -/
theorem quantizedValuesFit : Obligations.QuantizedValuesFit := by
  intro c k n raw hq
  obtain ⟨hlow, hhigh⟩ := quantized_range hq raw
  exact ⟨hlow, hhigh, BitVec.toInt_ofInt_eq_self (by decide) (by omega) (by omega)⟩

/-- Settles O27, from what QLD does in each mode, and from the decoder's row for opcode 3 when a reserved bit is set. -/
theorem qldQuantizesIntoItsZigzagEntry : Obligations.QldQuantizesIntoItsZigzagEntry := by
  intro cls n raw s hi
  refine ⟨?run, ?noClass, ?fault, ?reservedBit⟩
  case run => exact fun k hk hm => execQld_of_class hi hm ((classOf_eq_some_iff cls k).mpr hk) n raw
  case noClass => exact fun hk hm hr => execQld_of_no_class hi hm hr ((classOf_eq_none_iff cls).mpr hk) n raw
  case fault => exact fun hm => execQld_of_fault hm n raw
  case reservedBit =>
    intro w hop hbit
    exact takesAsIllegal_of_decode_error hi ((decode_of_opcode_qld hop).trans (whenZero_of_ne hbit))

/-- Settles O30, from what ZRD does in each mode, and from the decoder's row for opcode 4 when a reserved bit is set; the
free value and the draw it takes witness the unloaded entry. -/
theorem zrdEmitsTheEntry : Obligations.ZrdEmitsTheEntry := by
  intro k s hi
  refine ⟨?loaded, ?unloaded, ?fault, ?reservedBit⟩
  case loaded => exact fun hm hr hl => execZrd_of_loaded hi hm hr hl
  case unloaded => exact fun hm hr hl => ⟨_, _, execZrd_of_unloaded hi hm hr hl⟩
  case fault => exact fun hm => execZrd_of_fault hm k
  case reservedBit =>
    intro w hop hbit
    exact takesAsIllegal_of_decode_error hi ((decode_of_opcode_zrd hop).trans (whenZero_of_ne hbit))

/-- Settles O32: the QLD commands load the quantized value of every natural index, so every zigzag entry is loaded. -/
theorem blockOfQldsIsZigzagOfQuantize : Obligations.BlockOfQldsIsZigzagOfQuantize := by
  intro cls k d ns s hk hm hi hall
  refine ⟨_, execAll_qld hk d ns hm hi, ?coef, ?full, ?frame⟩
  case coef => exact fun j => (loadAll_coef _ ns s.regs j).trans (if_pos (hall (zz j)))
  case full => exact (full_iff _).mpr fun j => (loadAll_isLoaded _ ns s.regs j).trans (if_pos (hall (zz j)))
  case frame => exact congrArg (fun r => { s with regs := r }) (loadAll_frame _ ns s.regs)
end

