-- ==== Sys2Proof/Proofs/DcPredictor.lean ====
section
/-! PROOFS. What DCP does in each mode (O33, R150, R151), and the DCP commands of a list of DC values, whose differences sum
to the values (O35, R153). -/

namespace Sys2Proof.Machine

theorem hasRoom_of_unbounded {s : State} (ho : s.cfg.outDepth = none) (n : Nat) : s.hasRoom n = true := by
  rw [State.hasRoom, ho]

/-! What DCP does in each mode. -/

section Commands

variable {s : State} {comp : BitVec 2} {c : Component}

theorem exec_dcp (dc : Half) : exec (.dcp comp dc) s = execDcp comp dc s := rfl

theorem execDcp_of_component (hi : s.inflight = none) (hm : s.regs.mode = .run) (hr : s.hasRoom 1 = true)
    (hc : componentOf comp = some c) (dc : Half) : execDcp comp dc s =
      .next { s with out := s.out ++ [dcpr (dcDiff s.regs c dc)], regs := s.regs.setPred c dc } := by
  rw [execDcp, inRun_run hm, hc]
  exact done_of_room hi hr

theorem execDcp_of_no_component (hi : s.inflight = none) (hm : s.regs.mode = .run) (hr : s.hasRoom 1 = true)
    (hc : componentOf comp = none) (dc : Half) : execDcp comp dc s = .next (s.faulted .invalidComponent) := by
  rw [execDcp, inRun_run hm, hc]
  exact raise_of_room hi _ hr

theorem execDcp_of_fault (hm : s.regs.mode = .fault) (dc : Half) : execDcp comp dc s = .next s := inRun_fault hm _

end Commands

/-! A list of DC values of one component: each is predicted from the one before it, the first from the predictor. -/

/-- The differences of a list of DC values, from the predictor of their component (R150). -/
def Regs.dcDiffs (c : Component) : List Half → Regs → List Int
  | [], _ => []
  | dc :: dcs, r => dcDiff r c dc :: Regs.dcDiffs c dcs (r.setPred c dc)

section Differences

variable (c : Component) (dcs : List Half) (r : Regs)

@[simp] theorem dcDiffs_length : (r.dcDiffs c dcs).length = dcs.length := by
  induction dcs generalizing r with
  | nil => rfl
  | cons dc dcs ih => exact congrArg (· + 1) (ih (r.setPred c dc))

/-- The sum of the first differences telescopes: what is left is the last value less the predictor (R153). -/
theorem sum_take_dcDiffs (j : Nat) (h : j < dcs.length) :
    ((r.dcDiffs c dcs).take (j + 1)).sum = sext16 dcs[j] - sext16 (r.pred c) := by
  induction dcs generalizing r j with
  | nil => exact absurd h (Nat.not_lt_zero j)
  | cons dc dcs ih =>
    rw [Regs.dcDiffs, List.take_succ_cons, List.sum_cons, dcDiff]
    cases j with
    | zero => simp
    | succ j =>
      rw [ih (r.setPred c dc) j (Nat.lt_of_succ_lt_succ h), setPred_pred, List.getElem_cons_succ]
      omega

end Differences

/-- The DCP commands of a list of DC values emit its differences and set the predictor to each value in turn; each starts in
RUN mode, since setting a predictor keeps the mode, and with no command in progress, since OUT has no bound. -/
theorem execAll_dcp {s : State} {comp : BitVec 2} {c : Component} (hc : componentOf comp = some c) (dcs : List Half)
    (hm : s.regs.mode = .run) (hi : s.inflight = none) (ho : s.cfg.outDepth = none) :
    execAll (dcs.map fun dc => .dcp comp dc) s = .next { s with
      out  := s.out ++ (s.regs.dcDiffs c dcs).map dcpr
      regs := dcs.foldl (fun r dc => r.setPred c dc) s.regs } := by
  induction dcs generalizing s with
  | nil => simp [execAll, Regs.dcDiffs]
  | cons dc dcs ih =>
    rw [List.map_cons, execAll, exec_dcp, execDcp_of_component hi hm (hasRoom_of_unbounded ho 1) hc]
    have hrest := ih (s := { s with out := s.out ++ [dcpr (dcDiff s.regs c dc)], regs := s.regs.setPred c dc })
      ((setPred_mode s.regs c dc).trans hm) hi ho
    exact hrest.trans (by simp [Regs.dcDiffs])

end Sys2Proof.Machine

open Sys2Proof Sys2Proof.Machine

/-- Settles O33, from what DCP does in each mode, and from the decoder's row for opcode 5 when a reserved bit is set. -/
theorem dcpEmitsTheDifference : Obligations.DcpEmitsTheDifference := by
  intro comp dc s hi
  refine ⟨?run, ?fault, ?reservedBit⟩
  case run =>
    intro hm hr
    refine ⟨?y, ?cb, ?cr, fun hc => execDcp_of_no_component hi hm hr ((componentOf_eq_none_iff comp).mpr hc) dc⟩
    case y => rintro rfl; exact execDcp_of_component (comp := 0) (c := .y) hi hm hr rfl dc
    case cb => rintro rfl; exact execDcp_of_component (comp := 1) (c := .cb) hi hm hr rfl dc
    case cr => rintro rfl; exact execDcp_of_component (comp := 2) (c := .cr) hi hm hr rfl dc
  case fault => exact fun hm => execDcp_of_fault hm dc
  case reservedBit =>
    intro w hop hbit
    exact takesAsIllegal_of_decode_error hi ((decode_of_opcode_dcp hop).trans (whenZero_of_ne hbit))

/-- Settles O35: DCP emits the differences of the list, and their running sums telescope to its values, less a predictor
of 0. -/
theorem dcDifferencesSumToTheDcValues : Obligations.DcDifferencesSumToTheDcValues := by
  intro comp c dcs s hc hm hi ho hp
  refine ⟨_, s.regs.dcDiffs c dcs, execAll_dcp hc dcs hm hi ho, rfl, dcDiffs_length c dcs s.regs, ?sums⟩
  case sums =>
    intro j h
    have hzero : sext16 (s.regs.pred c) = 0 := by rw [hp]; rfl
    rw [sum_take_dcDiffs c dcs s.regs j h, hzero, sub_zero, sext16]
end

