-- ==== Sys2Proof/Proofs/AcRun.lean ====
section
/-! PROOFS. The symbol list run by run, over the runs of zeros of the coefficients (R170, R171); O41 (R175); what stands on
the list, how often and in which order, and O42 (R172 to R174). -/

namespace Sys2Proof.Machine

/-! The coefficients as runs of zeros. -/

/-- A list of coefficients is empty, a run of zeros, or a run of zeros, a nonzero coefficient and a list of coefficients. -/
theorem zeroRun_induction {P : List Int → Prop} (nil : P []) (zeros : ∀ k, P (List.replicate (k + 1) 0))
    (run : ∀ k v vs, v ≠ 0 → P vs → P (List.replicate k 0 ++ v :: vs)) (a : List Int) : P a := by
  suffices h : ∀ z, P (List.replicate z 0 ++ a) from h 0
  induction a with
  | nil =>
    rintro (_ | k)
    · exact nil
    · simpa using zeros k
  | cons v vs ih =>
    intro z
    by_cases hv : v = 0
    · subst hv
      rw [List.append_cons, ← List.replicate_succ']
      exact ih (z + 1)
    · exact run z v vs hv (ih 0)

theorem acScan_replicate_zero_append (z k : Nat) (vs : List Int) :
    acScan z (List.replicate k 0 ++ vs) = acScan (z + k) vs := by
  induction k generalizing z with
  | zero => rfl
  | succ k ih =>
    rw [List.replicate_succ, List.cons_append, acScan, if_pos rfl, ih (z + 1), Nat.add_right_comm, Nat.add_assoc]

@[simp] theorem acSymbols_nil : acSymbols [] = [] := rfl

@[simp] theorem acSymbols_zeros (k : Nat) : acSymbols (List.replicate (k + 1) 0) = [.eob] := by
  have h := acScan_replicate_zero_append 0 (k + 1) []
  rw [List.append_nil] at h
  rw [acSymbols, h, acScan, if_pos (by omega)]

/-- A nonzero coefficient after `k` zeros gives its ZRL items and its RC; the scan then starts anew (R171). -/
theorem acSymbols_run (k : Nat) {v : Int} (hv : v ≠ 0) (vs : List Int) :
    acSymbols (List.replicate k 0 ++ v :: vs) =
      List.replicate (k / 16) .zrl ++ .rc (k % 16) (category v) v :: acSymbols vs := by
  rw [acSymbols, acScan_replicate_zero_append, acScan, if_neg hv, Nat.zero_add]
  rfl

/-! Expansion (R175). -/

theorem acExpandFrom_zrls (p n : Nat) (b : List Int) (items : List AcItem) :
    acExpandFrom p b (List.replicate n .zrl ++ items) = acExpandFrom (p + 16 * n) b items := by
  induction n generalizing p with
  | zero => rfl
  | succ n ih =>
    rw [List.replicate_succ, List.cons_append, acExpandFrom, ih (p + 16)]
    congr 1
    omega

/-- The items of one run write its coefficient `k` places on. -/
theorem acExpandFrom_run (p k cat : Nat) (v : Int) (b : List Int) (items : List AcItem) :
    acExpandFrom p b (List.replicate (k / 16) .zrl ++ .rc (k % 16) cat v :: items) =
      acExpandFrom (p + k + 1) (b.set (p + k) v) items := by
  have hk : p + 16 * (k / 16) + k % 16 = p + k := by omega
  rw [acExpandFrom_zrls, acExpandFrom, hk]

/-- Where the first coefficients `pre` are written and the others are still 0, the rest of the list writes the others. -/
theorem acExpandFrom_acSymbols (a pre : List Int) :
    acExpandFrom pre.length (pre ++ List.replicate a.length 0) (acSymbols a) = pre ++ a := by
  induction a using zeroRun_induction generalizing pre with
  | nil => simp [acExpandFrom]
  | zeros k => simp [acExpandFrom]
  | run k v vs hv ih =>
    have hset : (pre ++ List.replicate (List.replicate k 0 ++ v :: vs).length 0).set (pre.length + k) v =
        pre ++ List.replicate k 0 ++ [v] ++ List.replicate vs.length 0 := by
      simp [List.replicate_add, List.replicate_succ]
    have hrest := ih (pre ++ List.replicate k 0 ++ [v])
    rw [acSymbols_run k hv, acExpandFrom_run, hset]
    simpa [Nat.add_assoc] using hrest

/-! What stands on the list (R172, R174). -/

/-- The coefficient an item carries. -/
def AcItem.value? : AcItem → Option Int
  | .rc _ _ v => some v
  | .zrl => none
  | .eob => none

theorem filterMap_value?_acSymbols (a : List Int) :
    (acSymbols a).filterMap AcItem.value? = a.filter fun v => v ≠ 0 := by
  induction a using zeroRun_induction with
  | nil => rfl
  | zeros k => simp [AcItem.value?]
  | run k v vs hv ih => simp [acSymbols_run k hv, AcItem.value?, hv, ih]

/-- Each ZRL stands for 16 coefficients of its own. -/
theorem count_zrl_acSymbols_le (a : List Int) : 16 * (acSymbols a).count .zrl ≤ a.length := by
  induction a using zeroRun_induction with
  | nil => simp
  | zeros k => simp
  | run k v vs hv ih =>
    have hcount : (acSymbols (List.replicate k 0 ++ v :: vs)).count .zrl = k / 16 + (acSymbols vs).count .zrl := by
      simp [acSymbols_run k hv]
    have hlength : (List.replicate k 0 ++ v :: vs).length = k + vs.length + 1 := by simp [Nat.add_assoc]
    omega

theorem count_eob_acSymbols (a : List Int) :
    (acSymbols a).count .eob = if a.getLast? = some 0 then 1 else 0 := by
  induction a using zeroRun_induction with
  | nil => rfl
  | zeros k => simp [List.getLast?_replicate]
  | run k v vs hv ih =>
    have hlast : (v :: vs).getLast? = some 0 ↔ vs.getLast? = some 0 := by
      cases h : vs.getLast? <;> simp [List.getLast?_cons, h, hv]
    simp [acSymbols_run k hv, List.count_replicate, hlast, ih]

theorem acSymbols_eq_nil_iff (a : List Int) : acSymbols a = [] ↔ a = [] := by
  induction a using zeroRun_induction with
  | nil => simp
  | zeros k => simp
  | run k v vs hv _ => simp [acSymbols_run k hv]

theorem category_pos {v : Int} (hv : v ≠ 0) : 1 ≤ category v := by
  rw [category, bitlen, if_neg (Int.natAbs_ne_zero.mpr hv)]
  exact Nat.le_add_left 1 _

theorem rc_of_mem_acSymbols {a : List Int} {r c : Nat} {x : Int} (h : .rc r c x ∈ acSymbols a) :
    r ≤ 15 ∧ 1 ≤ c ∧ c = category x ∧ x ≠ 0 := by
  induction a using zeroRun_induction with
  | nil => simp at h
  | zeros k => simp at h
  | run k v vs hv ih =>
    simp only [acSymbols_run k hv, List.mem_append, List.mem_replicate, List.mem_cons, AcItem.rc.injEq, reduceCtorEq,
      and_false, false_or] at h
    rcases h with ⟨rfl, rfl, rfl⟩ | h
    · exact ⟨by omega, category_pos hv, rfl, hv⟩
    · exact ih h

/-! The order of the items (R173). -/

theorem zrl_eob_infix_run_iff (n r c : Nat) (v : Int) (items : List AcItem) :
    [.zrl, .eob] <:+: List.replicate n .zrl ++ .rc r c v :: items ↔ [.zrl, .eob] <:+: items := by
  induction n with
  | zero => simp [List.infix_cons_iff]
  | succ n ih =>
    rw [List.replicate_succ, List.cons_append, List.infix_cons_iff, ih]
    cases n <;> simp [List.replicate_succ]

/-- No ZRL stands before an EOB or, as the EOB appended here tells, at the end. -/
theorem not_zrl_eob_infix_acSymbols (a : List Int) : ¬ [.zrl, .eob] <:+: acSymbols a ++ [.eob] := by
  induction a using zeroRun_induction with
  | nil => decide
  | zeros k => rw [acSymbols_zeros]; decide
  | run k v vs hv ih =>
    rwa [acSymbols_run k hv, List.append_assoc, List.cons_append, zrl_eob_infix_run_iff]

theorem getLast?_acSymbols_ne_zrl (a : List Int) : (acSymbols a).getLast? ≠ some .zrl := by
  intro h
  obtain ⟨pre, hpre⟩ := List.getLast?_eq_some_iff.mp h
  exact not_zrl_eob_infix_acSymbols a ⟨pre, [], by simp [hpre]⟩

theorem zrl_or_rc_of_zrl_before {a : List Int} {pre post : List AcItem} {x : AcItem}
    (h : acSymbols a = pre ++ .zrl :: x :: post) : x = .zrl ∨ ∃ run cat v, x = .rc run cat v := by
  cases x with
  | zrl => exact .inl rfl
  | rc run cat v => exact .inr ⟨run, cat, v, rfl⟩
  | eob => exact absurd ⟨pre, post ++ [.eob], by simp [h]⟩ (not_zrl_eob_infix_acSymbols a)

/-- The last item is neither EOB, which is not on the list, nor ZRL. -/
theorem acSymbols_of_last_ne_zero {a : List Int} (hne : a ≠ []) (h : a.getLast? ≠ some 0) :
    .eob ∉ acSymbols a ∧ ∃ run cat v, (acSymbols a).getLast? = some (.rc run cat v) := by
  have heob : .eob ∉ acSymbols a := by
    rw [← List.count_eq_zero, count_eob_acSymbols, if_neg h]
  refine ⟨heob, ?_⟩
  have hlast := List.getLast?_eq_some_getLast (mt (acSymbols_eq_nil_iff a).mp hne)
  cases hx : (acSymbols a).getLast _ with
  | zrl => exact absurd (hx ▸ hlast) (getLast?_acSymbols_ne_zrl a)
  | rc run cat v => exact ⟨run, cat, v, hx ▸ hlast⟩
  | eob => exact absurd (hx ▸ List.getLast_mem _) heob

theorem acSymbols_of_forall_zero {a : List Int} (hne : a ≠ []) (h : ∀ v ∈ a, v = 0) : acSymbols a = [.eob] := by
  obtain ⟨k, hk⟩ := Nat.exists_eq_succ_of_ne_zero (mt List.length_eq_zero_iff.mp hne)
  rw [List.eq_replicate_of_mem h, hk]
  exact acSymbols_zeros k

end Sys2Proof.Machine

open Sys2Proof Sys2Proof.Machine

/-- Settles O41, by induction over the runs of zeros: the items of each run write its coefficient in its place. -/
theorem acExpandUndoesAcSymbols : Obligations.AcExpandUndoesAcSymbols := by
  intro a ha
  have h := acExpandFrom_acSymbols a []
  rwa [ha] at h

/-- Settles O42, clause by clause: what stands on the list by induction over the runs of zeros, and the order of its items
from the one fact that no ZRL stands before an EOB or at the end. -/
theorem acSymbolListBounds : Obligations.AcSymbolListBounds := by
  intro a ha
  have hne : a ≠ [] := List.ne_nil_of_length_pos (by omega)
  refine ⟨filterMap_value?_acSymbols a, ?atMostThree, count_eob_acSymbols a, mt (acSymbols_eq_nil_iff a).mp hne,
    fun _ _ _ => rc_of_mem_acSymbols, getLast?_acSymbols_ne_zrl a, fun _ _ _ => zrl_or_rc_of_zrl_before,
    acSymbols_of_last_ne_zero hne, acSymbols_of_forall_zero hne⟩
  case atMostThree =>
    have hcount := count_zrl_acSymbols_le a
    omega
end

