-- ==== Sys2Proof/Proofs/VliHuffman.lean ====
section
/-! PROOFS. The category as a bound on the magnitude (O23, R190), the value bits and their inverse (O24, R191, R193), what
VLI and HLK do in each mode (O36, R192; O37, R195), what the checks of a code table give its lookups (O38, R196), the default
tables as canonical ones (O39, R201, R203), and the tokens of a block as the tokens of its symbols, each with the table entry
of its symbol (O47, R202). -/

namespace Sys2Proof.Machine

/-! The category. -/

theorem bitlen_le_iff (m c : Nat) : bitlen m ≤ c ↔ m < 2 ^ c := by
  unfold bitlen
  split
  case isTrue h => simp [h]
  case isFalse h => rw [Nat.add_one_le_iff, Nat.log2_lt h]

theorem category_le_iff (v : Int) (c : Nat) : category v ≤ c ↔ |v| < 2 ^ c := by
  rw [category, bitlen_le_iff, Int.abs_eq_natAbs]
  norm_cast

theorem category_eq_zero_iff (v : Int) : category v = 0 ↔ v = 0 := by
  rw [← Nat.le_zero, category_le_iff, pow_zero, Int.abs_lt_one_iff]

/-- Beyond category 0, one category is what is at most it and not at most the one before. -/
theorem category_eq_iff (v : Int) {c : Nat} (hc : 1 ≤ c) :
    category v = c ↔ (2 : Int) ^ (c - 1) ≤ |v| ∧ |v| ≤ 2 ^ c - 1 := by
  have hle := category_le_iff v c
  have hlt := category_le_iff v (c - 1)
  omega

theorem abs_lt_two_pow_category (v : Int) : |v| < 2 ^ category v := (category_le_iff v _).mp le_rfl

theorem two_pow_category_le_abs {v : Int} (hv : v ≠ 0) : 2 ^ (category v - 1) ≤ |v| :=
  ((category_eq_iff v (category_pos hv)).mp rfl).1

theorem category_le_of_range {v : Int} (hlo : -32768 ≤ v) (hhi : v ≤ 32767) : category v ≤ 16 := by
  rw [category_le_iff, abs_lt]
  omega

/-! The value bits. -/

@[simp] theorem vliBits_len (v : Int) : (vliBits v).len = category v := by
  unfold vliBits; split <;> rfl

theorem vliBits_bits_of_nonneg {v : Int} (hv : 0 ≤ v) : ((vliBits v).bits : Int) = v := by
  rw [vliBits, if_pos hv]
  exact Int.toNat_of_nonneg hv

theorem vliBits_bits_of_neg {v : Int} (hv : v < 0) : ((vliBits v).bits : Int) = 2 ^ category v - 1 + v := by
  have habs := abs_lt_two_pow_category v
  rw [abs_of_neg hv] at habs
  rw [vliBits, if_neg hv.not_ge]
  exact Int.toNat_of_nonneg (by omega)

theorem vliBits_bits_lt (v : Int) : (vliBits v).bits < 2 ^ category v := by
  have habs := abs_lt_two_pow_category v
  zify
  rcases le_or_gt 0 v with hv | hv
  · rw [vliBits_bits_of_nonneg hv]
    rwa [abs_of_nonneg hv] at habs
  · rw [vliBits_bits_of_neg hv]
    omega

/-- The first bit of the value bits is 1 for a positive value, and 0 for a negative one (R191). -/
theorem vliBits_testBit_of_pos {v : Int} (hv : 0 < v) : (vliBits v).bits.testBit (category v - 1) = true := by
  have hlow := two_pow_category_le_abs hv.ne'
  have hhigh := vliBits_bits_lt v
  rw [abs_of_pos hv] at hlow
  rw [← Nat.sub_add_cancel (category_pos hv.ne')] at hhigh
  refine Nat.testBit_of_two_pow_le_and_two_pow_add_one_gt ?_ hhigh
  zify
  rwa [vliBits_bits_of_nonneg hv.le]

theorem vliBits_testBit_of_neg {v : Int} (hv : v < 0) : (vliBits v).bits.testBit (category v - 1) = false := by
  have hlow := two_pow_category_le_abs hv.ne
  rw [abs_of_neg hv] at hlow
  have hhalf : (2 : Int) ^ category v = 2 * 2 ^ (category v - 1) := by
    rw [← pow_succ', Nat.sub_add_cancel (category_pos hv.ne)]
  refine Nat.testBit_lt_two_pow ?_
  zify
  rw [vliBits_bits_of_neg hv]
  omega

theorem unvli_vliBits (v : Int) : unvli (vliBits v) = v := by
  rw [unvli, vliBits_len]
  rcases lt_trichotomy v 0 with hv | rfl | hv
  · rw [if_neg ((category_eq_zero_iff v).not.mpr hv.ne), vliBits_testBit_of_neg hv, if_neg Bool.false_ne_true,
      vliBits_bits_of_neg hv]
    omega
  · rfl
  · rw [if_neg ((category_eq_zero_iff v).not.mpr hv.ne'), vliBits_testBit_of_pos hv, if_pos rfl,
      vliBits_bits_of_nonneg hv.le]

/-! What VLI and HLK do in each mode. -/

section Commands

variable {s : State} {t : BitVec 2} {sym : Byte}

theorem execVli_of_run (hi : s.inflight = none) (hm : s.regs.mode = .run) (hr : s.hasRoom 1 = true) (v : Half) :
    execVli v s = .next { s with out := s.out ++ [vlir (vliBits (sext16 v))] } :=
  (inRun_run hm _).trans (done_of_room hi hr)

theorem execVli_of_fault (hm : s.regs.mode = .fault) (v : Half) : execVli v s = .next s := inRun_fault hm _

theorem execHlk_of_code (hi : s.inflight = none) (hm : s.regs.mode = .run) (hr : s.hasRoom 1 = true) {e : BitString}
    (he : hrom s.cfg (tableOf t) sym = some e) : execHlk t sym s = .next { s with out := s.out ++ [hlkr e] } := by
  rw [execHlk, inRun_run hm, he]
  exact done_of_room hi hr

theorem execHlk_of_no_code (hi : s.inflight = none) (hm : s.regs.mode = .run) (hr : s.hasRoom 1 = true)
    (he : hrom s.cfg (tableOf t) sym = none) : execHlk t sym s = .next (s.faulted .unknownSymbol) := by
  rw [execHlk, inRun_run hm, he]
  exact raise_of_room hi _ hr

theorem execHlk_of_fault (hm : s.regs.mode = .fault) : execHlk t sym s = .next s := inRun_fault hm _

end Commands

/-- The category of a 16-bit value, and so its value bits, fit their fields of VLIR (R192). -/
theorem category_sext16_le (v : Half) : category (sext16 v) ≤ 16 :=
  category_le_of_range (BitVec.le_toInt v) (Int.le_of_lt_add_one BitVec.toInt_lt)

theorem vliBits_len_field (v : Half) : (BitVec.ofNat 5 (vliBits (sext16 v)).len).toNat = category (sext16 v) := by
  have hcat := category_sext16_le v
  rw [vliBits_len, BitVec.toNat_ofNat, Nat.mod_eq_of_lt (by omega)]

theorem vliBits_bits_field (v : Half) : (BitVec.ofNat 16 (vliBits (sext16 v)).bits).toNat = (vliBits (sext16 v)).bits := by
  have hbits := vliBits_bits_lt (sext16 v)
  rw [BitVec.toNat_ofNat, Nat.mod_eq_of_lt (hbits.trans_le (Nat.pow_le_pow_right (by decide) (category_sext16_le v)))]

/-! The checks of a code table, as facts about its entries and lookups (R196). -/

/-- The symbols that R196 (c) and (d) allow a table. -/
def symbolOk : TableId → Byte → Bool
  | .dcLuma => isDcSymbol
  | .dcChroma => isDcSymbol
  | .acLuma => isAcSymbol
  | .acChroma => isAcSymbol

theorem tableOk_of_admissible {c : Config} (h : admissible c = true) (t : TableId) :
    tableOk (symbolOk t) (huff c t) = true := by
  simp only [admissible, Bool.and_eq_true] at h
  obtain ⟨⟨⟨⟨⟨-, hdcLuma⟩, hdcChroma⟩, hacLuma⟩, hacChroma⟩, -⟩ := h
  cases t
  · exact hdcLuma
  · exact hdcChroma
  · exact hacLuma
  · exact hacChroma

section Table

variable {p : Byte → Bool} {tab : CodeTable} {s u : Byte} {b d : BitString}

theorem tableOk_iff : tableOk p tab = true ↔
    tab.Pairwise (fun e f => e.sym.toNat < f.sym.toNat) ∧ (∀ e ∈ tab, entryFits e = true) ∧
      (∀ e ∈ tab, p e.sym = true) ∧ tab.Pairwise fun e f => codePrefix e f = false ∧ codePrefix f e = false := by
  simp only [tableOk, Bool.and_eq_true, risingSymbols_iff, List.all_eq_true, prefixFree_iff, and_assoc]

theorem entryFits_iff (e : RomEntry) : entryFits e = true ↔
    1 ≤ (entryString e).len ∧ (entryString e).len ≤ 16 ∧ (entryString e).bits < 2 ^ (entryString e).len := by
  simp only [entryFits, entryString, Bool.and_eq_true, decide_eq_true_eq, and_assoc]

theorem codePrefix_iff (e f : RomEntry) : codePrefix e f = true ↔ (entryString e).len ≤ (entryString f).len ∧
    (entryString f).bits / 2 ^ ((entryString f).len - (entryString e).len) = (entryString e).bits := by
  simp only [codePrefix, entryString, Bool.and_eq_true, Nat.ble_eq, Nat.beq_eq]

/-- Of two different entries of a table, neither code is a prefix of the other. -/
theorem codePrefix_eq_false_of_mem (h : tab.Pairwise fun e f => codePrefix e f = false ∧ codePrefix f e = false)
    {e f : RomEntry} (he : e ∈ tab) (hf : f ∈ tab) (hne : e ≠ f) : codePrefix e f = false := by
  have : Std.Symm fun e f => codePrefix e f = false ∧ codePrefix f e = false := ⟨fun _ _ => And.symm⟩
  exact (h.forall he hf hne).1

variable (h : tableOk p tab = true)

include h

theorem lookup_fits (hb : lookup tab s = some b) : 1 ≤ b.len ∧ b.len ≤ 16 ∧ b.bits < 2 ^ b.len := by
  obtain ⟨hrising, hfits, -, -⟩ := tableOk_iff.mp h
  obtain ⟨e, he, -, rfl⟩ := (lookup_eq_some_iff hrising s b).mp hb
  exact (entryFits_iff e).mp (hfits e he)

theorem lookup_symbolOk (hb : lookup tab s = some b) : p s = true := by
  obtain ⟨hrising, -, hsymbols, -⟩ := tableOk_iff.mp h
  obtain ⟨e, he, rfl, -⟩ := (lookup_eq_some_iff hrising s b).mp hb
  exact hsymbols e he

theorem lookup_prefixFree (hb : lookup tab s = some b) (hd : lookup tab u = some d) (hne : s ≠ u)
    (hlen : b.len ≤ d.len) : d.bits / 2 ^ (d.len - b.len) ≠ b.bits := by
  obtain ⟨hrising, -, -, hprefix⟩ := tableOk_iff.mp h
  obtain ⟨e, he, rfl, rfl⟩ := (lookup_eq_some_iff hrising s b).mp hb
  obtain ⟨f, hf, rfl, rfl⟩ := (lookup_eq_some_iff hrising u d).mp hd
  have hfalse := codePrefix_eq_false_of_mem hprefix he hf (fun heq => hne (congrArg RomEntry.sym heq))
  intro heq
  exact Bool.false_ne_true (hfalse.symm.trans ((codePrefix_iff e f).mpr ⟨hlen, heq⟩))

end Table

theorem isDcSymbol_iff (s : Byte) : isDcSymbol s = true ↔ s.toNat ≤ 11 := decide_eq_true_iff

theorem isAcSymbol_iff (s : Byte) :
    isAcSymbol s = true ↔ s = 0x00 ∨ s = 0xF0 ∨ (1 ≤ s.toNat % 16 ∧ s.toNat % 16 ≤ 10) := by
  simp only [isAcSymbol, Bool.or_eq_true, Bool.and_eq_true, beq_iff_eq, decide_eq_true_eq, or_assoc]

/-! The default tables. -/

/-- A canonical table is the canonical construction of its own BITS and HUFFVAL lists (R203). -/
theorem canon_eq_byLength_of_canonical {tab : CodeTable} {bits vals : List Nat} (hcanonical : canonical tab = true)
    (hbits : lengthCounts tab = bits) (hvals : symbolsByLength tab = vals) : canon bits vals 1 0 = byLength tab := by
  rw [canonical, Bool.and_eq_true, beq_iff_eq, hbits, hvals] at hcanonical
  exact hcanonical.1

theorem defaultDcLuma_canonical : canonical defaultDcLuma = true := by decide
theorem defaultDcChroma_canonical : canonical defaultDcChroma = true := by decide
theorem defaultAcLuma_canonical : canonical defaultAcLuma = true := by decide +kernel
theorem defaultAcChroma_canonical : canonical defaultAcChroma = true := by decide +kernel

theorem defaultConfig_code_ne_ones (t : TableId) : ∀ e ∈ huff defaultConfig t, e.code.toNat ≠ 2 ^ e.len.toNat - 1 := by
  cases t <;> decide +kernel

/-! The entry of each symbol, and the tokens of a symbol with its entry. -/

/-- The table entry of a DC difference; a category above 11 has none (R221, R224). -/
def dcEntry (c : Config) (cls : ChannelClass) (diff : Int) : Option BitString :=
  if category diff ≤ 11 then hrom c (dcTable cls) (BitVec.ofNat 8 (category diff)) else none

/-- The tokens of a DC difference with its entry (R202, R221). -/
def dcPart (diff : Int) (e : BitString) : List Token :=
  ⟨.dcCode, e⟩ :: if diff = 0 then [] else [⟨.dcValue, vliBits diff⟩]

/-- The symbol byte of an AC item (R94, R172). -/
def AcItem.symbol : AcItem → Byte
  | .zrl => 0xF0
  | .rc run cat _ => acSymbol run cat
  | .eob => 0x00

/-- The table entry of an AC item; a category above 10 has none (R222, R224). -/
def acEntry (c : Config) (cls : ChannelClass) : AcItem → Option BitString
  | .zrl => hrom c (acTable cls) 0xF0
  | .rc run cat _ => if cat ≤ 10 then hrom c (acTable cls) (acSymbol run cat) else none
  | .eob => hrom c (acTable cls) 0x00

/-- The token types of an AC item (R93, R202). -/
def AcItem.types : AcItem → List TokenType
  | .zrl => [.zrl]
  | .rc _ _ _ => [.acCode, .acValue]
  | .eob => [.eob]

/-- The tokens of an AC item with its entry (R202, R222). -/
def codedTokens (p : AcItem × BitString) : List Token :=
  match p.1 with
  | .zrl => [⟨.zrl, p.2⟩]
  | .rc _ _ v => [⟨.acCode, p.2⟩, ⟨.acValue, vliBits v⟩]
  | .eob => [⟨.eob, p.2⟩]

/-- A token of value bits, not of a code (R93). -/
def Token.isValue (t : Token) : Bool := t.ttype == .dcValue || t.ttype == .acValue

section Symbols

variable (c : Config) (cls : ChannelClass)

theorem dcTokens_eq_map_dcEntry (diff : Int) : dcTokens c cls diff = (dcEntry c cls diff).map (dcPart diff) := by
  have hvalue : 0 < category diff ↔ ¬ diff = 0 := Nat.pos_iff_ne_zero.trans (category_eq_zero_iff diff).not
  have hpart : (fun e => ⟨.dcCode, e⟩ :: if 0 < category diff then [⟨.dcValue, vliBits diff⟩] else []) = dcPart diff := by
    simp only [hvalue, ite_not]
    rfl
  rw [dcTokens, dcEntry, hpart, apply_ite (Option.map (dcPart diff)), Option.map_none]

theorem acTokens_eq_map_acEntry (x : AcItem) :
    acTokens c cls x = (acEntry c cls x).map fun e => codedTokens (x, e) := by
  cases x with
  | zrl => rfl
  | rc run cat v =>
    rw [acTokens, acEntry, apply_ite (Option.map fun e => codedTokens (.rc run cat v, e)), Option.map_none]
    rfl
  | eob => rfl

variable {c cls}

theorem hrom_of_dcEntry {diff : Int} {e : BitString} (h : dcEntry c cls diff = some e) :
    hrom c (dcTable cls) (BitVec.ofNat 8 (category diff)) = some e :=
  (Option.ite_none_right_eq_some.mp h).2

/-- Where an item has an entry, it is what the AC table holds of its symbol. -/
theorem hrom_symbol_of_acEntry {x : AcItem} {e : BitString} (h : acEntry c cls x = some e) :
    hrom c (acTable cls) x.symbol = some e := by
  cases x with
  | zrl => exact h
  | rc run cat v => exact (Option.ite_none_right_eq_some.mp h).2
  | eob => exact h

end Symbols

/-! The tokens of a block, symbol by symbol. -/

/-- The items before the first one without an entry, paired with their entries, give the tokens; `post` is what is left of
the items, and there is a first one without an entry exactly when it is not empty (R224, R227). -/
theorem collect_acTokens (c : Config) (cls : ChannelClass) (items : List AcItem) :
    ∃ (ps : List (AcItem × BitString)) (post : List AcItem),
      items = ps.map Prod.fst ++ post ∧ (∀ p ∈ ps, acEntry c cls p.1 = some p.2) ∧
      (∀ x ∈ post.head?, acEntry c cls x = none) ∧
      collect (items.map (acTokens c cls)) = (ps.flatMap codedTokens, post.isEmpty) := by
  induction items with
  | nil => exact ⟨[], [], rfl, by simp, by simp, rfl⟩
  | cons x items ih =>
    rw [List.map_cons, acTokens_eq_map_acEntry]
    cases he : acEntry c cls x with
    | none => exact ⟨[], x :: items, rfl, by simp, by simpa using he, rfl⟩
    | some e =>
      obtain ⟨ps, post, hitems, hentries, hstop, htokens⟩ := ih
      refine ⟨(x, e) :: ps, post, congrArg (x :: ·) hitems, List.forall_mem_cons.mpr ⟨he, hentries⟩, hstop, ?_⟩
      rw [Option.map_some, collect, htokens, List.flatMap_cons]

/-- Everything the tokens of a block can be: none, without an entry for the DC symbol; else those of the DC part and of the
AC items before the first one without an entry. -/
theorem blockTokens_cases (c : Config) (comp : Component) (r : Regs) :
    (dcEntry c (classOfComponent comp) (dcDiff r comp r.dc) = none ∧ blockTokens c comp r = ([], false)) ∨
    ∃ (e : BitString) (ps : List (AcItem × BitString)) (post : List AcItem),
      dcEntry c (classOfComponent comp) (dcDiff r comp r.dc) = some e ∧ acSymbols r.acs = ps.map Prod.fst ++ post ∧
      (∀ p ∈ ps, acEntry c (classOfComponent comp) p.1 = some p.2) ∧
      (∀ x ∈ post.head?, acEntry c (classOfComponent comp) x = none) ∧
      blockTokens c comp r = (dcPart (dcDiff r comp r.dc) e ++ ps.flatMap codedTokens, post.isEmpty) := by
  rw [blockTokens, dcTokens_eq_map_dcEntry]
  cases dcEntry c (classOfComponent comp) (dcDiff r comp r.dc) with
  | none => exact .inl ⟨rfl, rfl⟩
  | some e =>
    obtain ⟨ps, post, hitems, hentries, hstop, htokens⟩ := collect_acTokens c (classOfComponent comp) (acSymbols r.acs)
    exact .inr ⟨e, ps, post, rfl, hitems, hentries, hstop, by rw [Option.map_some, collect, htokens]⟩

section Block

variable {c : Config} {comp : Component} {r : Regs} {toks : List Token}

/-- Every symbol of a block whose tokens are complete has an entry. -/
theorem blockTokens_complete (h : blockTokens c comp r = (toks, true)) :
    ∃ (e : BitString) (ps : List (AcItem × BitString)),
      dcEntry c (classOfComponent comp) (dcDiff r comp r.dc) = some e ∧ acSymbols r.acs = ps.map Prod.fst ∧
      (∀ p ∈ ps, acEntry c (classOfComponent comp) p.1 = some p.2) ∧
      toks = dcPart (dcDiff r comp r.dc) e ++ ps.flatMap codedTokens := by
  obtain ⟨-, hnone⟩ | ⟨e, ps, post, hdc, hitems, hentries, -, htokens⟩ := blockTokens_cases c comp r
  · simp [hnone] at h
  · rw [htokens, Prod.mk.injEq, List.isEmpty_iff] at h
    obtain ⟨rfl, rfl⟩ := h
    exact ⟨e, ps, hdc, by rw [hitems, List.append_nil], hentries, rfl⟩

/-- The tokens of a block that are not complete end before the first symbol without an entry (R224, R227). -/
theorem blockTokens_incomplete (h : blockTokens c comp r = (toks, false)) :
    (dcEntry c (classOfComponent comp) (dcDiff r comp r.dc) = none ∧ toks = []) ∨
    ∃ (e : BitString) (ps : List (AcItem × BitString)) (x : AcItem) (post : List AcItem),
      dcEntry c (classOfComponent comp) (dcDiff r comp r.dc) = some e ∧ acSymbols r.acs = ps.map Prod.fst ++ x :: post ∧
      (∀ p ∈ ps, acEntry c (classOfComponent comp) p.1 = some p.2) ∧ acEntry c (classOfComponent comp) x = none ∧
      toks = dcPart (dcDiff r comp r.dc) e ++ ps.flatMap codedTokens := by
  obtain ⟨hdc, hnone⟩ | ⟨e, ps, post, hdc, hitems, hentries, hstop, htokens⟩ := blockTokens_cases c comp r
  · rw [hnone, Prod.mk.injEq] at h
    exact .inl ⟨hdc, h.1.symm⟩
  · rw [htokens, Prod.mk.injEq] at h
    obtain ⟨rfl, hpost⟩ := h
    cases post with
    | nil => cases hpost
    | cons x post => exact .inr ⟨e, ps, x, post, hdc, hitems, hentries, hstop x rfl, rfl⟩

end Block

/-! The types, the value bits and the codes of the tokens of one symbol, and of a list of items. -/

section DcPart

variable (diff : Int) (e : BitString)

theorem dcPart_types : (dcPart diff e).map Token.ttype = .dcCode :: if diff = 0 then [] else [.dcValue] := by
  unfold dcPart; split <;> rfl

theorem dcPart_values :
    ((dcPart diff e).filter Token.isValue).map Token.str = if diff = 0 then [] else [vliBits diff] := by
  unfold dcPart; split <;> rfl

theorem dcPart_codes : ((dcPart diff e).filter fun t => !t.isValue).map Token.str = [e] := by
  unfold dcPart; split <;> rfl

end DcPart

section Items

variable (p : AcItem × BitString) (ps : List (AcItem × BitString))

theorem codedTokens_types : (codedTokens p).map Token.ttype = p.1.types := by
  obtain ⟨x, e⟩ := p; cases x <;> rfl

theorem codedTokens_values : ((codedTokens p).filter Token.isValue).map Token.str = p.1.value?.toList.map vliBits := by
  obtain ⟨x, e⟩ := p; cases x <;> rfl

theorem codedTokens_codes : ((codedTokens p).filter fun t => !t.isValue).map Token.str = [p.2] := by
  obtain ⟨x, e⟩ := p; cases x <;> rfl

theorem flatMap_codedTokens_types :
    (ps.flatMap codedTokens).map Token.ttype = (ps.map Prod.fst).flatMap AcItem.types := by
  simp only [List.map_flatMap, codedTokens_types, List.flatMap_map]

theorem flatMap_codedTokens_values : ((ps.flatMap codedTokens).filter Token.isValue).map Token.str =
    ((ps.map Prod.fst).filterMap AcItem.value?).map vliBits := by
  simp only [List.filter_flatMap, List.map_flatMap, codedTokens_values, List.filterMap_eq_flatMap_toList, List.flatMap_map]

theorem flatMap_codedTokens_codes :
    ((ps.flatMap codedTokens).filter fun t => !t.isValue).map Token.str = ps.map Prod.snd := by
  simp only [List.filter_flatMap, List.map_flatMap, codedTokens_codes]
  exact List.map_eq_flatMap.symm

end Items

/-! The types, the value bits and the codes of the tokens of a block without a symbol that has no code (R202, R225). -/

section Complete

variable {c : Config} {comp : Component} {r : Regs} {toks : List Token} (h : blockTokens c comp r = (toks, true))

include h

theorem blockTokens_types : toks.map Token.ttype =
    (.dcCode :: if dcDiff r comp r.dc = 0 then [] else [.dcValue]) ++ (acSymbols r.acs).flatMap AcItem.types := by
  obtain ⟨e, ps, -, hitems, -, rfl⟩ := blockTokens_complete h
  rw [List.map_append, dcPart_types, flatMap_codedTokens_types, hitems]

theorem blockTokens_values : (toks.filter Token.isValue).map Token.str =
    (if dcDiff r comp r.dc = 0 then [] else [vliBits (dcDiff r comp r.dc)]) ++
      (r.acs.filter fun v => v ≠ 0).map vliBits := by
  obtain ⟨e, ps, -, hitems, -, rfl⟩ := blockTokens_complete h
  rw [List.filter_append, List.map_append, dcPart_values, flatMap_codedTokens_values, ← hitems, filterMap_value?_acSymbols]

theorem blockTokens_codes : ((toks.filter fun t => !t.isValue).map Token.str).map some =
    hrom c (dcTable (classOfComponent comp)) (BitVec.ofNat 8 (category (dcDiff r comp r.dc))) ::
      (acSymbols r.acs).map fun x => hrom c (acTable (classOfComponent comp)) x.symbol := by
  obtain ⟨e, ps, hdc, hitems, hentries, rfl⟩ := blockTokens_complete h
  have hcodes : ps.map (fun p => hrom c (acTable (classOfComponent comp)) p.1.symbol) = (ps.map Prod.snd).map some := by
    rw [List.map_map]
    exact List.map_congr_left fun p hp => hrom_symbol_of_acEntry (hentries p hp)
  rw [List.filter_append, List.map_append, dcPart_codes, flatMap_codedTokens_codes, hitems, List.map_map,
    hrom_of_dcEntry hdc]
  exact congrArg (some e :: ·) hcodes.symm

end Complete

end Sys2Proof.Machine

open Sys2Proof Sys2Proof.Machine

/-- Settles O23, from the one fact that `v` has at most category `c` exactly when `|v| < 2 ^ c`. -/
theorem categoryBoundsTheMagnitude : Obligations.CategoryBoundsTheMagnitude :=
  fun v => ⟨category_eq_zero_iff v, fun _ => category_eq_iff v, category_le_of_range⟩

/-- Settles O24, from the two halves of the range of a category: the upper half is of the positive values, the lower half
of the negative ones, so that the first bit tells the sign. -/
theorem valueBitsRoundTrip : Obligations.ValueBitsRoundTrip := by
  intro v
  refine ⟨vliBits_len v, ?fits, vliBits_bits_of_nonneg, vliBits_bits_of_neg, vliBits_testBit_of_pos,
    vliBits_testBit_of_neg, unvli_vliBits v⟩
  case fits =>
    rw [vliBits_len]
    exact vliBits_bits_lt v

/-- Settles O38, from the facts that the checks of a table give each of its lookups. -/
theorem admissibleTablesArePrefixFree : Obligations.AdmissibleTablesArePrefixFree := by
  intro c t h
  have htable := tableOk_of_admissible h t
  refine ⟨fun s e => lookup_fits htable, fun s u e f => lookup_prefixFree htable, ?dcSymbols, ?acSymbols⟩
  case dcSymbols =>
    rintro s e (rfl | rfl) he <;> exact (isDcSymbol_iff s).mp (lookup_symbolOk htable he)
  case acSymbols =>
    rintro s e (rfl | rfl) he <;> exact (isAcSymbol_iff s).mp (lookup_symbolOk htable he)

/-- Settles O47, from the tokens of a block symbol by symbol: with an entry for every symbol, and up to the first symbol
without one. -/
theorem tokensFollowTheSymbolOrder : Obligations.TokensFollowTheSymbolOrder := by
  refine ⟨fun c comp r toks h => ⟨?types, ?values, ?codes⟩, fun c comp r toks h => ?incomplete⟩
  case types =>
    refine (blockTokens_types h).trans (congrArg _ (List.flatMap_congr fun x _ => ?_))
    cases x <;> rfl
  case values => exact blockTokens_values h
  case codes =>
    refine (List.map_map.symm.trans (blockTokens_codes h)).trans (congrArg _ (List.map_congr_left fun x _ => ?_))
    cases x <;> rfl
  case incomplete =>
    rcases blockTokens_incomplete h with hdc | ⟨e, ps, x, post, hdc, hitems, hentries, hx, rfl⟩
    · exact .inl hdc
    · refine .inr ⟨e, ps.map Prod.fst, post, x, ps.map Prod.snd, hdc, hitems, ?entries, ?stop, ?tokens⟩
      case entries =>
        rw [List.map_map, List.map_map]
        exact List.map_congr_left hentries
      case stop => exact hx
      case tokens =>
        rw [List.zip_map', List.map_id']
        rfl

/-- Settles O36, from what VLI does in each mode, and from the decoder's row for opcode 6 when a reserved bit is set. -/
theorem vliEmitsCategoryAndValueBits : Obligations.VliEmitsCategoryAndValueBits := by
  intro v s hi
  refine ⟨?run, ?fault, ?reservedBit⟩
  case run =>
    intro hm hr
    refine ⟨_, _, execVli_of_run hi hm hr v, vliBits_len_field v, ?nonneg, ?neg⟩
    case nonneg =>
      intro hv
      rw [vliBits_bits_field]
      exact vliBits_bits_of_nonneg hv
    case neg =>
      intro hv
      rw [vliBits_bits_field]
      exact vliBits_bits_of_neg hv
  case fault => exact fun hm => execVli_of_fault hm v
  case reservedBit =>
    intro w hop hbit
    exact takesAsIllegal_of_decode_error hi ((decode_of_opcode_vli hop).trans (whenZero_of_ne hbit))

/-- Settles O37, from what HLK does in each mode, and from the decoder's row for opcode 7 when a reserved bit is set. -/
theorem hlkEmitsTheCode : Obligations.HlkEmitsTheCode := by
  intro t sym s hi
  refine ⟨?run, ?fault, ?reservedBit⟩
  case run =>
    intro table ht hm hr
    obtain rfl := (tableOf_eq_iff t table).mpr ht
    exact ⟨fun e he => execHlk_of_code hi hm hr he, fun he => execHlk_of_no_code hi hm hr he⟩
  case fault => exact fun hm => execHlk_of_fault hm
  case reservedBit =>
    intro w hop hbit
    exact takesAsIllegal_of_decode_error hi ((decode_of_opcode_hlk hop).trans (whenZero_of_ne hbit))

/-- Settles O39: each default table is canonical, and the lists of R201 are its own BITS and HUFFVAL. -/
theorem defaultTablesAreCanonical : Obligations.DefaultTablesAreCanonical := by
  refine ⟨⟨⟨?_, defaultDcLuma_canonical⟩, ⟨?_, defaultDcChroma_canonical⟩, ⟨?_, defaultAcLuma_canonical⟩,
    ⟨?_, defaultAcChroma_canonical⟩⟩, defaultConfig_code_ne_ones⟩
  · exact canon_eq_byLength_of_canonical defaultDcLuma_canonical (by decide) (by decide)
  · exact canon_eq_byLength_of_canonical defaultDcChroma_canonical (by decide) (by decide)
  · exact canon_eq_byLength_of_canonical defaultAcLuma_canonical (by decide +kernel) (by decide +kernel)
  · exact canon_eq_byLength_of_canonical defaultAcChroma_canonical (by decide +kernel) (by decide +kernel)
end

