-- ==== Sys2Proof/Proofs/BlockEncode.lean ====
section
/-! PROOFS. What ENC does with a full block whose symbols all have codes (O43, R226), how many tokens such a block has and how
long they are (O48, R228), and DCP, VLI and HLK on the parts of such a block (O49, R229). -/

namespace Sys2Proof.Machine

/-! The coefficients of a block. -/

@[simp] theorem length_acs (r : Regs) : r.acs.length = 63 := by simp [Regs.acs]

theorem getLast?_acs (r : Regs) : r.acs.getLast? = some (sext16 (r.coef 63)) := by
  rw [List.getLast?_eq_getElem?, length_acs]
  simp [Regs.acs, Regs.coef, at64]

theorem sext16_eq_zero_iff (v : Half) : sext16 v = 0 ↔ v = 0 := by
  rw [sext16, ← BitVec.toInt_inj]
  rfl

theorem getLast?_acs_eq_zero_iff (r : Regs) : r.acs.getLast? = some 0 ↔ r.coef 63 = 0 := by
  rw [getLast?_acs, Option.some_inj, sext16_eq_zero_iff]

theorem count_eob_acSymbols_acs (r : Regs) : (acSymbols r.acs).count .eob = if r.coef 63 = 0 then 1 else 0 := by
  simp only [count_eob_acSymbols, getLast?_acs_eq_zero_iff]

/-! What ENC does with a full block. -/

theorem execEnc_of_block {s : State} {comp : BitVec 2} {c : Component} {toks : List Token}
    (hi : s.inflight = none) (hm : s.regs.mode = .run) (hc : componentOf comp = some c) (hfull : s.regs.full = true)
    (htoks : blockTokens s.cfg c s.regs = (toks, true)) (hr : s.hasRoom toks.length = true) : execEnc comp s =
      .next { s with out := s.out ++ toks.map tokenWord, regs := s.regs.blockDone c } := by
  simp only [execEnc, inRun_run hm, hc, hfull, htoks, blockEffect, if_true]
  exact done_of_room hi (by rwa [List.length_map])

/-! How many items a block has, and how many tokens they have. -/

/-- Each item stands for at least one coefficient of its own. -/
theorem length_acSymbols_le (a : List Int) : (acSymbols a).length ≤ a.length := by
  induction a using zeroRun_induction with
  | nil => simp
  | zeros k => simp
  | run k v vs hv ih =>
    simp only [acSymbols_run k hv, List.length_append, List.length_replicate, List.length_cons]
    omega

/-- An RC has two tokens, a ZRL and an EOB one each (R228). -/
theorem length_flatMap_types (items : List AcItem) : (items.flatMap AcItem.types).length =
    2 * (items.filterMap AcItem.value?).length + items.count .zrl + items.count .eob := by
  induction items with
  | nil => rfl
  | cons x items ih =>
    rw [List.flatMap_cons, List.length_append, ih]
    cases x <;> simp [AcItem.types, AcItem.value?, List.filterMap_cons] <;> omega

theorem length_flatMap_types_bounds (items : List AcItem) :
    items.length ≤ (items.flatMap AcItem.types).length ∧ (items.flatMap AcItem.types).length ≤ 2 * items.length := by
  induction items with
  | nil => exact ⟨le_rfl, le_rfl⟩
  | cons x items ih =>
    have hx : 1 ≤ x.types.length ∧ x.types.length ≤ 2 := by cases x <;> simp [AcItem.types]
    rw [List.flatMap_cons, List.length_append, List.length_cons]
    omega

/-! How long a token is. -/

/-- A bit string of 1 to `n` bits, whose value fits its length. -/
def FitsIn (n : Nat) (b : BitString) : Prop := 1 ≤ b.len ∧ b.len ≤ n ∧ b.bits < 2 ^ b.len

theorem vliBits_fitsIn {v : Int} {n : Nat} (hv : v ≠ 0) (hn : category v ≤ n) : FitsIn n (vliBits v) := by
  rw [FitsIn, vliBits_len]
  exact ⟨category_pos hv, hn, vliBits_bits_lt v⟩

theorem hrom_fitsIn {c : Config} (hc : admissible c = true) {t : TableId} {s : Byte} {e : BitString}
    (h : hrom c t s = some e) : FitsIn 16 e := lookup_fits (tableOk_of_admissible hc t) h

/-- How many bits a list of tokens has (R228). -/
def bitCount (ts : List Token) : Nat := (ts.map fun t => t.str.len).sum

@[simp] theorem bitCount_nil : bitCount [] = 0 := rfl
@[simp] theorem bitCount_append (ts us : List Token) : bitCount (ts ++ us) = bitCount ts + bitCount us := by
  simp [bitCount]

/-- Every token has 1 to 16 bits, and together they have at most `n`. -/
def TokensFit (n : Nat) (ts : List Token) : Prop := (∀ t ∈ ts, FitsIn 16 t.str) ∧ bitCount ts ≤ n

theorem tokensFit_singleton {n : Nat} {t : Token} (h : FitsIn n t.str) (hn : n ≤ 16) : TokensFit n [t] := by
  obtain ⟨hpos, hlen, hbits⟩ := h
  exact ⟨List.forall_mem_singleton.mpr ⟨hpos, hlen.trans hn, hbits⟩, hlen⟩

theorem TokensFit.mono {m n : Nat} {ts : List Token} (h : TokensFit m ts) (hmn : m ≤ n) : TokensFit n ts :=
  ⟨h.1, h.2.trans hmn⟩

theorem TokensFit.append {m n : Nat} {ts us : List Token} (ht : TokensFit m ts) (hu : TokensFit n us) :
    TokensFit (m + n) (ts ++ us) := by
  refine ⟨fun t h => (List.mem_append.mp h).elim (ht.1 t) (hu.1 t), ?_⟩
  rw [bitCount_append]
  exact Nat.add_le_add ht.2 hu.2

theorem tokensFit_flatMap {α : Type} {f : α → List Token} {n : Nat} {ps : List α} (h : ∀ p ∈ ps, TokensFit n (f p)) :
    TokensFit (ps.length * n) (ps.flatMap f) := by
  induction ps with
  | nil => exact ⟨by simp, by simp⟩
  | cons p ps ih =>
    obtain ⟨hp, hps⟩ := List.forall_mem_cons.mp h
    rw [List.flatMap_cons, List.length_cons, Nat.add_mul, Nat.one_mul, Nat.add_comm]
    exact hp.append (ih hps)

/-! The bits of the tokens of one symbol, and of a block. -/

theorem dcPart_fit {diff : Int} {e : BitString} (he : FitsIn 16 e) (hdiff : category diff ≤ 11) :
    TokensFit (16 + 11) (dcPart diff e) := by
  have hcode : TokensFit 16 [⟨.dcCode, e⟩] := tokensFit_singleton he le_rfl
  unfold dcPart
  split
  case isTrue => exact hcode.mono (by decide)
  case isFalse h => exact hcode.append (tokensFit_singleton (vliBits_fitsIn h hdiff) (by decide))

theorem codedTokens_fit {x : AcItem} {e : BitString} (he : FitsIn 16 e) (hx : ∀ v ∈ x.value?, FitsIn 10 (vliBits v)) :
    TokensFit (16 + 10) (codedTokens (x, e)) := by
  have hcode (type : TokenType) : TokensFit 16 [⟨type, e⟩] := tokensFit_singleton he le_rfl
  cases x with
  | zrl => exact (hcode .zrl).mono (by decide)
  | rc run cat v => exact (hcode .acCode).append (tokensFit_singleton (hx v rfl) (by decide))
  | eob => exact (hcode .eob).mono (by decide)

theorem category_le_of_dcEntry {c : Config} {cls : ChannelClass} {diff : Int} {e : BitString}
    (h : dcEntry c cls diff = some e) : category diff ≤ 11 := (Option.ite_none_right_eq_some.mp h).1

/-- The value bits of an item that has an entry fit in 10 bits, since a category above 10 has none (R224). -/
theorem value?_fitsIn_of_acEntry {c : Config} {cls : ChannelClass} {a : List Int} {x : AcItem} {e : BitString}
    (hx : x ∈ acSymbols a) (he : acEntry c cls x = some e) : ∀ v ∈ x.value?, FitsIn 10 (vliBits v) := by
  cases x with
  | zrl => rintro v ⟨⟩
  | rc run cat v =>
    rintro v ⟨⟩
    obtain ⟨-, -, rfl, hv⟩ := rc_of_mem_acSymbols hx
    exact vliBits_fitsIn hv (Option.ite_none_right_eq_some.mp he).1
  | eob => rintro v ⟨⟩

section Complete

variable {c : Config} {comp : Component} {r : Regs} {toks : List Token} (h : blockTokens c comp r = (toks, true))

include h

theorem length_blockTokens : toks.length =
    1 + (if dcDiff r comp r.dc = 0 then 0 else 1) + ((acSymbols r.acs).flatMap AcItem.types).length := by
  have hlength := congrArg List.length (blockTokens_types h)
  simpa only [List.length_map, List.length_append, List.length_cons, apply_ite List.length, List.length_nil,
    Nat.add_comm _ 1, Nat.zero_add] using hlength

theorem length_blockTokens_bounds : 2 ≤ toks.length ∧ toks.length ≤ 128 := by
  have hpos : 0 < (acSymbols r.acs).length :=
    List.length_pos_of_ne_nil (mt (acSymbols_eq_nil_iff r.acs).mp (List.ne_nil_of_length_pos (by simp)))
  have hitems := length_acSymbols_le r.acs
  have htypes := length_flatMap_types_bounds (acSymbols r.acs)
  rw [length_acs] at hitems
  rw [length_blockTokens h]
  split <;> omega

theorem blockTokens_fit (hc : admissible c = true) : TokensFit 1665 toks := by
  obtain ⟨e, ps, hdc, hitems, hentries, rfl⟩ := blockTokens_complete h
  have hdcPart := dcPart_fit (hrom_fitsIn hc (hrom_of_dcEntry hdc)) (category_le_of_dcEntry hdc)
  have hacParts : ∀ p ∈ ps, TokensFit (16 + 10) (codedTokens p) := fun p hp =>
    codedTokens_fit (hrom_fitsIn hc (hrom_symbol_of_acEntry (hentries p hp)))
      (value?_fitsIn_of_acEntry (hitems ▸ List.mem_map_of_mem hp) (hentries p hp))
  have hlength : ps.length ≤ 63 := by
    have hle := length_acSymbols_le r.acs
    rwa [hitems, List.length_map, length_acs] at hle
  exact (hdcPart.append (tokensFit_flatMap hacParts)).mono (by omega)

end Complete

/-! The words of VLI and HLK next to those of the tokens. -/

/-- The length and the bits of a bit string, as the words of a token, of VLI and of HLK hold them (R86, R89, R90). -/
def stringField (s : BitString) : BitVec 21 := BitVec.ofNat 5 s.len ++ BitVec.ofNat 16 s.bits

theorem tokenWord_stringField (t : Token) : (tokenWord t).extractLsb' 0 21 = stringField t.str := by
  have hword : tokenWord t = (0x8#4 ++ tokenCode t.ttype ++ 0#4) ++ stringField t.str := BitVec.append_assoc
  rw [hword]
  exact BitVec.extractLsb'_append_eq_right

theorem vlir_eq_append (s : BitString) : vlir s = 0x6#4 ++ 0#7 ++ stringField s := BitVec.append_assoc

theorem hlkr_eq_append (s : BitString) : hlkr s = 0x7#4 ++ 0#7 ++ stringField s := BitVec.append_assoc

/-! The operands of VLI and HLK for the parts of a block. -/

theorem sext16_ofInt_of_category_le {v : Int} (h : category v ≤ 11) : sext16 (BitVec.ofInt 16 v) = v := by
  rw [category_le_iff, abs_lt] at h
  exact BitVec.toInt_ofInt_eq_self (by decide) (by omega) (by omega)

theorem sext16_ofInt_of_mem_acs {r : Regs} {v : Int} (h : v ∈ r.acs) : sext16 (BitVec.ofInt 16 v) = v := by
  obtain ⟨q, -, rfl⟩ := List.mem_map.mp h
  rw [sext16, sext16, BitVec.ofInt_toInt]

/-- The number of the DC table that a component uses (R9, R223). -/
theorem tableOf_dcTable (c : Component) : tableOf (if c = .y then 0 else 1) = dcTable (classOfComponent c) := by
  cases c <;> rfl

/-- The number of the AC table that a component uses (R9, R223). -/
theorem tableOf_acTable (c : Component) : tableOf (if c = .y then 2 else 3) = acTable (classOfComponent c) := by
  cases c <;> rfl

theorem forall₂_of_map_eq {α β γ : Type} {f : α → γ} {g : β → γ} {as : List α} {bs : List β} (h : as.map f = bs.map g) :
    List.Forall₂ (fun a b => f a = g b) as bs := by
  rwa [← List.forall₂_eq_eq_eq, List.forall₂_map_left_iff, List.forall₂_map_right_iff] at h

/-- The DC difference of a block, unless it is 0, and the nonzero AC coefficients (R202). -/
def blockValues (r : Regs) (c : Component) : List Int :=
  (if dcDiff r c r.dc = 0 then [] else [dcDiff r c r.dc]) ++ r.acs.filter fun v => v ≠ 0

/-- The DC symbol and the AC symbols of a block, each with the number of its table (R9, R223). -/
def blockSymbols (r : Regs) (c : Component) : List (BitVec 2 × Byte) :=
  (if c = .y then 0 else 1, BitVec.ofNat 8 (category (dcDiff r c r.dc))) ::
    (acSymbols r.acs).map fun x => (if c = .y then 2 else 3, x.symbol)

section Operands

variable {cfg : Config} {c : Component} {r : Regs} {toks : List Token} (h : blockTokens cfg c r = (toks, true))

include h

/-- Each value of a block is the value of its 16-bit operand: the difference because its category is at
most 11, a coefficient because `QBUF` holds it. -/
theorem sext16_ofInt_of_mem_blockValues {v : Int} (hv : v ∈ blockValues r c) : sext16 (BitVec.ofInt 16 v) = v := by
  obtain ⟨e, ps, hdc, -⟩ := blockTokens_complete h
  rcases List.mem_append.mp hv with hv | hv
  · obtain ⟨-, hv⟩ : _ ∧ v = dcDiff r c r.dc := by simpa using hv
    exact hv ▸ sext16_ofInt_of_category_le (category_le_of_dcEntry hdc)
  · exact sext16_ofInt_of_mem_acs (List.mem_of_mem_filter hv)

/-- The value tokens hold, in order, what VLI reports of the values (R229). -/
theorem blockTokens_agree_vli : List.Forall₂ (fun t v => t.str = vliBits (sext16 (BitVec.ofInt 16 v)))
    (toks.filter Token.isValue) (blockValues r c) := by
  have hoperands : (blockValues r c).map (fun v => vliBits (sext16 (BitVec.ofInt 16 v))) = (blockValues r c).map vliBits :=
    List.map_congr_left fun v hv => congrArg vliBits (sext16_ofInt_of_mem_blockValues h hv)
  apply forall₂_of_map_eq
  rw [blockTokens_values h, hoperands, blockValues, List.map_append, apply_ite (List.map vliBits)]
  rfl

/-- The code tokens hold, in order, what HLK reports of the symbols (R229). -/
theorem blockTokens_agree_hlk : List.Forall₂ (fun t x => some t.str = hrom cfg (tableOf x.1) x.2)
    (toks.filter fun t => !t.isValue) (blockSymbols r c) := by
  have hcodes := blockTokens_codes h
  rw [← tableOf_dcTable, ← tableOf_acTable, List.map_map] at hcodes
  apply forall₂_of_map_eq
  rw [blockSymbols, List.map_cons, List.map_map]
  exact hcodes

end Operands

end Sys2Proof.Machine

open Sys2Proof Sys2Proof.Machine

/-- Settles O43, from what ENC does with a full block. -/
theorem encCompletesABlock : Obligations.EncCompletesABlock := by
  intro comp c s toks hc hm hi hloaded htoks hr
  exact execEnc_of_block hi hm ((componentOf_eq_some_iff comp c).mpr hc) ((full_iff s.regs).mpr hloaded) htoks hr

/-- Settles O48: the count from the types of the tokens, its bounds and the number of bits from the at most 63 items. -/
theorem encTokenBounds : Obligations.EncTokenBounds := by
  intro c comp r toks h
  obtain ⟨hmin, hmax⟩ := length_blockTokens_bounds h
  refine ⟨?count, hmin, hmax, blockTokens_fit h⟩
  case count =>
    have hcount := length_flatMap_types (acSymbols r.acs)
    rw [filterMap_value?_acSymbols, count_eob_acSymbols_acs] at hcount
    rw [length_blockTokens h, hcount, ← Nat.add_assoc, ← Nat.add_assoc]
    rfl

/-- Settles O49, from the strings of the tokens: those of the value tokens are the value bits that VLI reports, and those of
the code tokens are the codes that HLK reports. -/
theorem encAgreesWithDcpVliHlk : Obligations.EncAgreesWithDcpVliHlk := by
  intro comp c s toks hc hm hi ho h
  have hr := hasRoom_of_unbounded ho 1
  refine ⟨execDcp_of_component hi hm hr hc s.regs.dc, ?values, ?codes⟩
  case values =>
    refine (blockTokens_agree_vli h).imp fun t v ht => (execVli_of_run hi hm hr _).trans ?_
    rw [← ht, vlir_eq_append, tokenWord_stringField]
  case codes =>
    refine (blockTokens_agree_hlk h).imp fun t x ht => (execHlk_of_code hi hm hr ht.symm).trans ?_
    rw [hlkr_eq_append, tokenWord_stringField]
end

