-- ==== Sys2Proof/Proofs/Control.lean ====
section
/-! PROOFS. The control commands: NOP (O52, R250), INIT (O53, R251) and RDREG (O54, R252), each in either mode, and the words
of their opcodes that are illegal (R72). -/

namespace Sys2Proof

theorem decode_rdreg_error {w : Word} (hop : w.extractLsb' 28 4 = 0x9)
    (h : w.extractLsb' 8 20 ≠ 0 ∨ ¬ w.extractLsb' 0 8 ≤ 6) : ∃ e, decode w = .error e := by
  rw [decode_of_opcode_rdreg hop]
  by_cases hreserved : w.extractLsb' 8 20 = 0
  · have hregister := h.resolve_left (not_not_intro hreserved)
    exact ⟨_, by rw [if_pos hreserved, if_neg hregister]⟩
  · exact ⟨_, if_neg hreserved⟩

end Sys2Proof

namespace Sys2Proof.Machine

theorem execInit_of_idle {s : State} (hi : s.inflight = none) : execInit s = .next { s with regs := s.regs.initialise } :=
  done_nil hi _

/-- INIT writes constants, so a second one changes nothing (R251). -/
theorem execInit_after_initialise {s : State} (hi : s.inflight = none) :
    execInit { s with regs := s.regs.initialise } = .next { s with regs := s.regs.initialise } :=
  execInit_of_idle (s := { s with regs := s.regs.initialise }) hi

theorem cleanEntry_initialise {s : State} (hi : s.inflight = none) :
    ({ s with regs := s.regs.initialise } : State).cleanEntry = true := by
  simp [State.cleanEntry, Regs.initialise, hi]

theorem execRdreg_of_register {s : State} {reg : Byte} {d : BitVec 24} (hi : s.inflight = none) (hr : s.hasRoom 1 = true)
    (hd : s.regs.register reg = some d) : execRdreg reg s = .next { s with out := s.out ++ [regr reg d] } := by
  rw [execRdreg, hd]
  exact done_of_room hi hr

theorem modeBit_eq_ofBool (m : Mode) : modeBit m = BitVec.ofBool (m == .fault) := by cases m <;> rfl

theorem full_eq_decide (r : Regs) : r.full = decide (∀ k : Fin 64, r.isLoaded (BitVec.ofFin k) = true) := by
  rw [Bool.eq_iff_iff, decide_eq_true_iff, full_iff]
  exact ⟨fun h k => h (BitVec.ofFin k), fun h k => h k.toFin⟩

/-- STATUS, with FULL and MODE spelled out (R32). -/
theorem register_zero (r : Regs) : r.register 0 = some (0#18 ++
    BitVec.ofBool (decide (∀ k : Fin 64, r.isLoaded (BitVec.ofFin k) = true)) ++
    BitVec.ofBool (r.mode == .fault) ++ r.cause) := by
  rw [← full_eq_decide, ← modeBit_eq_ofBool]
  rfl

end Sys2Proof.Machine

open Sys2Proof Sys2Proof.Machine

/-- Settles O52: NOP's outcome is the state itself, and the decoder's row for opcode 0 refuses a word with a
reserved bit set. -/
theorem nopDoesNothing : Obligations.NopDoesNothing := by
  intro s
  refine ⟨rfl, ?reservedBit⟩
  case reservedBit =>
    intro hi w hop hbit
    exact takesAsIllegal_of_decode_error hi ((decode_of_opcode_nop hop).trans (whenZero_of_ne hbit))

/-- Settles O53: INIT emits nothing, so it completes whatever OUT holds, and a second one writes
the same registers. -/
theorem initStartsAnEncode : Obligations.InitStartsAnEncode := by
  intro s hi
  refine ⟨⟨_, execInit_of_idle hi, rfl, initialise_qbuf s.regs, cleanEntry_initialise hi, ?again⟩, ?reservedBit⟩
  case again => exact execInit_after_initialise hi
  case reservedBit =>
    intro w hop hbit
    exact takesAsIllegal_of_decode_error hi ((decode_of_opcode_init hop).trans (whenZero_of_ne hbit))

/-- Settles O54, from the contents of each register, and from the decoder's row for opcode 9 when a reserved bit is set or no
register has the number. -/
theorem rdregEmitsTheRegister : Obligations.RdregEmitsTheRegister := by
  intro s hi
  refine ⟨?register, ?illegal⟩
  case register =>
    intro hr
    exact ⟨execRdreg_of_register hi hr (register_zero s.regs), execRdreg_of_register (reg := 1) hi hr rfl,
      execRdreg_of_register (reg := 2) hi hr rfl, execRdreg_of_register (reg := 3) hi hr rfl,
      execRdreg_of_register (reg := 4) hi hr rfl, execRdreg_of_register (reg := 5) hi hr rfl,
      execRdreg_of_register (reg := 6) hi hr rfl⟩
  case illegal =>
    intro w hop h
    obtain ⟨e, he⟩ := decode_rdreg_error hop h
    exact takesAsIllegal_of_decode_error hi he
end

