-- ==== Sys2Proof/Proofs/Exceptions.lean ====
section
/-! PROOFS. The fault state: what each command and each illegal word does in it (O19, R275). -/

namespace Sys2Proof.Machine

/-- RDREG of a defined register emits its REGR word in either mode, and waits where OUT has no room (R58, R252). -/
theorem exec_rdreg_of_register {s : State} {reg : Byte} {d : BitVec 24} (hd : s.regs.register reg = some d) :
    exec (.rdreg reg) s = .next (s.complete ⟨[regr reg d], s.regs⟩) := by
  rw [exec, execRdreg, hd]
  rfl

/-- Of all that a command can do, only being discarded is left to one other than INIT and RDREG in FAULT mode (R275). -/
theorem exec_of_fault {s : State} {i : Instr} (hm : s.regs.mode = .fault) (hinit : i ≠ .init)
    (hrdreg : ∀ reg, i ≠ .rdreg reg) : exec i s = .next s := by
  obtain ⟨hsame, -⟩ | ⟨h, -⟩ | ⟨reg, -, h, -⟩ | ⟨hrun, -⟩ := exec_cases i s
  · exact hsame
  · exact absurd h hinit
  · exact absurd h (hrdreg reg)
  · rw [hm] at hrun
    cases hrun

end Sys2Proof.Machine

open Sys2Proof Sys2Proof.Machine

/-- Settles O19, from what a command can do in FAULT mode, from INIT and RDREG doing the same in both modes, and from the
outcome of an illegal word in FAULT mode. -/
theorem faultStateDiscardsCommands : Obligations.FaultStateDiscardsCommands := by
  intro s hm
  refine ⟨fun i => exec_of_fault hm, rfl, fun reg d => exec_rdreg_of_register, ?illegalWord⟩
  case illegalWord =>
    intro w rest e hi hc he
    exact (step_of_decode_error hi hc he).trans (illegal_of_fault hm)
end

