-- ==== Sys2Proof/Proofs/Reset.lean ====
section
/-! PROOFS. Reset by the host (O55, R300), by way of the registers that INIT and reset leave alike (R301). -/

namespace Sys2Proof.Machine

@[simp] theorem hostReset_cfg (s : State) : s.hostReset.cfg = s.cfg := rfl
@[simp] theorem hostReset_out (s : State) : s.hostReset.out = [] := rfl
@[simp] theorem hostReset_cmd (s : State) : s.hostReset.cmd = [] := rfl
@[simp] theorem hostReset_inflight (s : State) : s.hostReset.inflight = none := rfl

/-- INIT finds nothing to write in the registers that reset leaves (R301). -/
theorem hostReset_regs_initialise (s : State) : s.hostReset.regs.initialise = s.hostReset.regs := rfl

theorem reset_register {reg : Byte} (h : reg.toNat ≤ 6) : Regs.reset.register reg = some 0 := by
  unfold Regs.register
  interval_cases reg.toNat <;> decide

/-- Each of the registers 0 to 6 reads 0 after INIT (R31, R251): none of them shows `QBUF`, the only item that INIT keeps. -/
theorem initialise_register (r : Regs) {reg : Byte} (h : reg.toNat ≤ 6) : r.initialise.register reg = some 0 :=
  calc r.initialise.register reg = Regs.reset.register reg := rfl
    _ = some 0 := reset_register h

end Sys2Proof.Machine

open Sys2Proof Sys2Proof.Machine

/-- Settles O55: each item of the registers is what INIT writes, and the streams, the command in progress and the configuration
are what reset makes of any state. -/
theorem resetSetsTheResetState : Obligations.ResetSetsTheResetState := by
  intro s
  rw [← hostReset_regs_initialise]
  refine ⟨initialise_mode _, initialise_cause _, initialise_pred _ .y, initialise_pred _ .cb, initialise_pred _ .cr,
    initialise_loaded _, hostReset_out s, hostReset_cmd s, hostReset_inflight s, hostReset_cfg s,
    fun _ => initialise_register _, ?initialState, resetWith_out _, resetWith_cmd _⟩
  case initialState =>
    exact cleanEntry_initialise (s := State.reset) (resetWith_inflight _)
end

