-- ==== Sys2Proof/Proofs/Encoding.lean ====
section
/-! PROOFS. Decoder and encoder as inverse to each other on the legal words (O2, O3, R73 to R83), ten words written out (O4),
and the words that bytes deliver (O57, R53, R54). -/

namespace Sys2Proof

theorem whenZero_of_eq {n : Nat} {op : BitVec 4} {reserved : BitVec n} {i : Instr} (h : reserved = 0) :
    whenZero op reserved i = .ok i := if_pos h

theorem whenZero_eq_ok_iff {n : Nat} {op : BitVec 4} {reserved : BitVec n} {i j : Instr} :
    whenZero op reserved i = .ok j ↔ reserved = 0 ∧ i = j := by
  unfold whenZero
  split
  case isTrue h => simp [h]
  case isFalse h => exact iff_of_false nofun fun hij => h hij.1

/-! A field of a word and its number. -/

section Field

variable {w lo n : Nat} {x : BitVec w} {y : BitVec n}

theorem field_eq (h : x.toNat / 2 ^ lo % 2 ^ n = y.toNat) : x.extractLsb' lo n = y :=
  BitVec.eq_of_toNat_eq ((field_toNat x lo n).trans h)

theorem field_eq_zero (h : x.toNat / 2 ^ lo % 2 ^ n = 0) : x.extractLsb' lo n = 0 :=
  field_eq (h.trans BitVec.toNat_zero.symm)

theorem toNat_of_field_eq (h : x.extractLsb' lo n = y) : x.toNat / 2 ^ lo % 2 ^ n = y.toNat :=
  (field_toNat x lo n).symm.trans (congrArg BitVec.toNat h)

end Field

/-! Decode of encode: the word of a command has its opcode, 0 in the reserved field of its format, and its operands. -/

theorem decode_encode_csc (r g b : Byte) : decode (encode (.csc r g b)) = .ok (.csc r g b) := by
  have hword := encode_csc_toNat r g b
  have hreserved : (encode (.csc r g b)).extractLsb' 24 4 = 0 := field_eq_zero (by omega)
  have hr : (encode (.csc r g b)).extractLsb' 16 8 = r := field_eq (by omega)
  have hg : (encode (.csc r g b)).extractLsb' 8 8 = g := field_eq (by omega)
  have hb : (encode (.csc r g b)).extractLsb' 0 8 = b := field_eq (by omega)
  rw [decode_of_opcode_csc (Laws.OpcodeField.csc r g b), whenZero_of_eq hreserved, hr, hg, hb]

theorem decode_encode_qld (cls : BitVec 2) (n : Index) (raw : Half) :
    decode (encode (.qld cls n raw)) = .ok (.qld cls n raw) := by
  have hword := encode_qld_toNat cls n raw
  have hreserved : (encode (.qld cls n raw)).extractLsb' 16 4 = 0 := field_eq_zero (by omega)
  have hcls : (encode (.qld cls n raw)).extractLsb' 26 2 = cls := field_eq (by omega)
  have hn : (encode (.qld cls n raw)).extractLsb' 20 6 = n := field_eq (by omega)
  have hraw : (encode (.qld cls n raw)).extractLsb' 0 16 = raw := field_eq (by omega)
  rw [decode_of_opcode_qld (Laws.OpcodeField.qld cls n raw), whenZero_of_eq hreserved, hcls, hn, hraw]

theorem decode_encode_zrd (k : Index) : decode (encode (.zrd k)) = .ok (.zrd k) := by
  have hword := encode_zrd_toNat k
  have hreserved : (encode (.zrd k)).extractLsb' 6 22 = 0 := field_eq_zero (by omega)
  have hk : (encode (.zrd k)).extractLsb' 0 6 = k := field_eq (by omega)
  rw [decode_of_opcode_zrd (Laws.OpcodeField.zrd k), whenZero_of_eq hreserved, hk]

theorem decode_encode_dcp (comp : BitVec 2) (dc : Half) : decode (encode (.dcp comp dc)) = .ok (.dcp comp dc) := by
  have hword := encode_dcp_toNat comp dc
  have hreserved : (encode (.dcp comp dc)).extractLsb' 16 10 = 0 := field_eq_zero (by omega)
  have hcomp : (encode (.dcp comp dc)).extractLsb' 26 2 = comp := field_eq (by omega)
  have hdc : (encode (.dcp comp dc)).extractLsb' 0 16 = dc := field_eq (by omega)
  rw [decode_of_opcode_dcp (Laws.OpcodeField.dcp comp dc), whenZero_of_eq hreserved, hcomp, hdc]

theorem decode_encode_vli (v : Half) : decode (encode (.vli v)) = .ok (.vli v) := by
  have hword := encode_vli_toNat v
  have hreserved : (encode (.vli v)).extractLsb' 16 12 = 0 := field_eq_zero (by omega)
  have hv : (encode (.vli v)).extractLsb' 0 16 = v := field_eq (by omega)
  rw [decode_of_opcode_vli (Laws.OpcodeField.vli v), whenZero_of_eq hreserved, hv]

theorem decode_encode_hlk (t : BitVec 2) (sym : Byte) : decode (encode (.hlk t sym)) = .ok (.hlk t sym) := by
  have hword := encode_hlk_toNat t sym
  have hreserved : (encode (.hlk t sym)).extractLsb' 8 18 = 0 := field_eq_zero (by omega)
  have ht : (encode (.hlk t sym)).extractLsb' 26 2 = t := field_eq (by omega)
  have hsym : (encode (.hlk t sym)).extractLsb' 0 8 = sym := field_eq (by omega)
  rw [decode_of_opcode_hlk (Laws.OpcodeField.hlk t sym), whenZero_of_eq hreserved, ht, hsym]

theorem decode_encode_enc (comp : BitVec 2) : decode (encode (.enc comp)) = .ok (.enc comp) := by
  have hword := encode_enc_toNat comp
  have hreserved : (encode (.enc comp)).extractLsb' 0 26 = 0 := field_eq_zero (by omega)
  have hcomp : (encode (.enc comp)).extractLsb' 26 2 = comp := field_eq (by omega)
  rw [decode_of_opcode_enc (Laws.OpcodeField.enc comp), whenZero_of_eq hreserved, hcomp]

/-- A register number above 6 makes the word illegal (R72 (c)). -/
theorem decode_encode_rdreg {reg : Byte} (h : reg ≤ 6) : decode (encode (.rdreg reg)) = .ok (.rdreg reg) := by
  have hword := encode_rdreg_toNat reg
  have hreserved : (encode (.rdreg reg)).extractLsb' 8 20 = 0 := field_eq_zero (by omega)
  have hreg : (encode (.rdreg reg)).extractLsb' 0 8 = reg := field_eq (by omega)
  rw [decode_of_opcode_rdreg (Laws.OpcodeField.rdreg reg), if_pos hreserved, hreg, if_pos h]

theorem decode_encode {i : Instr} (h : i.wellFormed = true) : decode (encode i) = .ok i := by
  cases i with
  | nop => rfl
  | init => rfl
  | csc r g b => exact decode_encode_csc r g b
  | qld cls n raw => exact decode_encode_qld cls n raw
  | zrd k => exact decode_encode_zrd k
  | dcp comp dc => exact decode_encode_dcp comp dc
  | vli v => exact decode_encode_vli v
  | hlk t sym => exact decode_encode_hlk t sym
  | enc comp => exact decode_encode_enc comp
  | rdreg reg => exact decode_encode_rdreg (of_decide_eq_true h)

/-! Encode of decode: the opcode, the reserved field and the operands are all the bits of a word. -/

section Word

variable {w : Word} {i : Instr}

theorem encode_of_decode_nop (hop : w.extractLsb' 28 4 = 0x0) (h : decode w = .ok i) :
    encode i = w ∧ i.wellFormed = true := by
  have hopcode : w.toNat / 2 ^ 28 % 2 ^ 4 = 0x0 := toNat_of_field_eq hop
  rw [decode_of_opcode_nop hop, whenZero_eq_ok_iff] at h
  obtain ⟨hzero, rfl⟩ := h
  have hreserved : w.toNat / 2 ^ 0 % 2 ^ 28 = 0 := toNat_of_field_eq hzero
  refine ⟨BitVec.eq_of_toNat_eq ?_, rfl⟩
  rw [encode_nop_toNat]
  omega

theorem encode_of_decode_init (hop : w.extractLsb' 28 4 = 0x1) (h : decode w = .ok i) :
    encode i = w ∧ i.wellFormed = true := by
  have hopcode : w.toNat / 2 ^ 28 % 2 ^ 4 = 0x1 := toNat_of_field_eq hop
  rw [decode_of_opcode_init hop, whenZero_eq_ok_iff] at h
  obtain ⟨hzero, rfl⟩ := h
  have hreserved : w.toNat / 2 ^ 0 % 2 ^ 28 = 0 := toNat_of_field_eq hzero
  refine ⟨BitVec.eq_of_toNat_eq ?_, rfl⟩
  rw [encode_init_toNat]
  omega

theorem encode_of_decode_csc (hop : w.extractLsb' 28 4 = 0x2) (h : decode w = .ok i) :
    encode i = w ∧ i.wellFormed = true := by
  have hopcode : w.toNat / 2 ^ 28 % 2 ^ 4 = 0x2 := toNat_of_field_eq hop
  rw [decode_of_opcode_csc hop, whenZero_eq_ok_iff] at h
  obtain ⟨hzero, rfl⟩ := h
  have hreserved : w.toNat / 2 ^ 24 % 2 ^ 4 = 0 := toNat_of_field_eq hzero
  refine ⟨BitVec.eq_of_toNat_eq ?_, rfl⟩
  rw [encode_csc_toNat, field_toNat, field_toNat, field_toNat]
  omega

theorem encode_of_decode_qld (hop : w.extractLsb' 28 4 = 0x3) (h : decode w = .ok i) :
    encode i = w ∧ i.wellFormed = true := by
  have hopcode : w.toNat / 2 ^ 28 % 2 ^ 4 = 0x3 := toNat_of_field_eq hop
  rw [decode_of_opcode_qld hop, whenZero_eq_ok_iff] at h
  obtain ⟨hzero, rfl⟩ := h
  have hreserved : w.toNat / 2 ^ 16 % 2 ^ 4 = 0 := toNat_of_field_eq hzero
  refine ⟨BitVec.eq_of_toNat_eq ?_, rfl⟩
  rw [encode_qld_toNat, field_toNat, field_toNat, field_toNat]
  omega

theorem encode_of_decode_zrd (hop : w.extractLsb' 28 4 = 0x4) (h : decode w = .ok i) :
    encode i = w ∧ i.wellFormed = true := by
  have hopcode : w.toNat / 2 ^ 28 % 2 ^ 4 = 0x4 := toNat_of_field_eq hop
  rw [decode_of_opcode_zrd hop, whenZero_eq_ok_iff] at h
  obtain ⟨hzero, rfl⟩ := h
  have hreserved : w.toNat / 2 ^ 6 % 2 ^ 22 = 0 := toNat_of_field_eq hzero
  refine ⟨BitVec.eq_of_toNat_eq ?_, rfl⟩
  rw [encode_zrd_toNat, field_toNat]
  omega

theorem encode_of_decode_dcp (hop : w.extractLsb' 28 4 = 0x5) (h : decode w = .ok i) :
    encode i = w ∧ i.wellFormed = true := by
  have hopcode : w.toNat / 2 ^ 28 % 2 ^ 4 = 0x5 := toNat_of_field_eq hop
  rw [decode_of_opcode_dcp hop, whenZero_eq_ok_iff] at h
  obtain ⟨hzero, rfl⟩ := h
  have hreserved : w.toNat / 2 ^ 16 % 2 ^ 10 = 0 := toNat_of_field_eq hzero
  refine ⟨BitVec.eq_of_toNat_eq ?_, rfl⟩
  rw [encode_dcp_toNat, field_toNat, field_toNat]
  omega

theorem encode_of_decode_vli (hop : w.extractLsb' 28 4 = 0x6) (h : decode w = .ok i) :
    encode i = w ∧ i.wellFormed = true := by
  have hopcode : w.toNat / 2 ^ 28 % 2 ^ 4 = 0x6 := toNat_of_field_eq hop
  rw [decode_of_opcode_vli hop, whenZero_eq_ok_iff] at h
  obtain ⟨hzero, rfl⟩ := h
  have hreserved : w.toNat / 2 ^ 16 % 2 ^ 12 = 0 := toNat_of_field_eq hzero
  refine ⟨BitVec.eq_of_toNat_eq ?_, rfl⟩
  rw [encode_vli_toNat, field_toNat]
  omega

theorem encode_of_decode_hlk (hop : w.extractLsb' 28 4 = 0x7) (h : decode w = .ok i) :
    encode i = w ∧ i.wellFormed = true := by
  have hopcode : w.toNat / 2 ^ 28 % 2 ^ 4 = 0x7 := toNat_of_field_eq hop
  rw [decode_of_opcode_hlk hop, whenZero_eq_ok_iff] at h
  obtain ⟨hzero, rfl⟩ := h
  have hreserved : w.toNat / 2 ^ 8 % 2 ^ 18 = 0 := toNat_of_field_eq hzero
  refine ⟨BitVec.eq_of_toNat_eq ?_, rfl⟩
  rw [encode_hlk_toNat, field_toNat, field_toNat]
  omega

theorem encode_of_decode_enc (hop : w.extractLsb' 28 4 = 0x8) (h : decode w = .ok i) :
    encode i = w ∧ i.wellFormed = true := by
  have hopcode : w.toNat / 2 ^ 28 % 2 ^ 4 = 0x8 := toNat_of_field_eq hop
  rw [decode_of_opcode_enc hop, whenZero_eq_ok_iff] at h
  obtain ⟨hzero, rfl⟩ := h
  have hreserved : w.toNat / 2 ^ 0 % 2 ^ 26 = 0 := toNat_of_field_eq hzero
  refine ⟨BitVec.eq_of_toNat_eq ?_, rfl⟩
  rw [encode_enc_toNat, field_toNat]
  omega

theorem encode_of_decode_rdreg (hop : w.extractLsb' 28 4 = 0x9) (h : decode w = .ok i) :
    encode i = w ∧ i.wellFormed = true := by
  have hopcode : w.toNat / 2 ^ 28 % 2 ^ 4 = 0x9 := toNat_of_field_eq hop
  rw [decode_of_opcode_rdreg hop] at h
  split at h
  case isFalse => cases h
  case isTrue hzero =>
    have hreserved : w.toNat / 2 ^ 8 % 2 ^ 20 = 0 := toNat_of_field_eq hzero
    split at h
    case isFalse => cases h
    case isTrue hreg =>
      cases h
      refine ⟨BitVec.eq_of_toNat_eq ?_, decide_eq_true hreg⟩
      rw [encode_rdreg_toNat, field_toNat]
      omega

theorem opcode_cases : ∀ op : BitVec 4, op = 0x0 ∨ op = 0x1 ∨ op = 0x2 ∨ op = 0x3 ∨ op = 0x4 ∨ op = 0x5 ∨ op = 0x6 ∨
    op = 0x7 ∨ op = 0x8 ∨ op = 0x9 ∨ 10 ≤ op.toNat := by decide

theorem encode_of_decode (h : decode w = .ok i) : encode i = w ∧ i.wellFormed = true := by
  rcases opcode_cases (w.extractLsb' 28 4) with hop | hop | hop | hop | hop | hop | hop | hop | hop | hop | hop
  · exact encode_of_decode_nop hop h
  · exact encode_of_decode_init hop h
  · exact encode_of_decode_csc hop h
  · exact encode_of_decode_qld hop h
  · exact encode_of_decode_zrd hop h
  · exact encode_of_decode_dcp hop h
  · exact encode_of_decode_vli hop h
  · exact encode_of_decode_hlk hop h
  · exact encode_of_decode_enc hop h
  · exact encode_of_decode_rdreg hop h
  · rw [decode_of_opcode_reserved hop] at h
    cases h

end Word

end Sys2Proof

namespace Sys2Proof.Machine

/-! Bytes and words. -/

theorem wordsOfBytes_of_short {tail : List Byte} (h : tail.length < 4) : wordsOfBytes tail = ([], tail) := by
  match tail with
  | [] => rfl
  | [_] => rfl
  | [_, _] => rfl
  | [_, _, _] => rfl
  | _ :: _ :: _ :: _ :: _ => exact absurd h (by simp only [List.length_cons]; omega)

/-- The four bytes of a word, high byte first, are the word (R53). -/
theorem append_bytes_eq (w : Word) :
    w.extractLsb' 24 8 ++ w.extractLsb' 16 8 ++ w.extractLsb' 8 8 ++ w.extractLsb' 0 8 = w := by
  refine BitVec.eq_of_toNat_eq ?_
  simp only [append_toNat, field_toNat]
  omega

theorem wordsOfBytes_bytesOfWord_append (w : Word) (bytes : List Byte) :
    wordsOfBytes (bytesOfWord w ++ bytes) = (w :: (wordsOfBytes bytes).1, (wordsOfBytes bytes).2) := by
  rw [bytesOfWord, List.cons_append, List.cons_append, List.cons_append, List.cons_append, List.nil_append, wordsOfBytes,
    append_bytes_eq]

theorem wordsOfBytes_flatMap_append (ws : List Word) {tail : List Byte} (h : tail.length < 4) :
    wordsOfBytes (ws.flatMap bytesOfWord ++ tail) = (ws, tail) := by
  induction ws with
  | nil => exact wordsOfBytes_of_short h
  | cons w ws ih => rw [List.flatMap_cons, List.append_assoc, wordsOfBytes_bytesOfWord_append, ih]

end Sys2Proof.Machine

open Sys2Proof Sys2Proof.Machine

/-- Settles O2, format by format, from the fields of the encoded word as numbers. -/
theorem decodeOfEncodeIsTheCommand : Obligations.DecodeOfEncodeIsTheCommand :=
  fun _ => decode_encode

/-- Settles O3, opcode by opcode: the fields that the decoder reads or requires to be 0 are all the bits of the word. -/
theorem encodeOfDecodeIsTheWord : Obligations.EncodeOfDecodeIsTheWord :=
  fun _ _ => encode_of_decode

/-- Settles O4, by running the decoder on the ten words. -/
theorem writtenWordsDecode : Obligations.WrittenWordsDecode := by
  refine ⟨?_, ?_, ?_, ?_, ?_, ?_, ?_, ?_, ?_, ?_⟩ <;> rfl

/-- Settles O57, by induction on the words: the bytes of each one are received as that word. -/
theorem bytesDeliverWholeWords : Obligations.BytesDeliverWholeWords := by
  intro ws tail s h
  have hwords := wordsOfBytes_flatMap_append ws h
  refine ⟨hwords, ?sent⟩
  case sent => rw [State.hostSendBytes, hwords]
end

