-- ==== Sys2Proof/Proofs/StepCases.lean ====
section
/-! PROOFS. Everything a step can do, in one lemma: wait, go on with the command in progress, or run the command of one word
(O5, O7, O11); the waits (O6, R58); how many words one command emits (O8, R228); and the unbounded view of a bounded OUT
(O10, R12). -/

namespace Sys2Proof.Machine

/-! What a command can do. -/

/-- The effects a command can have in either mode: INIT and RDREG have theirs in both, every other command in RUN mode alone
(R275). -/
inductive EffectIn (c : Config) (r : Regs) : Instr → Effect → Prop where
  | init : EffectIn c r .init ⟨[], r.initialise⟩
  | rdreg (reg : Byte) (v : BitVec 24) (h : r.register reg = some v) : EffectIn c r (.rdreg reg) ⟨[regr reg v], r⟩
  | run (i : Instr) (e : Effect) (hm : r.mode = .run) (h : EffectOf c r i e) : EffectIn c r i e

/-- A command leaves the state as it is, or completes one of its effects; only the count of draws is new before that. -/
theorem exec_next_cases {i : Instr} {s t : State} (h : exec i s = .next t) :
    t = s ∨ ∃ e n, EffectIn s.cfg s.regs i e ∧ t = ({ s with draws := n } : State).complete e := by
  obtain ⟨hsame, -⟩ | ⟨rfl, hinit⟩ | ⟨reg, v, rfl, hv, hrdreg⟩ | ⟨hm, e, n, he, -, -, hrun⟩ := exec_cases i s
  · exact .inl (Host.Outcome.next.inj (h.symm.trans hsame))
  · exact .inr ⟨_, s.draws, .init, Host.Outcome.next.inj (h.symm.trans hinit)⟩
  · exact .inr ⟨_, s.draws, .rdreg reg v hv, Host.Outcome.next.inj (h.symm.trans hrdreg)⟩
  · exact .inr ⟨e, n, .run i e hm he, Host.Outcome.next.inj (h.symm.trans hrun)⟩

theorem exec_keeps_cfg {i : Instr} {s t : State} (h : exec i s = .next t) : t.cfg = s.cfg := by
  obtain rfl | ⟨e, n, -, rfl⟩ := exec_next_cases h
  · rfl
  · exact complete_cfg _ e

theorem exec_keeps_cmd {i : Instr} {s t : State} (h : exec i s = .next t) : t.cmd = s.cmd := by
  obtain rfl | ⟨e, n, -, rfl⟩ := exec_next_cases h
  · rfl
  · exact complete_cmd _ e

theorem exec_out_prefix {i : Instr} {s t : State} (h : exec i s = .next t) : s.out <+: t.out := by
  obtain rfl | ⟨e, n, -, rfl⟩ := exec_next_cases h
  · exact List.prefix_rfl
  · exact complete_out { s with draws := n } e

/-! What a step can do. -/

/-- The command a word runs as; an illegal word does what the ill-formed RDREG does (R271, R275, log entry 14). -/
def commandOf (w : Word) : Instr :=
  match decode w with
  | .ok i => i
  | .error _ => .rdreg 7

theorem commandOf_of_ok {w : Word} {i : Instr} (h : decode w = .ok i) : commandOf w = i := by
  rw [commandOf, h]

theorem commandOf_of_error {w : Word} {x : DecodeError} (h : decode w = .error x) : commandOf w = .rdreg 7 := by
  rw [commandOf, h]

theorem step_of_inflight {s : State} {e : Effect} (h : s.inflight = some e) : step s = .next (s.complete e) := by
  rw [step, h]
  rfl

theorem step_of_no_cmd {s : State} (hi : s.inflight = none) (hc : s.cmd = []) : step s = .next s := by
  simp only [step, hi, State.takeCommand, hc]

theorem step_of_decode_ok {s : State} {w : Word} {rest : List Word} {i : Instr} (hi : s.inflight = none)
    (hc : s.cmd = w :: rest) (hw : decode w = .ok i) : step s = exec i { s with cmd := rest } := by
  simp only [step, hi, State.takeCommand, hc, hw]

theorem step_of_cmd {s : State} {w : Word} {rest : List Word} (hi : s.inflight = none) (hc : s.cmd = w :: rest) :
    step s = exec (commandOf w) { s with cmd := rest } := by
  cases hw : decode w with
  | ok i => rw [commandOf_of_ok hw, step_of_decode_ok hi hc hw]
  | error x => rw [commandOf_of_error hw, step_of_decode_error hi hc hw]; rfl

/-- Everything a step can do: wait on an empty CMD, go on with the command in progress, or take the oldest word of CMD and run
its command. -/
theorem step_cases {s t : State} (h : step s = .next t) :
    (s.inflight = none ∧ s.cmd = [] ∧ t = s) ∨
    (∃ e, s.inflight = some e ∧ t = s.complete e) ∨
    ∃ w rest, s.inflight = none ∧ s.cmd = w :: rest ∧ exec (commandOf w) { s with cmd := rest } = .next t := by
  cases hi : s.inflight with
  | some e => exact .inr (.inl ⟨e, rfl, Host.Outcome.next.inj (h.symm.trans (step_of_inflight hi))⟩)
  | none =>
    cases hc : s.cmd with
    | nil => exact .inl ⟨rfl, rfl, Host.Outcome.next.inj (h.symm.trans (step_of_no_cmd hi hc))⟩
    | cons w rest => exact .inr (.inr ⟨w, rest, rfl, rfl, hi ▸ (step_of_cmd hi hc).symm.trans h⟩)

theorem step_keeps_cfg {s t : State} (h : step s = .next t) : t.cfg = s.cfg := by
  obtain ⟨-, -, rfl⟩ | ⟨e, -, rfl⟩ | ⟨w, rest, -, -, hexec⟩ := step_cases h
  · rfl
  · exact complete_cfg s e
  · exact exec_keeps_cfg (s := { s with cmd := rest }) hexec

theorem step_out_prefix {s t : State} (h : step s = .next t) : s.out <+: t.out := by
  obtain ⟨-, -, rfl⟩ | ⟨e, -, rfl⟩ | ⟨w, rest, -, -, hexec⟩ := step_cases h
  · exact List.prefix_rfl
  · exact complete_out s e
  · exact exec_out_prefix (s := { s with cmd := rest }) hexec

/-! The waits of a command in progress (R58). -/

/-- A command without room for all its words fills OUT and stays in progress with the rest. -/
theorem complete_of_no_room {s : State} {e : Effect} {depth : Nat} (hd : s.cfg.outDepth = some depth)
    (h : depth - s.out.length < e.words.length) : s.complete e = { s with
      out      := s.out ++ e.words.take (depth - s.out.length)
      inflight := some ⟨e.words.drop (depth - s.out.length), e.regs⟩ } := by
  simp only [State.complete, hd, if_neg h.not_ge]

theorem complete_of_full {s : State} {e : Effect} {depth : Nat} (hi : s.inflight = some e)
    (hd : s.cfg.outDepth = some depth) (hfull : s.out.length = depth) (hwords : e.words ≠ []) : s.complete e = s := by
  have hpos : 0 < e.words.length := List.length_pos_of_ne_nil hwords
  rw [complete_of_no_room hd (by omega), hfull, Nat.sub_self, List.take_zero, List.drop_zero, List.append_nil, ← hi]

/-! How many words a command emits. -/

/-- The tokens before a symbol without a code belong to at most 62 AC items, so there are at most 126 of them (R227). -/
theorem length_blockTokens_of_incomplete {c : Config} {comp : Component} {r : Regs} {toks : List Token}
    (h : blockTokens c comp r = (toks, false)) : toks.length ≤ 126 := by
  obtain ⟨-, rfl⟩ | ⟨e, ps, x, post, -, hitems, -, -, rfl⟩ := blockTokens_incomplete h
  · exact Nat.zero_le _
  · have hdc : (dcPart (dcDiff r comp r.dc) e).length ≤ 2 := by unfold dcPart; split <;> simp
    have hac : (ps.flatMap codedTokens).length ≤ 2 * ps.length := by
      have htypes := (length_flatMap_types_bounds (ps.map Prod.fst)).2
      rwa [← flatMap_codedTokens_types, List.length_map, List.length_map] at htypes
    have hcount := length_acSymbols_le r.acs
    rw [hitems, length_acs] at hcount
    simp only [List.length_append, List.length_map, List.length_cons] at hcount ⊢
    omega

theorem length_words_of_effectOf {c : Config} {r : Regs} {i : Instr} {e : Effect} (h : EffectOf c r i e) :
    e.words.length ≤ 128 := by
  cases h with
  | enc comp k hk hf hok =>
    rw [List.length_map]
    exact (length_blockTokens_bounds (Prod.ext rfl hok)).2
  | encUnknown comp k p hk hf hok hp =>
    have htoks : (blockTokens c k r).1.length ≤ 126 := length_blockTokens_of_incomplete (Prod.ext rfl hok)
    simp only [faultEffect_words, List.length_append, List.length_map, List.length_take, List.length_singleton]
    omega
  | _ => simp

theorem length_words_of_effectIn {c : Config} {r : Regs} {i : Instr} {e : Effect} (h : EffectIn c r i e) :
    e.words.length ≤ 128 := by
  cases h with
  | init => exact Nat.zero_le _
  | rdreg reg v _ => exact Nat.le_add_left 1 127
  | run i e hm he => exact length_words_of_effectOf he

/-- On an OUT without bound a command completes at once. -/
theorem complete_of_unbounded {s : State} (ho : s.cfg.outDepth = none) (e : Effect) :
    s.complete e = { s with out := s.out ++ e.words, regs := e.regs, inflight := none } :=
  complete_of_room (hasRoom_of_unbounded ho _)

theorem exec_of_unbounded {s : State} (ho : s.cfg.outDepth = none) (hi : s.inflight = none) (i : Instr) :
    ∃ t ws, exec i s = .next t ∧ t.cmd = s.cmd ∧ t.inflight = none ∧ t.out = s.out ++ ws ∧ ws.length ≤ 128 := by
  obtain ⟨t, ht⟩ : ∃ t, exec i s = .next t := ⟨_, exec_eq_effect i s⟩
  obtain rfl | ⟨e, n, he, rfl⟩ := exec_next_cases ht
  · exact ⟨t, [], ht, rfl, hi, (List.append_nil _).symm, Nat.zero_le _⟩
  · rw [complete_of_unbounded (s := { s with draws := n }) ho] at ht
    exact ⟨_, e.words, ht, rfl, rfl, rfl, length_words_of_effectIn he⟩

/-! The unbounded view (R12). -/

/-- Completing, or filling OUT and staying in progress, is the same in the unbounded view. -/
theorem complete_unbounded (s : State) (e : Effect) :
    (s.complete e).unbounded = { s with
      cfg := { s.cfg with outDepth := none }, out := s.out ++ e.words, regs := e.regs, inflight := none } := by
  obtain h | ⟨_, ws, rest, -, hsplit, -, -, h⟩ := complete_cases s e
  · rw [h]; rfl
  · rw [h, hsplit, ← List.append_assoc]; rfl

theorem unbounded_of_idle {s : State} (hi : s.inflight = none) :
    s.unbounded = { s with cfg := { s.cfg with outDepth := none } } := by
  rw [State.unbounded, hi]

theorem unbounded_of_inflight {s : State} {e : Effect} (hi : s.inflight = some e) : s.unbounded = { s with
    cfg := { s.cfg with outDepth := none }, out := s.out ++ e.words, regs := e.regs, inflight := none } := by
  rw [State.unbounded, hi]

/-- A command has the same effect in the unbounded view, and completes it there at once. -/
theorem exec_unbounded {s : State} (hi : s.inflight = none) {i : Instr} {t : State} (h : exec i s = .next t) :
    exec i s.unbounded = .next t.unbounded := by
  obtain rfl := Host.Outcome.next.inj (h.symm.trans (exec_eq_effect i s))
  rw [unbounded_of_idle hi, exec_eq_effect, effect_outDepth]
  cases effect s.cfg s.regs s.draws i with
  | none => rw [State.afterEffect, State.afterEffect, unbounded_of_idle hi]
  | some p => rw [State.afterEffect, State.afterEffect, complete_unbounded, complete_of_unbounded rfl]

theorem step_unbounded_of_idle {s t : State} (hi : s.inflight = none) (h : step s = .next t) :
    step s.unbounded = .next t.unbounded := by
  obtain ⟨-, hc, rfl⟩ | ⟨e, he, -⟩ | ⟨w, rest, -, hc, hexec⟩ := step_cases h
  · rw [unbounded_of_idle hi]
    exact step_of_no_cmd hi hc
  · rw [hi] at he; cases he
  · have hexec' := exec_unbounded (s := { s with cmd := rest }) hi hexec
    rw [unbounded_of_idle (s := { s with cmd := rest }) hi] at hexec'
    rw [unbounded_of_idle hi]
    exact (step_of_cmd (s := { s with cfg := { s.cfg with outDepth := none } }) hi hc).trans hexec'

theorem step_unbounded_of_inflight {s t : State} (hi : s.inflight ≠ none) (h : step s = .next t) :
    t.unbounded = s.unbounded := by
  obtain ⟨e, he⟩ := Option.ne_none_iff_exists'.mp hi
  obtain rfl := Host.Outcome.next.inj (h.symm.trans (step_of_inflight he))
  rw [complete_unbounded, unbounded_of_inflight he]

theorem hostTake_eq_some_iff {s u : State} {w : Word} :
    s.hostTake = some (w, u) ↔ ∃ rest, s.out = w :: rest ∧ u = { s with out := rest } := by
  unfold State.hostTake
  split <;> simp_all [eq_comm]

theorem hostTake_unbounded {s u : State} {w : Word} (h : s.hostTake = some (w, u)) :
    s.unbounded.hostTake = some (w, u.unbounded) := by
  obtain ⟨rest, hout, rfl⟩ := hostTake_eq_some_iff.mp h
  refine hostTake_eq_some_iff.mpr ?_
  obtain hi | ⟨e, hi⟩ := Option.eq_none_or_eq_some s.inflight
  · rw [unbounded_of_idle hi, unbounded_of_idle (s := { s with out := rest }) hi]
    exact ⟨rest, hout, rfl⟩
  · rw [unbounded_of_inflight hi, unbounded_of_inflight (s := { s with out := rest }) hi]
    exact ⟨rest ++ e.words, congrArg (· ++ e.words) hout, rfl⟩

end Sys2Proof.Machine

open Sys2Proof Sys2Proof.Machine

/-- Settles O5: it is what `step` does with the word it takes. -/
theorem stepRunsTheDecodedCommand : Obligations.StepRunsTheDecodedCommand :=
  fun _ _ _ _ => step_of_decode_ok

/-- Settles O7: the state after a step is written out for every state. -/
theorem everyStepHasANextState : Obligations.EveryStepHasANextState :=
  fun s => ⟨s.afterStep, step_eq_afterStep s⟩

/-- Settles O11, from everything a step can do: completing keeps the configuration and appends to OUT. -/
theorem stepKeepsConfigurationAndEmittedWords : Obligations.StepKeepsConfigurationAndEmittedWords :=
  fun _ _ h => ⟨step_keeps_cfg h, step_out_prefix h⟩

/-- Settles O6, from what completing does on a full OUT, with room for all words, and with room for some. -/
theorem waitsChangeNothing : Obligations.WaitsChangeNothing := by
  intro s
  refine ⟨step_of_no_cmd, ?full, ?room, ?partRoom⟩
  case full =>
    intro e depth hi hd hfull hwords
    rw [step_of_inflight hi, complete_of_full hi hd hfull hwords]
  case room =>
    intro e hi _ hroom
    rw [step_of_inflight hi, complete_of_room hroom]
  case partRoom =>
    intro e depth t hi hd hsome hpart h
    rw [step_of_inflight hi, complete_of_no_room hd (by omega)] at h
    obtain rfl := Host.Outcome.next.inj h
    refine ⟨_, _, (List.take_append_drop _ _).symm, List.ne_nil_of_length_pos ?_, rfl, ?_, rfl, rfl, rfl⟩
    · rw [List.length_take]; omega
    · rw [List.length_append, List.length_take]; omega

/-- Settles O8: on an OUT without bound the command of the word completes at once, with the words of one of its effects. -/
theorem oneStepCompletesOneCommand : Obligations.OneStepCompletesOneCommand := by
  intro s w rest ho hi hc
  rw [step_of_cmd hi hc]
  exact exec_of_unbounded (s := { s with cmd := rest }) ho hi (commandOf w)

/-- Settles O10: a command has the same effect in both, and the words that wait follow on OUT in the unbounded view. -/
theorem boundedOutRefinesUnboundedOut : Obligations.BoundedOutRefinesUnboundedOut :=
  fun _ _ h => ⟨fun hi => step_unbounded_of_idle hi h, fun hi => step_unbounded_of_inflight hi h,
    fun _ _ => hostTake_unbounded⟩
end

