-- ==== Sys2Proof/Proofs/LegalStates.lean ====
section
/-! PROOFS. The legal states as an invariant of every step (O12, R23, R32, R55, R58), the reset states (O13), and leaving the
fault state (O16, R22, R277). -/

namespace Sys2Proof.Machine

/-! Legal registers depend on MODE and CAUSE alone. -/

theorem legal_congr {r q : Regs} (hmode : r.mode = q.mode) (hcause : r.cause = q.cause) : r.legal = q.legal := by
  rw [Regs.legal, Regs.legal, hmode, hcause]

theorem legal_initialise (r : Regs) : r.initialise.legal = true := rfl

theorem legal_faultEffect (x : FaultCause) (ws : List Word) (r : Regs) : (faultEffect x ws r).regs.legal = true := by
  cases x <;> rfl

theorem legal_of_effectOf {c : Config} {r : Regs} {i : Instr} {e : Effect} (h : EffectOf c r i e) (hr : r.legal = true) :
    e.regs.legal = true := by
  cases h with
  | csc | zrd | zrdUnloaded | vli | hlk => exact hr
  | qld cls n raw k => exact (legal_congr (load_mode _ _ _) (load_cause _ _ _)).trans hr
  | dcp comp dc k => exact (legal_congr (setPred_mode _ _ _) (setPred_cause _ _ _)).trans hr
  | enc comp k => exact (legal_congr (blockDone_mode _ _) (blockDone_cause _ _)).trans hr
  | qldFault | dcpFault | hlkFault | encComponent | encIncomplete | encUnknown | illegalReg => exact legal_faultEffect _ _ _

theorem legal_of_effectIn {c : Config} {r : Regs} {i : Instr} {e : Effect} (h : EffectIn c r i e) (hr : r.legal = true) :
    e.regs.legal = true := by
  cases h with
  | init => exact legal_initialise r
  | rdreg => exact hr
  | run i e hm he => exact legal_of_effectOf he hr

/-- In FAULT mode a command either writes no register (RDREG) or needs no room on OUT (INIT). -/
theorem run_or_keeps_regs_or_emits_none {c : Config} {r : Regs} {i : Instr} {e : Effect} (h : EffectIn c r i e) :
    r.mode = .run ∨ e.regs = r ∨ e.words = [] := by
  cases h with
  | init => exact .inr (.inr rfl)
  | rdreg => exact .inr (.inl rfl)
  | run i e hm he => exact .inl hm

/-! Legal states. -/

theorem legal_iff (s : State) : s.legal = true ↔ s.regs.legal = true ∧ s.hasRoom 0 = true ∧
    ∀ e ∈ s.inflight, s.cfg.outDepth ≠ none ∧ e.words ≠ [] ∧ e.regs.legal = true ∧ (s.regs.mode = .run ∨ e.regs = s.regs) := by
  unfold State.legal
  cases s.inflight <;> simp [Option.isSome_iff_ne_none, and_assoc]

theorem hasRoom_iff (s : State) (n : Nat) : s.hasRoom n = true ↔ ∀ depth ∈ s.cfg.outDepth, s.out.length + n ≤ depth := by
  unfold State.hasRoom
  cases s.cfg.outDepth <;> simp

/-- Completing never puts more words on OUT than it can hold (R58). -/
theorem hasRoom_complete {s : State} (h : s.hasRoom 0 = true) (e : Effect) : (s.complete e).hasRoom 0 = true := by
  rw [hasRoom_iff, complete_cfg]
  intro depth hd
  have hout := (hasRoom_iff s 0).mp h depth hd
  by_cases hroom : s.hasRoom e.words.length = true
  · have := (hasRoom_iff s _).mp hroom depth hd
    rw [complete_of_room hroom, List.length_append]
    omega
  · have hnoRoom : depth - s.out.length < e.words.length := by
      by_contra hlt
      refine hroom ((hasRoom_iff s _).mpr fun depth' hd' => ?_)
      obtain rfl := Option.mem_unique hd hd'
      omega
    rw [complete_of_no_room hd hnoRoom, List.length_append, List.length_take]
    omega

/-- Completing an effect with legal registers, which in FAULT mode changes none unless it emits nothing, keeps the legal
states. -/
theorem legal_complete {s : State} {e : Effect} (hs : s.regs.legal = true) (hroom : s.hasRoom 0 = true)
    (he : e.regs.legal = true) (hwaits : s.regs.mode = .run ∨ e.regs = s.regs ∨ e.words = []) :
    (s.complete e).legal = true := by
  rw [legal_iff]
  have hroom' := hasRoom_complete hroom e
  obtain h | ⟨depth, ws, rest, hd, hsplit, hrest, -, h⟩ := complete_cases s e <;> rw [h] at hroom' ⊢
  · exact ⟨he, hroom', nofun⟩
  · refine ⟨hs, hroom', ?_⟩
    rintro f ⟨⟩
    have hwords : e.words ≠ [] := by rw [hsplit]; exact List.append_ne_nil_of_right_ne_nil _ hrest
    exact ⟨by rw [hd]; nofun, hrest, he, hwaits.imp_right fun hw => hw.resolve_right hwords⟩

theorem legal_exec {s t : State} {i : Instr} (hs : s.legal = true) (hi : s.inflight = none) (h : exec i s = .next t) :
    t.legal = true := by
  obtain ⟨hregs, hroom, -⟩ := (legal_iff s).mp hs
  obtain rfl | ⟨e, n, he, rfl⟩ := exec_next_cases h
  · exact hs
  · exact legal_complete (s := { s with draws := n }) hregs hroom (legal_of_effectIn he hregs) (run_or_keeps_regs_or_emits_none he)

theorem legal_step {s t : State} (hs : s.legal = true) (h : step s = .next t) : t.legal = true := by
  obtain ⟨-, -, rfl⟩ | ⟨e, he, rfl⟩ | ⟨w, rest, hi, -, hexec⟩ := step_cases h
  · exact hs
  · obtain ⟨hregs, hroom, hinflight⟩ := (legal_iff s).mp hs
    obtain ⟨-, -, hlegal, hwrites⟩ := hinflight e he
    exact legal_complete hregs hroom hlegal (hwrites.imp_right .inl)
  · exact legal_exec (s := { s with cmd := rest }) hs hi hexec

theorem legal_resetWith (c : Config) : (State.resetWith c).legal = true := by
  refine (legal_iff _).mpr ⟨rfl, (hasRoom_iff _ 0).mpr fun depth _ => Nat.zero_le depth, nofun⟩

/-! Leaving the fault state. -/

theorem commandOf_eq_init_iff (w : Word) : commandOf w = .init ↔ w = 0x10000000#32 := by
  constructor
  · intro h
    cases hw : decode w with
    | ok i =>
      rw [commandOf_of_ok hw] at h
      subst h
      exact (encode_of_decode hw).1.symm
    | error x =>
      rw [commandOf_of_error hw] at h
      cases h
  · rintro rfl
    rfl

/-- Of the commands that do something in FAULT mode, INIT alone writes MODE (R275, R277). -/
theorem exec_fault_to_run {s t : State} {i : Instr} (hm : s.regs.mode = .fault) (h : exec i s = .next t)
    (ht : t.regs.mode = .run) : i = .init ∧ t = { s with regs := s.regs.initialise, inflight := none } := by
  obtain ⟨hsame, -⟩ | ⟨rfl, hinit⟩ | ⟨reg, d, rfl, -, hrdreg⟩ | ⟨hrun, -⟩ := exec_cases i s
  · obtain rfl := Host.Outcome.next.inj (h.symm.trans hsame)
    rw [hm] at ht; cases ht
  · exact ⟨rfl, (Host.Outcome.next.inj (h.symm.trans hinit)).trans (complete_nil s _)⟩
  · obtain rfl := Host.Outcome.next.inj (h.symm.trans hrdreg)
    rcases complete_regs s ⟨[regr reg d], s.regs⟩ with hregs | hregs <;> rw [hregs, hm] at ht <;> cases ht
  · rw [hm] at hrun; cases hrun

theorem step_fault_to_run {s t : State} (hs : s.legal = true) (hm : s.regs.mode = .fault) (h : step s = .next t)
    (ht : t.regs.mode = .run) : s.inflight = none ∧ ∃ rest, s.cmd = 0x10000000#32 :: rest ∧
      t = { s with cmd := rest, regs := s.regs.initialise } := by
  obtain ⟨-, -, rfl⟩ | ⟨e, he, rfl⟩ | ⟨w, rest, hi, hc, hexec⟩ := step_cases h
  · rw [hm] at ht; cases ht
  · obtain ⟨-, -, hinflight⟩ := (legal_iff s).mp hs
    obtain ⟨-, -, -, hwrites⟩ := hinflight e he
    have hsame : e.regs = s.regs := hwrites.resolve_left (by rw [hm]; nofun)
    rcases complete_regs s e with hregs | hregs <;> rw [hregs] at ht
    · rw [hm] at ht; cases ht
    · rw [hsame, hm] at ht; cases ht
  · obtain ⟨hinit, rfl⟩ := exec_fault_to_run (s := { s with cmd := rest }) hm hexec ht
    rw [commandOf_eq_init_iff] at hinit
    exact ⟨hi, rest, hinit ▸ hc, by rw [hi]⟩

end Sys2Proof.Machine

open Sys2Proof Sys2Proof.Machine

/-- Settles O12: completing keeps the legal states where it leaves legal registers, and every effect has legal registers, in
FAULT mode those of the state unless it needs no room. -/
theorem stepKeepsLegalStates : Obligations.StepKeepsLegalStates :=
  fun _ _ => legal_step

/-- Settles O13: no word is on OUT after reset, so every depth has room. -/
theorem resetStateIsLegal : Obligations.ResetStateIsLegal :=
  ⟨legal_resetWith _, rfl, legal_resetWith⟩

/-- Settles O16: in FAULT mode the command in progress writes no register, and of all commands INIT alone writes MODE; its
word is the one that decodes to it. -/
theorem onlyInitLeavesTheFaultState : Obligations.OnlyInitLeavesTheFaultState :=
  fun _ _ => step_fault_to_run
end

