-- ==== Sys2Proof/Proofs/ResultWords.lean ====
section
/-! PROOFS. The layouts of the result words (O15, R84 to R93), what the host's actions keep (O14, R300, R315), and the one FLT
word of a fault (O17, R277). -/

namespace Sys2Proof.Machine

/-! The kind of each result word (R84). -/

theorem kind_toNat (w : Word) : (kind w).toNat = w.toNat / 2 ^ 28 % 2 ^ 4 := field_toNat w 28 4

theorem isFlt_eq_false_of_kind {w : Word} {k : Nat} (h : (kind w).toNat = k) (hk : k ≠ 15) : isFlt w = false := by
  rw [isFlt, beq_eq_false_iff_ne]
  rintro hF
  rw [hF] at h
  exact hk h.symm

theorem zrdr_toNat (l : Bool) (k : Index) (v : Half) :
    (zrdr l k v).toNat = 0x4 * 2 ^ 28 + (BitVec.ofBool l).toNat * 2 ^ 22 + k.toNat * 2 ^ 16 + v.toNat := by
  have h : (zrdr l k v).toNat = _ := append_toNat (0x4#4 ++ 0#5 ++ BitVec.ofBool l ++ k) v
  rw [h]; simp only [append_toNat, BitVec.toNat_ofNat]; omega

theorem dcpr_toNat (diff : Int) : (dcpr diff).toNat = 0x5 * 2 ^ 28 + (BitVec.ofInt 17 diff).toNat := by
  have h : (dcpr diff).toNat = _ := append_toNat (0x5#4 ++ 0#11) (BitVec.ofInt 17 diff)
  rw [h]; simp only [append_toNat, BitVec.toNat_ofNat]; omega

theorem regr_toNat (reg : Byte) (d : BitVec 24) :
    (regr reg d).toNat = 0x9 * 2 ^ 28 + reg.toNat % 2 ^ 4 * 2 ^ 24 + d.toNat := by
  have h : (regr reg d).toNat = _ := append_toNat (0x9#4 ++ reg.extractLsb' 0 4) d
  rw [h]; simp only [append_toNat, field_toNat, BitVec.toNat_ofNat]; omega

theorem append_stringField_toNat (x : BitVec 11) (s : BitString) :
    (x ++ stringField s).toNat = x.toNat * 2 ^ 21 + s.len % 2 ^ 5 * 2 ^ 16 + s.bits % 2 ^ 16 := by
  rw [append_toNat, stringField, append_toNat, BitVec.toNat_ofNat, BitVec.toNat_ofNat]; omega

theorem tokenWord_eq_append (t : Token) : tokenWord t = (0x8#4 ++ tokenCode t.ttype ++ 0#4) ++ stringField t.str :=
  BitVec.append_assoc

theorem tokenPrefix_toNat (t : Token) :
    (0x8#4 ++ tokenCode t.ttype ++ 0#4).toNat = 0x8 * 2 ^ 7 + (tokenCode t.ttype).toNat * 2 ^ 4 := by
  simp only [append_toNat, BitVec.toNat_ofNat]; omega

theorem kind_cscr (y cb cr : Byte) : (kind (cscr y cb cr)).toNat = 2 := by
  have h : (cscr y cb cr).toNat = _ := encode_csc_toNat y cb cr
  rw [kind_toNat]; omega

theorem kind_zrdr (l : Bool) (k : Index) (v : Half) : (kind (zrdr l k v)).toNat = 4 := by
  have h := zrdr_toNat l k v
  rw [kind_toNat]; omega

theorem kind_dcpr (diff : Int) : (kind (dcpr diff)).toNat = 5 := by
  have h := dcpr_toNat diff
  rw [kind_toNat]; omega

theorem kind_vlir (s : BitString) : (kind (vlir s)).toNat = 6 := by
  have h := append_stringField_toNat (0x6#4 ++ 0#7) s
  have hprefix : (0x6#4 ++ 0#7).toNat = 0x6 * 2 ^ 7 := rfl
  rw [vlir_eq_append, kind_toNat]; omega

theorem kind_hlkr (s : BitString) : (kind (hlkr s)).toNat = 7 := by
  have h := append_stringField_toNat (0x7#4 ++ 0#7) s
  have hprefix : (0x7#4 ++ 0#7).toNat = 0x7 * 2 ^ 7 := rfl
  rw [hlkr_eq_append, kind_toNat]; omega

theorem kind_tokenWord (t : Token) : (kind (tokenWord t)).toNat = 8 := by
  have h := append_stringField_toNat (0x8#4 ++ tokenCode t.ttype ++ 0#4) t.str
  have hprefix := tokenPrefix_toNat t
  rw [tokenWord_eq_append, kind_toNat]; omega

theorem kind_regr (reg : Byte) (d : BitVec 24) : (kind (regr reg d)).toNat = 9 := by
  have h := regr_toNat reg d
  rw [kind_toNat]; omega

/-! The layout of each result word (R85 to R92). -/

theorem resultOk_cscr (y cb cr : Byte) : resultOk (cscr y cb cr) = true := by
  have h : (cscr y cb cr).toNat = _ := encode_csc_toNat y cb cr
  simp only [resultOk, kind_cscr, beq_iff_eq]
  exact field_eq_zero (by omega)

theorem resultOk_zrdr (l : Bool) (k : Index) (v : Half) : resultOk (zrdr l k v) = true := by
  have h := zrdr_toNat l k v
  simp only [resultOk, kind_zrdr, beq_iff_eq]
  exact field_eq_zero (by omega)

theorem resultOk_dcpr (diff : Int) : resultOk (dcpr diff) = true := by
  have h := dcpr_toNat diff
  simp only [resultOk, kind_dcpr, beq_iff_eq]
  exact field_eq_zero (by omega)

theorem resultOk_regr {reg : Byte} (hreg : reg.toNat ≤ 6) (d : BitVec 24) : resultOk (regr reg d) = true := by
  have h := regr_toNat reg d
  simp only [resultOk, kind_regr, decide_eq_true_eq, field_toNat]
  omega

theorem resultOk_flt (x : FaultCause) : resultOk (flt (causeCode x)) = true := by
  cases x <;> rfl

section BitStrings

variable {s : BitString} (hlen : s.len ≤ 16) (hbits : s.bits < 2 ^ s.len)

include hlen

theorem lenField_append_stringField (x : BitVec 11) : lenField (x ++ stringField s) = s.len := by
  have h := append_stringField_toNat x s
  rw [lenField, field_toNat]; omega

include hbits

theorem bitsFit_append_stringField (x : BitVec 11) : bitsFit (x ++ stringField s) = true := by
  have h := append_stringField_toNat x s
  have hbits16 : s.bits < 2 ^ 16 := hbits.trans_le (Nat.pow_le_pow_right (by decide) hlen)
  have hfield : ((x ++ stringField s).extractLsb' 0 16).toNat = s.bits := by
    rw [field_toNat]; omega
  rw [bitsFit, lenField_append_stringField hlen, hfield]
  exact decide_eq_true hbits

theorem resultOk_vlir : resultOk (vlir s) = true := by
  have h := append_stringField_toNat (0x6#4 ++ 0#7) s
  have hprefix : (0x6#4 ++ 0#7).toNat = 0x6 * 2 ^ 7 := rfl
  have hzero : (vlir s).extractLsb' 21 7 = 0 := field_eq_zero (by rw [vlir_eq_append]; omega)
  simp only [resultOk, kind_vlir, hzero]
  rw [vlir_eq_append, lenField_append_stringField hlen, bitsFit_append_stringField hlen hbits, decide_eq_true hlen]
  rfl

theorem resultOk_hlkr (hpos : 1 ≤ s.len) : resultOk (hlkr s) = true := by
  have h := append_stringField_toNat (0x7#4 ++ 0#7) s
  have hprefix : (0x7#4 ++ 0#7).toNat = 0x7 * 2 ^ 7 := rfl
  have hzero : (hlkr s).extractLsb' 21 7 = 0 := field_eq_zero (by rw [hlkr_eq_append]; omega)
  simp only [resultOk, kind_hlkr, hzero]
  rw [hlkr_eq_append, lenField_append_stringField hlen, bitsFit_append_stringField hlen hbits, decide_eq_true hlen,
    decide_eq_true hpos]
  rfl

end BitStrings

theorem tokenCode_le (type : TokenType) : (tokenCode type).toNat ≤ 5 := by cases type <;> decide

theorem resultOk_tokenWord {t : Token} (ht : FitsIn 16 t.str) : resultOk (tokenWord t) = true := by
  obtain ⟨hpos, hlen, hbits⟩ := ht
  have h := append_stringField_toNat (0x8#4 ++ tokenCode t.ttype ++ 0#4) t.str
  have hprefix := tokenPrefix_toNat t
  have hcode := tokenCode_le t.ttype
  have htype : ((tokenWord t).extractLsb' 25 3).toNat ≤ 5 := by rw [field_toNat, tokenWord_eq_append]; omega
  have hzero : (tokenWord t).extractLsb' 21 4 = 0 := field_eq_zero (by rw [tokenWord_eq_append]; omega)
  simp only [resultOk, kind_tokenWord, hzero, decide_eq_true htype]
  rw [tokenWord_eq_append, lenField_append_stringField hlen, bitsFit_append_stringField hlen hbits, decide_eq_true hlen,
    decide_eq_true hpos]
  rfl

/-! The words of each effect. -/

/-- The tokens of a block, all or up to the first symbol without a code, fit their lengths (R228). -/
theorem fitsIn_of_mem_blockTokens {c : Config} (hc : admissible c = true) {comp : Component} {r : Regs} {t : Token}
    (ht : t ∈ (blockTokens c comp r).1) : FitsIn 16 t.str := by
  obtain ⟨-, hnone⟩ | ⟨e, ps, post, hdc, hitems, hentries, -, htokens⟩ := blockTokens_cases c comp r
  · rw [hnone] at ht
    cases ht
  · rw [htokens] at ht
    rcases List.mem_append.mp ht with ht | ht
    · exact (dcPart_fit (hrom_fitsIn hc (hrom_of_dcEntry hdc)) (category_le_of_dcEntry hdc)).1 t ht
    · obtain ⟨p, hp, htp⟩ := List.mem_flatMap.mp ht
      have hitem : p.1 ∈ acSymbols r.acs := hitems ▸ List.mem_append_left post (List.mem_map_of_mem hp)
      exact (codedTokens_fit (hrom_fitsIn hc (hrom_symbol_of_acEntry (hentries p hp)))
        (value?_fitsIn_of_acEntry hitem (hentries p hp))).1 t htp

theorem resultOk_of_mem_map_tokenWord {ts : List Token} (h : ∀ t ∈ ts, FitsIn 16 t.str) :
    ∀ w ∈ ts.map tokenWord, resultOk w = true := by
  rintro w hw
  obtain ⟨t, ht, rfl⟩ := List.mem_map.mp hw
  exact resultOk_tokenWord (h t ht)

theorem resultOk_of_mem_faultEffect {x : FaultCause} {ws : List Word} {r : Regs} (h : ∀ w ∈ ws, resultOk w = true) :
    ∀ w ∈ (faultEffect x ws r).words, resultOk w = true :=
  List.forall_mem_append.mpr ⟨h, List.forall_mem_singleton.mpr (resultOk_flt x)⟩

theorem resultOk_of_effectOf {c : Config} {r : Regs} {i : Instr} {e : Effect} (hc : admissible c = true)
    (h : EffectOf c r i e) : ∀ w ∈ e.words, resultOk w = true := by
  cases h with
  | csc x y z => exact List.forall_mem_singleton.mpr (resultOk_cscr _ _ _)
  | qld => exact nofun
  | zrd k hk => exact List.forall_mem_singleton.mpr (resultOk_zrdr _ _ _)
  | zrdUnloaded k v hk => exact List.forall_mem_singleton.mpr (resultOk_zrdr _ _ _)
  | dcp comp dc k hk => exact List.forall_mem_singleton.mpr (resultOk_dcpr _)
  | vli v =>
    refine List.forall_mem_singleton.mpr (resultOk_vlir ?_ ?_) <;> rw [vliBits_len]
    · exact category_sext16_le v
    · exact vliBits_bits_lt _
  | hlk t sym e he =>
    obtain ⟨hpos, hlen, hbits⟩ := hrom_fitsIn hc he
    exact List.forall_mem_singleton.mpr (resultOk_hlkr hlen hbits hpos)
  | enc comp k hk hf hok => exact resultOk_of_mem_map_tokenWord fun t ht => fitsIn_of_mem_blockTokens hc ht
  | encUnknown comp k p hk hf hok hp =>
    exact resultOk_of_mem_faultEffect
      (resultOk_of_mem_map_tokenWord fun t ht => fitsIn_of_mem_blockTokens hc (List.mem_of_mem_take ht))
  | qldFault | dcpFault | hlkFault | encComponent | encIncomplete | illegalReg => exact resultOk_of_mem_faultEffect nofun

theorem resultOk_of_effectIn {c : Config} {r : Regs} {i : Instr} {e : Effect} (hc : admissible c = true)
    (h : EffectIn c r i e) : ∀ w ∈ e.words, resultOk w = true := by
  cases h with
  | init => exact nofun
  | rdreg reg v hv =>
    have hreg : reg.toNat ≤ 6 := by
      by_contra hreg
      rw [(register_eq_none_iff r reg).mpr (Nat.not_le.mp hreg)] at hv
      cases hv
    exact List.forall_mem_singleton.mpr (resultOk_regr hreg v)
  | run i e hm he => exact resultOk_of_effectOf hc he

/-! The words on OUT and those a command in progress has still to emit. -/

theorem resultsOk_iff (s : State) : s.resultsOk = true ↔
    (∀ w ∈ s.out, resultOk w = true) ∧ ∀ e ∈ s.inflight, ∀ w ∈ e.words, resultOk w = true := by
  unfold State.resultsOk
  cases s.inflight <;> simp

theorem resultsOk_complete {s : State} {e : Effect} (hout : ∀ w ∈ s.out, resultOk w = true)
    (he : ∀ w ∈ e.words, resultOk w = true) : (s.complete e).resultsOk = true := by
  rw [resultsOk_iff]
  obtain h | ⟨_, ws, rest, -, hsplit, -, -, h⟩ := complete_cases s e <;> rw [h]
  · exact ⟨List.forall_mem_append.mpr ⟨hout, he⟩, nofun⟩
  · obtain ⟨hws, hrest⟩ := List.forall_mem_append.mp (hsplit ▸ he)
    refine ⟨List.forall_mem_append.mpr ⟨hout, hws⟩, ?_⟩
    rintro f ⟨⟩
    exact hrest

theorem resultsOk_step {s t : State} (hc : admissible s.cfg = true) (hs : s.resultsOk = true) (h : step s = .next t) :
    t.resultsOk = true := by
  obtain ⟨hout, hinflight⟩ := (resultsOk_iff s).mp hs
  obtain ⟨-, -, rfl⟩ | ⟨e, he, rfl⟩ | ⟨w, rest, -, -, hexec⟩ := step_cases h
  · exact hs
  · exact resultsOk_complete hout (hinflight e he)
  · obtain rfl | ⟨e, n, he, rfl⟩ := exec_next_cases hexec
    · exact hs
    · exact resultsOk_complete (s := { s with cmd := rest, draws := n }) hout (resultOk_of_effectIn hc he)

/-! The FLT word of a fault. -/

theorem isFlt_tokenWord (t : Token) : isFlt (tokenWord t) = false := isFlt_eq_false_of_kind (kind_tokenWord t) (by decide)

theorem isFlt_of_mem_map_tokenWord {ts : List Token} : ∀ w ∈ ts.map tokenWord, isFlt w = false := by
  rintro w hw
  obtain ⟨t, -, rfl⟩ := List.mem_map.mp hw
  exact isFlt_tokenWord t

/-- In RUN mode an effect is a fault entry, after words that are no FLT words, or it keeps MODE and emits none (R277). -/
theorem fault_or_keeps_mode_of_effectOf {c : Config} {r : Regs} {i : Instr} {e : Effect} (h : EffectOf c r i e) :
    (∃ x ws, e = faultEffect x ws r ∧ ∀ w ∈ ws, isFlt w = false) ∨
      (e.regs.mode = r.mode ∧ ∀ w ∈ e.words, isFlt w = false) := by
  have single {w : Word} {k : Nat} (hw : (kind w).toNat = k) (hk : k ≠ 15) : ∀ v ∈ [w], isFlt v = false :=
    List.forall_mem_singleton.mpr (isFlt_eq_false_of_kind hw hk)
  cases h with
  | csc x y z => exact .inr ⟨rfl, single (kind_cscr _ _ _) (by decide)⟩
  | qld => exact .inr ⟨rfl, nofun⟩
  | zrd k hk => exact .inr ⟨rfl, single (kind_zrdr _ _ _) (by decide)⟩
  | zrdUnloaded k v hk => exact .inr ⟨rfl, single (kind_zrdr _ _ _) (by decide)⟩
  | dcp comp dc k hk => exact .inr ⟨setPred_mode _ _ _, single (kind_dcpr _) (by decide)⟩
  | vli v => exact .inr ⟨rfl, single (kind_vlir _) (by decide)⟩
  | hlk t sym e he => exact .inr ⟨rfl, single (kind_hlkr _) (by decide)⟩
  | enc comp k hk hf hok => exact .inr ⟨blockDone_mode _ _, isFlt_of_mem_map_tokenWord⟩
  | encUnknown comp k p hk hf hok hp => exact .inl ⟨_, _, rfl, isFlt_of_mem_map_tokenWord⟩
  | qldFault | dcpFault | hlkFault | encComponent | encIncomplete | illegalReg => exact .inl ⟨_, [], rfl, nofun⟩

/-- One FLT word, the last of the words `ws` of a command, if the command faults from the registers `r` to the registers `q`,
and none if it does not (R277). -/
def FltWordIffFault (r q : Regs) (ws : List Word) : Prop :=
  (r.mode = .run ∧ q.mode = .fault ∧ ∃ pre, ws = pre ++ [flt q.cause] ∧ pre.all (fun w => !isFlt w) = true ∧
      1 ≤ q.cause.toNat ∧ q.cause.toNat ≤ 5) ∨
    (¬ (r.mode = .run ∧ q.mode = .fault) ∧ ws.all (fun w => !isFlt w) = true)

theorem all_not_isFlt_iff (ws : List Word) : ws.all (fun w => !isFlt w) = true ↔ ∀ w ∈ ws, isFlt w = false := by
  simp only [List.all_eq_true, Bool.not_eq_true']

theorem fltWordIffFault_nil {r q : Regs} (h : q.mode = .fault → r.mode = .fault) : FltWordIffFault r q [] := by
  refine .inr ⟨fun ⟨hrun, hfault⟩ => ?_, rfl⟩
  rw [h hfault] at hrun
  cases hrun

theorem causeCode_range (x : FaultCause) : 1 ≤ (causeCode x).toNat ∧ (causeCode x).toNat ≤ 5 := by cases x <;> decide

theorem fltWordIffFault_of_effectIn {c : Config} {r : Regs} {i : Instr} {e : Effect} (h : EffectIn c r i e) :
    FltWordIffFault r e.regs e.words := by
  cases h with
  | init => exact fltWordIffFault_nil nofun
  | rdreg reg v hv =>
    refine .inr ⟨fun ⟨hrun, hfault⟩ => ?_, ?_⟩
    · exact Mode.noConfusion (hrun.symm.trans hfault)
    · exact (all_not_isFlt_iff _).mpr
        (List.forall_mem_singleton.mpr (isFlt_eq_false_of_kind (kind_regr reg v) (by decide)))
  | run i e hm he =>
    obtain ⟨x, ws, rfl, hws⟩ | ⟨hmode, hwords⟩ := fault_or_keeps_mode_of_effectOf he
    · exact .inl ⟨hm, rfl, ws, rfl, (all_not_isFlt_iff ws).mpr hws, causeCode_range x⟩
    · refine .inr ⟨fun ⟨hrun, hfault⟩ => ?_, (all_not_isFlt_iff _).mpr hwords⟩
      exact Mode.noConfusion (hrun.symm.trans (hmode.symm.trans hfault))

theorem fltWordIffFault_exec {s t : State} {i : Instr} (ho : s.cfg.outDepth = none) (h : exec i s = .next t) :
    ∃ ws, t.out = s.out ++ ws ∧ FltWordIffFault s.regs t.regs ws := by
  obtain rfl | ⟨e, n, he, rfl⟩ := exec_next_cases h
  · exact ⟨[], (List.append_nil _).symm, fltWordIffFault_nil id⟩
  · rw [complete_of_unbounded (s := { s with draws := n }) ho]
    exact ⟨e.words, rfl, fltWordIffFault_of_effectIn he⟩

theorem fltWordIffFault_step {s t : State} (ho : s.cfg.outDepth = none) (hi : s.inflight = none) (h : step s = .next t) :
    ∃ ws, t.out = s.out ++ ws ∧ FltWordIffFault s.regs t.regs ws := by
  obtain ⟨-, -, rfl⟩ | ⟨e, he, -⟩ | ⟨w, rest, -, -, hexec⟩ := step_cases h
  · exact ⟨[], (List.append_nil _).symm, fltWordIffFault_nil id⟩
  · rw [hi] at he; cases he
  · exact fltWordIffFault_exec (s := { s with cmd := rest }) ho hexec

/-! What the host does. -/

theorem legal_hostReset (s : State) : s.hostReset.legal = true := by
  refine (legal_iff _).mpr ⟨rfl, (hasRoom_iff _ 0).mpr fun depth _ => Nat.zero_le depth, nofun⟩

theorem hostTake_keeps {s t : State} {w : Word} (hs : s.legal = true) (hok : s.resultsOk = true)
    (h : s.hostTake = some (w, t)) : t.legal = true ∧ t.resultsOk = true ∧ resultOk w = true := by
  obtain ⟨rest, hout, rfl⟩ := hostTake_eq_some_iff.mp h
  obtain ⟨hregs, hroom, hinflight⟩ := (legal_iff s).mp hs
  obtain ⟨hwords, hrest⟩ := (resultsOk_iff s).mp hok
  rw [hout] at hwords
  obtain ⟨hw, hwords⟩ := List.forall_mem_cons.mp hwords
  refine ⟨(legal_iff _).mpr ⟨hregs, (hasRoom_iff _ 0).mpr fun depth hd => ?_, hinflight⟩,
    (resultsOk_iff _).mpr ⟨hwords, hrest⟩, hw⟩
  have hlength := (hasRoom_iff s 0).mp hroom depth hd
  rw [hout, List.length_cons] at hlength
  exact Nat.le_of_succ_le hlength

end Sys2Proof.Machine

open Sys2Proof Sys2Proof.Machine

/-- Settles O15: every effect has words of the defined layouts, and completing moves them to OUT or keeps them to be emitted. -/
theorem stepKeepsResultWordsWellFormed : Obligations.StepKeepsResultWordsWellFormed :=
  fun _ _ => resultsOk_step

/-- Settles O17: an effect is a fault entry, which ends in its FLT word, or its words are of other kinds. -/
theorem everyFaultEmitsOneFltWord : Obligations.EveryFaultEmitsOneFltWord := by
  rintro s t ho hi (hstep | ⟨i, hexec⟩)
  · exact fltWordIffFault_step ho hi hstep
  · exact fltWordIffFault_exec ho hexec

/-- Settles O14: neither check reads CMD, taking a word shortens OUT, and reset empties it. -/
theorem hostActionsKeepLegalStates : Obligations.HostActionsKeepLegalStates :=
  fun s hs hok => ⟨fun _ => ⟨hs, hok⟩, fun _ _ => hostTake_keeps hs hok, legal_hostReset s, rfl⟩
end

