-- ==== Sys2Proof/Proofs/Frames.lean ====
section
/-! PROOFS. Which registers each command writes: one lemma on its effects, and from it O18, O20, O58, O59 and O60 (R24 to R26,
R154, R226, R273, R274). -/

namespace Sys2Proof.Machine

/-! The registers after a command are the old ones or those of its effect. -/

theorem exec_regs_cases {i : Instr} {s t : State} (h : exec i s = .next t) :
    t.regs = s.regs ∨ ∃ e, EffectIn s.cfg s.regs i e ∧ t.regs = e.regs := by
  obtain rfl | ⟨e, n, he, rfl⟩ := exec_next_cases h
  · exact .inl rfl
  · exact (complete_regs { s with draws := n } e).imp_right fun hregs => ⟨e, he, hregs⟩

/-! Faults (R273, R274). -/

/-- The causes a command can raise, with the operands that raise them (R274). -/
def FaultOf (c : Config) (r : Regs) (i : Instr) (x : FaultCause) : Prop :=
  match i with
  | .qld cls _ _ => x = .invalidChannelClass ∧ classOf cls = none
  | .dcp comp _ => x = .invalidComponent ∧ componentOf comp = none
  | .hlk t sym => x = .unknownSymbol ∧ hrom c (tableOf t) sym = none
  | .enc comp =>
    (x = .invalidComponent ∧ componentOf comp = none) ∨
    (x = .incompleteBlock ∧ componentOf comp ≠ none ∧ r.full = false) ∨
    (x = .unknownSymbol ∧ r.full = true ∧ ∃ k, componentOf comp = some k ∧ (blockTokens c k r).2 = false)
  | .rdreg reg => x = .illegalCommand ∧ r.register reg = none
  | .nop => False
  | .init => False
  | .csc _ _ _ => False
  | .zrd _ => False
  | .vli _ => False

/-- In RUN mode an effect keeps MODE and CAUSE, or it is a fault entry with a cause of its command. -/
theorem effectOf_fault_cases {c : Config} {r : Regs} {i : Instr} {e : Effect} (h : EffectOf c r i e) :
    (e.regs.mode = r.mode ∧ e.regs.cause = r.cause) ∨
      ∃ x, FaultOf c r i x ∧ e.regs = { r with mode := .fault, cause := causeCode x } := by
  cases h with
  | csc | qld | zrd | zrdUnloaded | vli | hlk => exact .inl ⟨rfl, rfl⟩
  | dcp => exact .inl ⟨setPred_mode _ _ _, setPred_cause _ _ _⟩
  | enc => exact .inl ⟨blockDone_mode _ _, blockDone_cause _ _⟩
  | qldFault _ _ _ hk => exact .inr ⟨_, ⟨rfl, hk⟩, rfl⟩
  | dcpFault _ _ hk => exact .inr ⟨_, ⟨rfl, hk⟩, rfl⟩
  | hlkFault _ _ hk => exact .inr ⟨_, ⟨rfl, hk⟩, rfl⟩
  | encComponent _ hk => exact .inr ⟨_, .inl ⟨rfl, hk⟩, rfl⟩
  | encIncomplete _ _ hk hf => exact .inr ⟨_, .inr (.inl ⟨rfl, by rw [hk]; nofun, hf⟩), rfl⟩
  | encUnknown _ k _ hk hf hok => exact .inr ⟨_, .inr (.inr ⟨rfl, hf, k, hk, hok⟩), rfl⟩
  | illegalReg _ hk => exact .inr ⟨_, ⟨rfl, hk⟩, rfl⟩

/-- A command other than INIT keeps MODE and CAUSE, or takes the fault entry from RUN mode. -/
theorem exec_mode_cases {i : Instr} {s t : State} (hinit : i ≠ .init) (h : exec i s = .next t) :
    (t.regs.mode = s.regs.mode ∧ t.regs.cause = s.regs.cause) ∨
      ∃ x, s.regs.mode = .run ∧ FaultOf s.cfg s.regs i x ∧
        t.regs = { s.regs with mode := .fault, cause := causeCode x } := by
  obtain hregs | ⟨e, he, hregs⟩ := exec_regs_cases h <;> rw [hregs]
  · exact .inl ⟨rfl, rfl⟩
  · cases he with
    | init => exact absurd rfl hinit
    | rdreg => exact .inl ⟨rfl, rfl⟩
    | run _ _ hm he => exact (effectOf_fault_cases he).imp_right fun ⟨x, hx, hfault⟩ => ⟨x, hm, hx, hfault⟩

/-- A command that faults was not INIT, which leads to RUN mode. -/
theorem exec_run_to_fault {i : Instr} {s t : State} (hm : s.regs.mode = .run) (h : exec i s = .next t)
    (ht : t.regs.mode = .fault) :
    ∃ x, FaultOf s.cfg s.regs i x ∧ t.regs = { s.regs with mode := .fault, cause := causeCode x } := by
  have hinit : i ≠ .init := by
    rintro rfl
    obtain rfl : s.complete ⟨[], s.regs.initialise⟩ = t := Host.Outcome.next.inj h
    rw [complete_nil] at ht
    cases ht
  obtain ⟨hmode, -⟩ | ⟨x, -, hx, hregs⟩ := exec_mode_cases hinit h
  · exact Mode.noConfusion (hm.symm.trans (hmode.symm.trans ht))
  · exact ⟨x, hx, hregs⟩

/-! The frames of `QBUF`, the predictors and the load bits. -/

section Frames

variable {c : Config} {r : Regs} {i : Instr} {e : Effect}

theorem effectIn_qbuf (h : EffectIn c r i e) : e.regs.qbuf = r.qbuf ∨
    ∃ cls n raw v, i = .qld cls n raw ∧ e.regs.qbuf = r.qbuf.set (at64 (zzInv n)) v := by
  cases h with
  | init | rdreg => exact .inl rfl
  | run i e hm he =>
    cases he with
    | qld cls n raw k hk => exact .inr ⟨cls, n, raw, _, rfl, rfl⟩
    | dcp => exact .inl (setPred_qbuf _ _ _)
    | enc => exact .inl (blockDone_qbuf _ _)
    | _ => exact .inl rfl

theorem effectIn_pred (h : EffectIn c r i e) (k : Component) : e.regs.pred k = r.pred k ∨ i = .init ∨
    ∃ comp, componentOf comp = some k ∧ (i = .enc comp ∨ ∃ dc, i = .dcp comp dc) := by
  cases h with
  | init => exact .inr (.inl rfl)
  | rdreg => exact .inl rfl
  | run i e hm he =>
    cases he with
    | dcp comp dc j hj =>
      by_cases hk : k = j
      · exact .inr (.inr ⟨comp, hk ▸ hj, .inr ⟨dc, rfl⟩⟩)
      · exact .inl (setPred_pred_of_ne r dc hk)
    | enc comp j hj =>
      by_cases hk : k = j
      · exact .inr (.inr ⟨comp, hk ▸ hj, .inl rfl⟩)
      · exact .inl (blockDone_pred_of_ne r hk)
    | qld => exact .inl (load_pred _ _ _ _)
    | qldFault | dcpFault | hlkFault | encComponent | encIncomplete | encUnknown | illegalReg =>
      exact .inl (faultEffect_pred _ _ _ _)
    | csc | zrd | zrdUnloaded | vli | hlk => exact .inl rfl

theorem effectIn_loaded (h : EffectIn c r i e) : e.regs.loaded = r.loaded ∨
    (∃ cls n raw, i = .qld cls n raw ∧ ∀ k : Index, e.regs.isLoaded k = if k = zzInv n then true else r.isLoaded k) ∨
    (e.regs.loaded = 0 ∧ (i = .init ∨ ∃ comp, i = .enc comp)) := by
  cases h with
  | init => exact .inr (.inr ⟨rfl, .inl rfl⟩)
  | rdreg => exact .inl rfl
  | run i e hm he =>
    cases he with
    | qld cls n raw k hk => exact .inr (.inl ⟨cls, n, raw, rfl, fun j => load_isLoaded r (zzInv n) j _⟩)
    | enc comp => exact .inr (.inr ⟨blockDone_loaded _ _, .inr ⟨comp, rfl⟩⟩)
    | dcp => exact .inl (setPred_loaded _ _ _)
    | _ => exact .inl rfl

end Frames

theorem exec_qbuf {i : Instr} {s t : State} (h : exec i s = .next t) : t.regs.qbuf = s.regs.qbuf ∨
    ∃ cls n raw v, i = .qld cls n raw ∧ t.regs.qbuf = s.regs.qbuf.set (at64 (zzInv n)) v := by
  obtain hregs | ⟨e, he, hregs⟩ := exec_regs_cases h <;> rw [hregs]
  · exact .inl rfl
  · exact effectIn_qbuf he

theorem exec_pred {i : Instr} {s t : State} (h : exec i s = .next t) (k : Component) : t.regs.pred k = s.regs.pred k ∨
    i = .init ∨ ∃ comp, componentOf comp = some k ∧ (i = .enc comp ∨ ∃ dc, i = .dcp comp dc) := by
  obtain hregs | ⟨e, he, hregs⟩ := exec_regs_cases h <;> rw [hregs]
  · exact .inl rfl
  · exact effectIn_pred he k

theorem exec_loaded {i : Instr} {s t : State} (h : exec i s = .next t) : t.regs.loaded = s.regs.loaded ∨
    (∃ cls n raw, i = .qld cls n raw ∧ ∀ k : Index, t.regs.isLoaded k = if k = zzInv n then true else s.regs.isLoaded k) ∨
    (t.regs.loaded = 0 ∧ (i = .init ∨ ∃ comp, i = .enc comp)) := by
  obtain hregs | ⟨e, he, hregs⟩ := exec_regs_cases h <;> rw [hregs]
  · exact .inl rfl
  · exact effectIn_loaded he

theorem isLoaded_congr {r q : Regs} (h : r.loaded = q.loaded) (k : Index) : r.isLoaded k = q.isLoaded k := by
  rw [Regs.isLoaded, Regs.isLoaded, h]

theorem isLoaded_of_loaded_zero {r : Regs} (h : r.loaded = 0) (k : Index) : r.isLoaded k = false := by
  rw [Regs.isLoaded, h]
  exact BitVec.getLsbD_zero

theorem qld_of_load_bit_set {i : Instr} {s t : State} (h : exec i s = .next t) {k : Index}
    (hs : s.regs.isLoaded k = false) (ht : t.regs.isLoaded k = true) : ∃ cls n raw, i = .qld cls n raw ∧ k = zzInv n := by
  obtain hloaded | ⟨cls, n, raw, rfl, hloaded⟩ | ⟨hzero, -⟩ := exec_loaded h
  · rw [isLoaded_congr hloaded, hs] at ht
    cases ht
  · refine ⟨cls, n, raw, rfl, ?_⟩
    by_contra hk
    rw [hloaded, if_neg hk, hs] at ht
    cases ht
  · rw [isLoaded_of_loaded_zero hzero] at ht
    cases ht

theorem init_or_enc_of_load_bit_cleared {i : Instr} {s t : State} (h : exec i s = .next t) {k : Index}
    (hs : s.regs.isLoaded k = true) (ht : t.regs.isLoaded k = false) : i = .init ∨ ∃ comp, i = .enc comp := by
  obtain hloaded | ⟨cls, n, raw, -, hloaded⟩ | ⟨-, hi⟩ := exec_loaded h
  · rw [isLoaded_congr hloaded, hs] at ht
    cases ht
  · rw [hloaded, hs, ite_self] at ht
    cases ht
  · exact hi

/-! The commands that write MODE and CAUSE at most. -/

/-- A command that is none of those that write `QBUF`, a predictor or a load bit (R24 to R26). -/
structure ReadOnly (i : Instr) : Prop where
  ne_init : i ≠ .init
  ne_qld : ∀ cls n raw, i ≠ .qld cls n raw
  ne_dcp : ∀ comp dc, i ≠ .dcp comp dc
  ne_enc : ∀ comp, i ≠ .enc comp

theorem ReadOnly.exec_qbuf {i : Instr} {s t : State} (hi : ReadOnly i) (h : exec i s = .next t) :
    t.regs.qbuf = s.regs.qbuf :=
  (Machine.exec_qbuf h).resolve_right fun ⟨cls, n, raw, _, hqld, _⟩ => hi.ne_qld cls n raw hqld

theorem ReadOnly.exec_pred {i : Instr} {s t : State} (hi : ReadOnly i) (h : exec i s = .next t) (k : Component) :
    t.regs.pred k = s.regs.pred k := by
  obtain hpred | hinit | ⟨comp, -, henc | ⟨dc, hdcp⟩⟩ := Machine.exec_pred h k
  · exact hpred
  · exact absurd hinit hi.ne_init
  · exact absurd henc (hi.ne_enc comp)
  · exact absurd hdcp (hi.ne_dcp comp dc)

theorem ReadOnly.exec_loaded {i : Instr} {s t : State} (hi : ReadOnly i) (h : exec i s = .next t) :
    t.regs.loaded = s.regs.loaded := by
  obtain hloaded | ⟨cls, n, raw, hqld, -⟩ | ⟨-, hinit | ⟨comp, henc⟩⟩ := Machine.exec_loaded h
  · exact hloaded
  · exact absurd hqld (hi.ne_qld cls n raw)
  · exact absurd hinit hi.ne_init
  · exact absurd henc (hi.ne_enc comp)

/-! QLD and DCP without their operands' values: neither makes a draw. -/

theorem exec_qld_cases {cls : BitVec 2} {n : Index} {raw : Half} {s t : State} (h : exec (.qld cls n raw) s = .next t) :
    t = s ∨
      (∃ k v, classOf cls = some k ∧ t = { s with regs := s.regs.load (zzInv n) v, inflight := none }) ∨
      (classOf cls = none ∧ t = s.complete (faultEffect .invalidChannelClass [] s.regs)) := by
  cases hm : s.regs.mode with
  | fault => exact .inl (Host.Outcome.next.inj (h.symm.trans (execQld_of_fault hm n raw)))
  | run =>
    rw [exec_qld, execQld, inRun_run hm] at h
    cases hk : classOf cls with
    | none =>
      rw [hk] at h
      exact .inr (.inr ⟨rfl, (Host.Outcome.next.inj h).symm⟩)
    | some k =>
      rw [hk] at h
      exact .inr (.inl ⟨k, _, rfl, (Host.Outcome.next.inj h).symm.trans (complete_nil s _)⟩)

theorem exec_dcp_draws {comp : BitVec 2} {dc : Half} {s t : State} (h : exec (.dcp comp dc) s = .next t) :
    t.draws = s.draws := by
  cases hm : s.regs.mode with
  | fault =>
    obtain rfl := Host.Outcome.next.inj (h.symm.trans (execDcp_of_fault hm dc))
    rfl
  | run =>
    rw [exec_dcp, execDcp, inRun_run hm] at h
    cases hk : componentOf comp <;> rw [hk] at h <;> obtain rfl := Host.Outcome.next.inj h <;> exact complete_draws s _

end Sys2Proof.Machine

open Sys2Proof Sys2Proof.Machine

/-- Settles O18: a fault entry writes MODE and CAUSE alone, with a cause of the command. -/
theorem faultsOfEachCommand : Obligations.FaultsOfEachCommand := by
  intro i s t hm h ht
  obtain ⟨x, hx, hregs⟩ := exec_run_to_fault hm h ht
  refine ⟨by rw [hregs], exec_keeps_cmd h, ?_⟩
  rw [hregs]
  cases i with
  | qld cls n raw =>
    obtain ⟨rfl, hcls⟩ := hx
    refine ⟨rfl, ?_⟩
    obtain rfl | rfl := (classOf_eq_none_iff cls).mp hcls <;> decide
  | dcp comp dc => exact ⟨by rw [hx.1]; rfl, (componentOf_eq_none_iff comp).mp hx.2⟩
  | hlk tb sym => exact ⟨by rw [hx.1]; rfl, hx.2⟩
  | enc comp =>
    obtain ⟨rfl, hcomp⟩ | ⟨rfl, hcomp, hfull⟩ | ⟨rfl, hfull, hsymbol⟩ := hx
    · exact .inl ⟨rfl, (componentOf_eq_none_iff comp).mp hcomp⟩
    · exact .inr (.inl ⟨rfl, mt (componentOf_eq_none_iff comp).mpr hcomp, hfull⟩)
    · exact .inr (.inr ⟨rfl, hfull, hsymbol⟩)
  | rdreg reg => exact ⟨by rw [hx.1]; rfl, (register_eq_none_iff _ _).mp hx.2⟩
  | nop => exact hx
  | init => exact hx
  | csc r g b => exact hx
  | zrd k => exact hx
  | vli v => exact hx

/-- Settles O20, from the frames of `QBUF`, the predictors and the load bits. -/
theorem registersChangeOnlyByTheirCommands : Obligations.RegistersChangeOnlyByTheirCommands :=
  fun _ _ _ h => ⟨exec_qbuf h, exec_pred h, fun _ => qld_of_load_bit_set h, fun _ => init_or_enc_of_load_bit_cleared h⟩

/-- Settles O58: these are not among the commands that write registers, and only HLK and RDREG among them raise faults. -/
theorem readOnlyCommandsFrame : Obligations.ReadOnlyCommandsFrame := by
  intro i s t hkind h
  have hi : ReadOnly i := by
    obtain rfl | ⟨_, _, _, rfl⟩ | ⟨_, rfl⟩ | ⟨_, rfl⟩ | ⟨_, _, rfl⟩ | ⟨_, rfl⟩ := hkind <;> constructor <;> exact nofun
  refine ⟨hi.exec_pred h .y, hi.exec_pred h .cb, hi.exec_pred h .cr, hi.exec_qbuf h, hi.exec_loaded h, exec_keeps_cfg h,
    exec_keeps_cmd h, exec_out_prefix h, ?mode⟩
  case mode =>
    refine (exec_mode_cases hi.ne_init h).imp_right ?_
    rintro ⟨x, hm, hx, hregs⟩
    rw [hregs]
    obtain rfl | ⟨_, _, _, rfl⟩ | ⟨_, rfl⟩ | ⟨_, rfl⟩ | ⟨tb, sym, rfl⟩ | ⟨reg, rfl⟩ := hkind
    · exact hx.elim
    · exact hx.elim
    · exact hx.elim
    · exact hx.elim
    · exact .inl ⟨tb, sym, rfl, hx.2, hm, rfl, by rw [hx.1]; rfl⟩
    · exact .inr ⟨reg, rfl, (register_eq_none_iff _ _).mp hx.2, hm, rfl, by rw [hx.1]; rfl⟩

/-- Settles O59: QLD is discarded, loads its entry, or takes the fault entry. -/
theorem qldFrame : Obligations.QldFrame := by
  intro cls n raw s t h
  obtain rfl | ⟨k, v, hcls, rfl⟩ | ⟨hcls, rfl⟩ := exec_qld_cases h
  · exact ⟨rfl, rfl, rfl, fun _ _ => ⟨rfl, rfl⟩, rfl, rfl, rfl, fun _ => ⟨rfl, rfl, rfl⟩,
      fun _ => ⟨rfl, rfl, List.prefix_rfl⟩⟩
  · refine ⟨rfl, rfl, rfl, fun k hk => ⟨?_, ?_⟩, rfl, rfl, rfl, fun _ => ⟨rfl, rfl, rfl⟩, fun hnone => ?_⟩
    · exact (load_coef _ _ _ _).trans (if_neg hk)
    · exact (load_isLoaded _ _ _ _).trans (if_neg hk)
    · rw [hcls] at hnone
      cases hnone
  · obtain ⟨m, x, hregs⟩ : ∃ m x, (s.complete (faultEffect .invalidChannelClass [] s.regs)).regs =
        { s.regs with mode := m, cause := x } := by
      rcases complete_regs s (faultEffect .invalidChannelClass [] s.regs) with hregs | hregs <;> exact ⟨_, _, hregs⟩
    rw [hregs]
    refine ⟨rfl, rfl, rfl, fun _ _ => ⟨rfl, rfl⟩, complete_cfg _ _, complete_cmd _ _, complete_draws _ _, fun hsome => ?_,
      fun _ => ⟨rfl, rfl, complete_out _ _⟩⟩
    rw [hcls] at hsome
    cases hsome

/-- Settles O60: neither command is one that writes the other registers, and DCP makes no draw. -/
theorem dcpAndEncFrame : Obligations.DcpAndEncFrame := by
  intro comp s t h
  obtain ⟨i, hkind, hexec⟩ : ∃ i, (i = .enc comp ∨ ∃ dc, i = .dcp comp dc) ∧ exec i s = .next t :=
    h.elim (fun henc => ⟨_, .inl rfl, henc⟩) fun ⟨dc, hdcp⟩ => ⟨_, .inr ⟨dc, rfl⟩, hdcp⟩
  have hinit : i ≠ .init := by obtain rfl | ⟨dc, rfl⟩ := hkind <;> exact nofun
  refine ⟨?pred, ?qbuf, exec_keeps_cfg hexec, exec_keeps_cmd hexec, exec_out_prefix hexec, ?cause, ?dcp⟩
  case pred =>
    intro c hc
    obtain hpred | hi | ⟨comp', hcomp, hi⟩ := exec_pred hexec c
    · exact hpred
    · exact absurd hi hinit
    · obtain rfl : comp' = comp := by
        obtain rfl | ⟨dc, rfl⟩ := hkind <;> simpa [eq_comm] using hi
      exact absurd hcomp hc
  case qbuf =>
    obtain hqbuf | ⟨cls, n, raw, v, hi, -⟩ := exec_qbuf hexec
    · exact hqbuf
    · obtain rfl | ⟨dc, rfl⟩ := hkind <;> cases hi
  case cause =>
    intro hmode
    obtain ⟨-, hcause⟩ | ⟨x, hm, -, hregs⟩ := exec_mode_cases hinit hexec
    · exact hcause
    · rw [hregs, hm] at hmode
      cases hmode
  case dcp =>
    rintro ⟨dc, hdcp⟩
    obtain hloaded | ⟨cls, n, raw, hi, -⟩ | ⟨-, hi | ⟨comp', hi⟩⟩ := exec_loaded hdcp
    · exact ⟨hloaded, exec_dcp_draws hdcp⟩
    · cases hi
    · cases hi
    · cases hi
end

