-- ==== Sys2Proof/Proofs/SingleCommands.lean ====
section
/-! PROOFS. The faults of ENC in each mode (O44, O45, R227, R276), QLD and ZRD of one entry (O29, R128, R130), the range of a DC
difference (O34, R152), and INIT next to reset (O56, R301). -/

namespace Sys2Proof.Machine

/-! The faults of ENC (R227, R276). -/

section Enc

variable {s : State} {comp : BitVec 2} {c : Component}

theorem execEnc_of_fault (hm : s.regs.mode = .fault) : execEnc comp s = .next s := inRun_fault hm _

theorem execEnc_of_no_component (hi : s.inflight = none) (hm : s.regs.mode = .run) (hr : s.hasRoom 1 = true)
    (hc : componentOf comp = none) : execEnc comp s = .next (s.faulted .invalidComponent) := by
  rw [execEnc, inRun_run hm, hc]
  exact raise_of_room hi _ hr

theorem execEnc_of_incomplete (hi : s.inflight = none) (hm : s.regs.mode = .run) (hr : s.hasRoom 1 = true)
    (hc : componentOf comp = some c) (hfull : s.regs.full = false) :
    execEnc comp s = .next (s.faulted .incompleteBlock) := by
  simp only [execEnc, inRun_run hm, hc, hfull, Bool.false_eq_true, if_false]
  exact raise_of_room hi _ hr

theorem hasRoom_mono {m n : Nat} (h : s.hasRoom n = true) (hmn : m ≤ n) : s.hasRoom m = true :=
  (hasRoom_iff s m).mpr fun depth hd => (Nat.add_le_add_left hmn _).trans ((hasRoom_iff s n).mp h depth hd)

/-- ENC draws how many of the tokens before the symbol without a code it leaves on OUT. -/
theorem execEnc_of_unknown {toks : List Token} (hi : s.inflight = none) (hm : s.regs.mode = .run)
    (hc : componentOf comp = some c) (hfull : s.regs.full = true) (htoks : blockTokens s.cfg c s.regs = (toks, false))
    (hr : s.hasRoom (toks.length + 1) = true) : execEnc comp s = .next { s with
      out   := s.out ++ ((toks.take (countUpTo toks.length s.draws)).map tokenWord ++ [flt (causeCode .unknownSymbol)])
      regs  := (faultEffect .unknownSymbol [] s.regs).regs
      draws := s.draws + 1 } := by
  simp only [execEnc, inRun_run hm, hc, hfull, htoks, blockEffect, if_true, Bool.false_eq_true, if_false]
  refine done_of_room (s := { s with draws := s.draws + 1 }) hi (hasRoom_mono hr ?_)
  simp only [faultEffect_words, List.length_append, List.length_map, List.length_take, List.length_singleton]
  omega

end Enc

/-! Two loads of one entry. -/

theorem load_load (r : Regs) (k : Index) (v u : Half) : (r.load k v).load k u = r.load k u := by
  simp only [Regs.load, Vector.set_set, BitVec.or_assoc, BitVec.or_self]

end Sys2Proof.Machine

open Sys2Proof Sys2Proof.Machine

/-- Settles O44, from what ENC does without a component and without a full block, and from the decoder's row for opcode 8 when a
reserved bit is set. -/
theorem encChecksComponentThenBlock : Obligations.EncChecksComponentThenBlock := by
  intro comp s hi
  refine ⟨?component, ?block, fun hm => execEnc_of_fault hm, ?reservedBit⟩
  case component => exact fun hc hm hr => execEnc_of_no_component hi hm hr ((componentOf_eq_none_iff comp).mpr hc)
  case block =>
    rintro hc hm hr ⟨k, hk⟩
    obtain ⟨c, hcomp⟩ := Option.ne_none_iff_exists'.mp (mt (componentOf_eq_none_iff comp).mp hc)
    have hfull : s.regs.full = false := by
      refine Bool.eq_false_iff.mpr fun hfull => ?_
      rw [(full_iff s.regs).mp hfull k] at hk
      cases hk
    exact execEnc_of_incomplete hi hm hr hcomp hfull
  case reservedBit =>
    intro w hop hbit
    exact takesAsIllegal_of_decode_error hi ((decode_of_opcode_enc hop).trans (whenZero_of_ne hbit))

/-- Settles O45: the count ENC draws is within its bound. -/
theorem encUnknownSymbolLeavesAPartOfItsTokens : Obligations.EncUnknownSymbolLeavesAPartOfItsTokens := by
  intro comp c s toks hc hm hi hloaded htoks hr
  refine ⟨countUpTo toks.length s.draws, s.draws + 1, countUpTo_le _ _, ?_⟩
  rw [List.append_assoc]
  exact execEnc_of_unknown hi hm hc ((full_iff s.regs).mpr hloaded) htoks hr

/-- Settles O29: QLD loads the entry, a second load of one entry replaces the first, and ZRD reads a loaded entry. -/
theorem qldThenZrdReadsTheEntry : Obligations.QldThenZrdReadsTheEntry := by
  intro cls k n raw s t hk hm hi h
  obtain rfl := Host.Outcome.next.inj (h.symm.trans (execQld_of_class hi hm hk n raw))
  generalize BitVec.ofInt 16 (quantized s.cfg k n raw) = v
  have hcoef := (load_coef s.regs (zzInv n) (zzInv n) v).trans (if_pos rfl)
  have hloaded := (load_isLoaded s.regs (zzInv n) (zzInv n) v).trans (if_pos rfl)
  refine ⟨hcoef, hloaded, fun j hj => ⟨(load_coef _ _ _ _).trans (if_neg hj), (load_isLoaded _ _ _ _).trans (if_neg hj)⟩,
    ?again, ?zrd⟩
  case again =>
    intro raw' t' h'
    rw [exec_qld, execQld_of_class (s := { s with regs := s.regs.load (zzInv n) v }) hi hm hk, load_load] at h'
    exact (execQld_of_class hi hm hk n raw').trans h'
  case zrd =>
    intro hr
    have hzrd := execZrd_of_loaded (s := { s with regs := s.regs.load (zzInv n) v }) hi hm hr hloaded
    rw [hcoef] at hzrd
    exact hzrd

/-- Settles O34: both values are 16-bit ones, so their difference is inside the range of 17 bits. -/
theorem dcDifferenceFits17Bits : Obligations.DcDifferenceFits17Bits := by
  intro r c dc
  have hdc := BitVec.le_toInt dc
  have hdc' := BitVec.toInt_lt (x := dc)
  have hpred := BitVec.le_toInt (r.pred c)
  have hpred' := BitVec.toInt_lt (x := r.pred c)
  have hdiff : dcDiff r c dc = dc.toInt - (r.pred c).toInt := rfl
  refine ⟨by omega, by omega, BitVec.toInt_ofInt_eq_self (by decide) (by omega) (by omega)⟩

/-- Settles O56: INIT writes every register but `QBUF` with the value it has after reset. -/
theorem resetAndInitDifferOnlyInStreamsAndBuffer : Obligations.ResetAndInitDifferOnlyInStreamsAndBuffer := by
  intro s t hi h
  obtain rfl := Host.Outcome.next.inj (h.symm.trans (execInit_of_idle hi))
  refine ⟨?_, rfl, rfl, rfl⟩
  rw [hi]
  rfl
end

