-- ==== Sys2Proof/Proofs/Unobserved.lean ====
section
/-! PROOFS. Nothing of a `QBUF` entry whose load bit is 0 is observed: states that agree but for such entries step to states
that agree so (O21, R25, R301). -/

namespace Sys2Proof.Machine

/-! Registers that agree. -/

theorem Regs.agrees.refl (r : Regs) : r.agrees r := ⟨rfl, rfl, rfl, rfl, rfl, rfl, fun _ _ => rfl⟩

/-- INIT leaves no load bit 1, so no entry is left to agree in. -/
theorem initialise_agrees (r q : Regs) : r.initialise.agrees q.initialise :=
  ⟨rfl, rfl, rfl, rfl, rfl, rfl, fun k hk => by rw [isLoaded_of_loaded_zero rfl] at hk; cases hk⟩

section Registers

variable {r q : Regs} (h : r.agrees q)

include h

theorem Regs.agrees.mode_eq : r.mode = q.mode := h.1

theorem Regs.agrees.loaded_eq : r.loaded = q.loaded := by
  obtain ⟨-, -, -, -, -, hloaded, -⟩ := h
  exact hloaded

theorem Regs.agrees.coef_eq {k : Index} (hk : r.isLoaded k = true) : r.coef k = q.coef k := by
  obtain ⟨-, -, -, -, -, -, hcoef⟩ := h
  exact hcoef k hk

theorem Regs.agrees.pred_eq (c : Component) : r.pred c = q.pred c := by
  obtain ⟨-, -, hY, hCb, hCr, -, -⟩ := h
  cases c
  · exact hY
  · exact hCb
  · exact hCr

theorem Regs.agrees.isLoaded_eq (k : Index) : r.isLoaded k = q.isLoaded k := isLoaded_congr h.loaded_eq k

theorem Regs.agrees.full_eq : r.full = q.full := by rw [Regs.full, Regs.full, h.loaded_eq]

/-- No register of RDREG shows `QBUF` (R31 to R34). -/
theorem Regs.agrees.register_eq (reg : Byte) : r.register reg = q.register reg := by
  obtain ⟨hmode, hcause, hY, hCb, hCr, hloaded, -⟩ := h
  simp only [Regs.register, Regs.status, Regs.full, hmode, hcause, hY, hCb, hCr, hloaded]

/-- With a full block there is no entry in which the registers could differ. -/
theorem Regs.agrees.eq_of_full (hfull : r.full = true) : r = q := by
  obtain ⟨hmode, hcause, hY, hCb, hCr, hloaded, hcoef⟩ := h
  have hqbuf : r.qbuf = q.qbuf := Vector.ext fun k hk =>
    hcoef (BitVec.ofFin ⟨k, hk⟩) ((full_iff r).mp hfull _)
  obtain ⟨⟩ := r
  obtain ⟨⟩ := q
  simp_all only

theorem Regs.agrees.faultEffect (x : FaultCause) (ws : List Word) :
    (faultEffect x ws r).regs.agrees (faultEffect x ws q).regs := by
  obtain ⟨-, -, hdata⟩ := h
  exact ⟨rfl, rfl, hdata⟩

theorem Regs.agrees.load (k : Index) (v : Half) : (r.load k v).agrees (q.load k v) := by
  obtain ⟨hmode, hcause, hY, hCb, hCr, hloaded, hcoef⟩ := h
  refine ⟨hmode, hcause, hY, hCb, hCr, by rw [load_loaded, load_loaded, hloaded], fun j hj => ?_⟩
  rw [load_isLoaded] at hj
  rw [load_coef, load_coef]
  split
  case isTrue => rfl
  case isFalse hne => exact hcoef j (by rwa [if_neg hne] at hj)

theorem Regs.agrees.setPred (c : Component) (v : Half) : (r.setPred c v).agrees (q.setPred c v) := by
  obtain ⟨hmode, hcause, hY, hCb, hCr, hdata⟩ := h
  cases c
  · exact ⟨hmode, hcause, rfl, hCb, hCr, hdata⟩
  · exact ⟨hmode, hcause, hY, rfl, hCr, hdata⟩
  · exact ⟨hmode, hcause, hY, hCb, rfl, hdata⟩

end Registers

/-! Effects that agree: the same words, the same draws, and registers that agree. -/

/-- Effects, each with the count of draws after it, that agree but for the `QBUF` entries whose load bit is 0. -/
def EffectAgrees (p o : Effect × Nat) : Prop := p.1.words = o.1.words ∧ p.1.regs.agrees o.1.regs ∧ p.2 = o.2

theorem effectAgrees_faultEffect {r q : Regs} (h : r.agrees q) (x : FaultCause) (d : Nat) :
    Option.Rel EffectAgrees (some (faultEffect x [] r, d)) (some (faultEffect x [] q, d)) :=
  .some ⟨rfl, h.faultEffect x [], rfl⟩

theorem effectAgrees_words {r q : Regs} (h : r.agrees q) (ws : List Word) (d : Nat) :
    Option.Rel EffectAgrees (some (⟨ws, r⟩, d)) (some (⟨ws, q⟩, d)) := .some ⟨rfl, h, rfl⟩

theorem effectAgrees_refl (p : Option (Effect × Nat)) : Option.Rel EffectAgrees p p := by
  cases p with
  | none => exact .none
  | some p => exact .some ⟨rfl, .refl _, rfl⟩

theorem runEffect_agrees {r q : Regs} (h : r.agrees q) (c : Config) (d : Nat) (i : Instr) :
    Option.Rel EffectAgrees (runEffect c r d i) (runEffect c q d i) := by
  cases i with
  | nop => exact .none
  | init => exact .some ⟨rfl, initialise_agrees r q, rfl⟩
  | csc x y z => exact effectAgrees_words h _ d
  | vli v => exact effectAgrees_words h _ d
  | qld cls n raw =>
    simp only [runEffect]
    cases classOf cls with
    | none => exact effectAgrees_faultEffect h _ d
    | some k => exact .some ⟨rfl, h.load _ _, rfl⟩
  | zrd k =>
    simp only [runEffect, ← h.isLoaded_eq]
    cases hk : r.isLoaded k with
    | false => exact effectAgrees_words h _ _
    | true => rw [h.coef_eq hk]; exact effectAgrees_words h _ d
  | dcp comp dc =>
    simp only [runEffect]
    cases componentOf comp with
    | none => exact effectAgrees_faultEffect h _ d
    | some k => exact .some ⟨by simp only [dcDiff, h.pred_eq], h.setPred k dc, rfl⟩
  | hlk t sym =>
    simp only [runEffect]
    cases hrom c (tableOf t) sym with
    | none => exact effectAgrees_faultEffect h _ d
    | some e => exact effectAgrees_words h _ d
  | enc comp =>
    cases hfull : r.full with
    | true => rw [h.eq_of_full hfull]; exact effectAgrees_refl _
    | false =>
      simp only [runEffect, ← h.full_eq, hfull]
      cases componentOf comp <;> exact effectAgrees_faultEffect h _ d
  | rdreg reg =>
    simp only [runEffect, ← h.register_eq]
    cases r.register reg with
    | none => exact effectAgrees_faultEffect h _ d
    | some v => exact effectAgrees_words h _ d

theorem faultModeEffect_agrees {r q : Regs} (h : r.agrees q) (d : Nat) (i : Instr) :
    Option.Rel EffectAgrees (faultModeEffect r d i) (faultModeEffect q d i) := by
  cases i with
  | init => exact .some ⟨rfl, initialise_agrees r q, rfl⟩
  | rdreg reg =>
    simp only [faultModeEffect, ← h.register_eq]
    cases r.register reg with
    | none => exact .none
    | some v => exact effectAgrees_words h _ d
  | nop | csc | qld | zrd | dcp | vli | hlk | enc => exact .none

theorem effect_agrees {r q : Regs} (h : r.agrees q) (c : Config) (d : Nat) (i : Instr) :
    Option.Rel EffectAgrees (effect c r d i) (effect c q d i) := by
  unfold effect
  rw [← h.mode_eq]
  cases r.mode
  · exact runEffect_agrees h c d i
  · exact faultModeEffect_agrees h d i

/-! States that agree. -/

theorem complete_agrees {s t : State} (h : s.agrees t) {e f : Effect} (hwords : e.words = f.words)
    (hregs : e.regs.agrees f.regs) : (s.complete e).agrees (t.complete f) := by
  obtain ⟨hcfg, hs, hout, hcmd, -, hdraws⟩ := h
  unfold State.complete
  rw [← hcfg, ← hout, ← hwords]
  split
  · exact ⟨rfl, hregs, rfl, hcmd, trivial, hdraws⟩
  · split
    · exact ⟨rfl, hregs, rfl, hcmd, trivial, hdraws⟩
    · exact ⟨rfl, hs, rfl, hcmd, ⟨rfl, hregs⟩, hdraws⟩

theorem exec_agrees {s t s' : State} (h : s.agrees t) (i : Instr) (hexec : exec i s = .next s') :
    ∃ t', exec i t = .next t' ∧ s'.agrees t' := by
  obtain ⟨hcfg, hregs, hout, hcmd, hinflight, hdraws⟩ := id h
  obtain rfl := Host.Outcome.next.inj (hexec.symm.trans (exec_eq_effect i s))
  refine ⟨_, exec_eq_effect i t, ?_⟩
  have heffect := effect_agrees hregs s.cfg s.draws i
  rw [← hcfg, ← hdraws]
  generalize effect s.cfg s.regs s.draws i = p at heffect ⊢
  generalize effect s.cfg t.regs s.draws i = o at heffect ⊢
  cases heffect with
  | none => exact h
  | @some a b hp =>
    obtain ⟨hwords, heregs, hn⟩ := hp
    exact complete_agrees (s := { s with draws := a.2 }) (t := { t with draws := b.2 })
      ⟨hcfg, hregs, hout, hcmd, hinflight, hn⟩ hwords heregs

theorem inflight_none_of_agrees {s t : State} (h : s.agrees t) (hi : s.inflight = none) : t.inflight = none := by
  obtain ⟨-, -, -, -, hinflight, -⟩ := h
  cases ht : t.inflight with
  | none => rfl
  | some f => rw [hi, ht] at hinflight; exact hinflight.elim

theorem inflight_some_of_agrees {s t : State} (h : s.agrees t) {e : Effect} (hi : s.inflight = some e) :
    ∃ f, t.inflight = some f ∧ e.words = f.words ∧ e.regs.agrees f.regs := by
  obtain ⟨-, -, -, -, hinflight, -⟩ := h
  cases ht : t.inflight with
  | none => rw [hi, ht] at hinflight; exact hinflight.elim
  | some f => rw [hi, ht] at hinflight; exact ⟨f, rfl, hinflight⟩

theorem step_agrees {s t s' : State} (h : s.agrees t) (hstep : step s = .next s') :
    ∃ t', step t = .next t' ∧ s'.agrees t' := by
  obtain ⟨hcfg, hregs, hout, hcmd, hinflight, hdraws⟩ := id h
  obtain ⟨hi, hc, rfl⟩ | ⟨e, he, rfl⟩ | ⟨w, rest, hi, hc, hexec⟩ := step_cases hstep
  · exact ⟨t, step_of_no_cmd (inflight_none_of_agrees h hi) (hcmd ▸ hc), h⟩
  · obtain ⟨f, hf, hwords, heregs⟩ := inflight_some_of_agrees h he
    exact ⟨_, step_of_inflight hf, complete_agrees h hwords heregs⟩
  · rw [step_of_cmd (inflight_none_of_agrees h hi) (hcmd ▸ hc)]
    exact exec_agrees (s := { s with cmd := rest }) (t := { t with cmd := rest }) 
      ⟨hcfg, hregs, hout, rfl, hinflight, hdraws⟩ (commandOf w) hexec

end Sys2Proof.Machine

open Sys2Proof Sys2Proof.Machine

/-- Settles O21: an effect shows an entry only where its load bit is 1, and ENC reads the buffer only when it is full, where
registers that agree are equal. -/
theorem unloadedEntriesAreNeverObserved : Obligations.UnloadedEntriesAreNeverObserved :=
  fun _ _ _ => step_agrees
end

