-- ==== Sys2Proof/Proofs/RunOutcome.lean ====
section
/-! PROOFS. The end of a run on an OUT without bound, and the observation of an ended run as a function of the words it was sent
(O9, R59, R317, R318). -/

namespace Sys2Proof.Machine

/-! What is still to come of a state: the registers, the count of draws and the words to be emitted once the command in progress
and a list of command words have run. -/

/-- The registers and the count of draws after the commands of these words, and the words they emit. -/
def afterWords (c : Config) : List Word → Regs → Nat → (Regs × Nat) × List Word
  | [], r, d => ((r, d), [])
  | w :: ws, r, d =>
    match effect c r d (commandOf w) with
    | none => afterWords c ws r d
    | some (e, n) => ((afterWords c ws e.regs n).1, e.words ++ (afterWords c ws e.regs n).2)

/-- The command in progress, or one that has nothing left to do. -/
def State.inProgress (s : State) : Effect := s.inflight.getD ⟨[], s.regs⟩

/-- The outcome of a state once the command in progress, the words on CMD and those still to be sent have run. -/
def State.outcome (s : State) (sent : List Word) : (Regs × Nat) × List Word :=
  ((afterWords s.cfg (s.cmd ++ sent) s.inProgress.regs s.draws).1,
    s.inProgress.words ++ (afterWords s.cfg (s.cmd ++ sent) s.inProgress.regs s.draws).2)

/-- What remains of an outcome, with words emitted before it. -/
def emitFirst (ws : List Word) (o : (Regs × Nat) × List Word) : (Regs × Nat) × List Word := (o.1, ws ++ o.2)

theorem emitFirst_append (ws vs : List Word) (o : (Regs × Nat) × List Word) :
    emitFirst (ws ++ vs) o = emitFirst ws (emitFirst vs o) := by
  rw [emitFirst, emitFirst, emitFirst, List.append_assoc]

theorem outcome_of_idle {s : State} (hi : s.inflight = none) (sent : List Word) :
    s.outcome sent = afterWords s.cfg (s.cmd ++ sent) s.regs s.draws := by
  rw [State.outcome, State.inProgress, hi]
  rfl

theorem outcome_of_ended {s : State} (h : s.ended = true) : s.outcome [] = ((s.regs, s.draws), []) := by
  obtain ⟨hc, hi⟩ : s.cmd = [] ∧ s.inflight = none := by simpa [State.ended] using h
  rw [outcome_of_idle hi, hc]
  rfl

/-- Completing puts some of the words on OUT, and leaves the others and the registers to come. -/
theorem outcome_complete (s : State) (e : Effect) (sent : List Word) : ∃ ws, (s.complete e).out = s.out ++ ws ∧
    emitFirst ws ((s.complete e).outcome sent) = emitFirst e.words (afterWords s.cfg (s.cmd ++ sent) e.regs s.draws) := by
  obtain h | ⟨_, ws, rest, -, hsplit, -, -, h⟩ := complete_cases s e <;> rw [h]
  · exact ⟨e.words, rfl, rfl⟩
  · refine ⟨ws, rfl, ?_⟩
    rw [hsplit, emitFirst_append]
    rfl

/-- A step emits the first words of the outcome, and what remains of it is the outcome of the next state. -/
theorem outcome_step {s t : State} (h : step s = .next t) (sent : List Word) :
    ∃ ws, t.out = s.out ++ ws ∧ s.outcome sent = emitFirst ws (t.outcome sent) := by
  obtain ⟨-, -, rfl⟩ | ⟨e, he, rfl⟩ | ⟨w, rest, hi, hc, hexec⟩ := step_cases h
  · exact ⟨[], (List.append_nil _).symm, rfl⟩
  · obtain ⟨ws, hout, hws⟩ := outcome_complete s e sent
    refine ⟨ws, hout, ?_⟩
    rw [hws, State.outcome, State.inProgress, he]
    rfl
  · obtain rfl := Host.Outcome.next.inj (hexec.symm.trans (exec_eq_effect _ _))
    rw [outcome_of_idle hi, hc, List.cons_append, afterWords]
    cases effect s.cfg s.regs s.draws (commandOf w) with
    | none => exact ⟨[], (List.append_nil _).symm, (outcome_of_idle (s := { s with cmd := rest }) hi sent).symm⟩
    | some p =>
      obtain ⟨e, n⟩ := p
      obtain ⟨ws, hout, hws⟩ := outcome_complete { s with cmd := rest, draws := n } e sent
      exact ⟨ws, hout, hws.symm⟩

theorem outcome_event {s t : State} {e : Event} (h : s.after e = .next t) (es : List Event) :
    s.outcome (wordsSent (e :: es)) = emitFirst (e.emitted s t) (t.outcome (wordsSent es)) := by
  cases e with
  | step =>
    obtain ⟨ws, hout, hws⟩ := outcome_step h (wordsSent es)
    rw [wordsSent_step, hws, Event.emitted, hout, List.drop_left]
  | send w =>
    obtain rfl := Host.Outcome.next.inj h
    rw [wordsSent_send, State.outcome, List.append_cons]
    rfl
  | take =>
    obtain rfl := Host.Outcome.next.inj ((after_take s).symm.trans h)
    rfl

theorem outcome_run {es : List Event} {s t : State} {ws : List Word} (h : runEvents es s = .next (t, ws)) :
    s.outcome (wordsSent es) = emitFirst ws (t.outcome []) := by
  induction es generalizing s ws with
  | nil =>
    obtain ⟨rfl, rfl⟩ := Prod.mk.inj (Host.Outcome.next.inj h)
    rfl
  | cons e es ih =>
    obtain ⟨u, hu⟩ := after_next s e
    obtain ⟨vs, hrest, rfl⟩ := (runEvents_cons_iff hu).mp h
    rw [outcome_event hu, ih hrest, emitFirst_append]

theorem outcome_run_of_ended {es : List Event} {s t : State} {ws : List Word} (h : runEvents es s = .next (t, ws))
    (ht : t.ended = true) : s.outcome (wordsSent es) = ((t.regs, t.draws), ws) := by
  rw [outcome_run h, outcome_of_ended ht, emitFirst, List.append_nil]

/-- The observation is of the registers and the words emitted alone (R317). -/
theorem observed_congr {t u : State} (h : t.regs = u.regs) (ws : List Word) : t.observed ws = u.observed ws := by
  rw [State.observed, State.observed, h]

/-! A run of as many steps as CMD holds words, on an OUT without bound. -/

theorem run_succ {M : Host.Core} {s t : M.State} (h : M.step s = .next t) (k : Nat) : M.run (k + 1) s = M.run k t := by
  rw [Host.Core.run, h]

theorem run_steps_of_unbounded {s : State} (ho : s.cfg.outDepth = none) (hi : s.inflight = none) :
    ∃ t ws, runEvents (List.replicate s.cmd.length .step) s = .next (t, ws) ∧ t.ended = true ∧ t.out = s.out ++ ws ∧
      Host.Core.run Sys2Proof.core s.cmd.length s = .next t := by
  obtain ⟨cmd, hcmd⟩ : ∃ cmd, s.cmd = cmd := ⟨_, rfl⟩
  induction cmd generalizing s with
  | nil =>
    rw [hcmd]
    exact ⟨s, [], rfl, by rw [State.ended, hcmd, hi]; rfl, (List.append_nil _).symm, rfl⟩
  | cons w rest ih =>
    obtain ⟨u, vs, hexec, hu, hui, huout, -⟩ := exec_of_unbounded (s := { s with cmd := rest }) ho hi (commandOf w)
    have hstep : step s = .next u := (step_of_cmd hi hcmd).trans hexec
    have huo : u.cfg.outDepth = none := by rw [step_keeps_cfg hstep, ho]
    obtain ⟨t, ws, hrun, hended, hout, hcore⟩ := ih huo hui hu
    rw [hu] at hrun hcore
    rw [hcmd, List.length_cons, List.replicate_succ, run_succ (M := core) hstep]
    refine ⟨t, vs ++ ws, (runEvents_cons_iff (e := .step) hstep).mpr ⟨ws, hrun, ?_⟩, hended, ?_, hcore⟩
    · rw [Event.emitted, huout, List.drop_left]
    · rw [hout, huout, List.append_assoc]

end Sys2Proof.Machine

open Sys2Proof Sys2Proof.Machine

/-- Settles O9: on an OUT without bound each step runs one word; and for any OUT every event keeps the outcome, which depends
on the words alone, and an ended run is at its outcome. -/
theorem runEndsAfterItsWords : Obligations.RunEndsAfterItsWords := by
  refine ⟨fun s => run_steps_of_unbounded, ?determined⟩
  case determined =>
    intro s t u before ws vs es fs hes hfs hsent ht hu
    have houtcome : s.outcome (wordsSent es) = _ := outcome_run_of_ended hes ht
    have houtcome' : s.outcome (wordsSent fs) = _ := outcome_run_of_ended (s := { s with out := before }) hfs hu
    rw [hsent, houtcome', Prod.mk.injEq, Prod.mk.injEq] at houtcome
    obtain ⟨⟨hregs, -⟩, rfl⟩ := houtcome
    exact observed_congr hregs.symm vs
end

