-- ==== Sys2Proof/Proofs/Configurations.lean ====
section
/-! PROOFS. The admissible configurations as those that describe a JEC (O40, R8, R12, R196), when a block has a symbol
without a code (O46, R224), and the reach of the default tables (O50). -/

namespace Sys2Proof.Machine

/-! The checks of a configuration, in words. -/

theorem matrixOk_iff (q : Vector (BitVec 8) 64) : matrixOk q = true ↔ ∀ n : Index, 1 ≤ (q[at64 n]).toNat := by
  simp only [matrixOk, List.all_eq_true, decide_eq_true_eq, Vector.mem_toList_iff, Vector.mem_iff_getElem]
  constructor
  · intro h n
    exact h _ ⟨(at64 n).val, (at64 n).isLt, rfl⟩
  · rintro h x ⟨k, hk, rfl⟩
    exact h (BitVec.ofFin ⟨k, hk⟩)

theorem depthOk_iff (d : Option Nat) : depthOk d = true ↔ d ≠ some 0 := by
  cases d <;> simp [depthOk, Nat.one_le_iff_ne_zero]

theorem admissible_iff (c : Config) : admissible c = true ↔
    matrixOk c.qtabLuma = true ∧ matrixOk c.qtabChroma = true ∧ (∀ t, tableOk (symbolOk t) (huff c t) = true) ∧
      depthOk c.outDepth = true := by
  simp only [admissible, Bool.and_eq_true, and_assoc]
  refine and_congr_right fun _ => and_congr_right fun _ => ⟨?_, ?_⟩
  · rintro ⟨hdcLuma, hdcChroma, hacLuma, hacChroma, hdepth⟩
    exact ⟨fun t => by cases t <;> assumption, hdepth⟩
  · rintro ⟨htables, hdepth⟩
    exact ⟨htables .dcLuma, htables .dcChroma, htables .acLuma, htables .acChroma, hdepth⟩

/-- Each entry of a table of a described configuration is what looking its symbol up gives. -/
theorem Describes.hrom_of_mem {c : Config} (h : Describes c) {t : TableId} {e : RomEntry} (he : e ∈ huff c t) :
    hrom c t e.sym = some (entryString e) :=
  (lookup_eq_some_iff (h.listed t) e.sym _).mpr ⟨e, he, rfl, rfl⟩

theorem Describes.symbolOk_of_mem {c : Config} (h : Describes c) {t : TableId} {e : RomEntry} (he : e ∈ huff c t) :
    symbolOk t e.sym = true := by
  have hlookup := h.hrom_of_mem he
  cases t
  · exact (isDcSymbol_iff _).mpr (h.dcSymbols _ _ _ (.inl rfl) hlookup)
  · exact (isDcSymbol_iff _).mpr (h.dcSymbols _ _ _ (.inr rfl) hlookup)
  · exact (isAcSymbol_iff _).mpr (h.acSymbols _ _ _ (.inl rfl) hlookup)
  · exact (isAcSymbol_iff _).mpr (h.acSymbols _ _ _ (.inr rfl) hlookup)

theorem Describes.codePrefix_eq_false {c : Config} (h : Describes c) {t : TableId} {e f : RomEntry} (he : e ∈ huff c t)
    (hf : f ∈ huff c t) (hne : e.sym ≠ f.sym) : codePrefix e f = false := by
  refine Bool.eq_false_iff.mpr fun hprefix => ?_
  obtain ⟨hlen, hbits⟩ := (codePrefix_iff e f).mp hprefix
  exact h.prefixes t e.sym f.sym _ _ (h.hrom_of_mem he) (h.hrom_of_mem hf) hne hlen hbits

theorem Describes.tableOk_huff {c : Config} (h : Describes c) (t : TableId) : tableOk (symbolOk t) (huff c t) = true := by
  refine tableOk_iff.mpr ⟨h.listed t, fun e he => ?fits, fun e he => h.symbolOk_of_mem he, ?prefixFree⟩
  case fits => exact (entryFits_iff e).mpr (h.codes t e.sym _ (h.hrom_of_mem he))
  case prefixFree =>
    refine (h.listed t).imp_of_mem @fun e f he hf hlt => ?_
    have hne : e.sym ≠ f.sym := fun heq => hlt.ne (congrArg BitVec.toNat heq)
    exact ⟨h.codePrefix_eq_false he hf hne, h.codePrefix_eq_false hf he hne.symm⟩

theorem admissible_of_describes {c : Config} (h : Describes c) : admissible c = true :=
  (admissible_iff c).mpr ⟨(matrixOk_iff _).mpr fun n => (h.matrices n).1, (matrixOk_iff _).mpr fun n => (h.matrices n).2,
    h.tableOk_huff, (depthOk_iff _).mpr h.depth⟩

theorem describes_of_admissible {c : Config} (h : admissible c = true) : Describes c := by
  obtain ⟨hluma, hchroma, htables, hdepth⟩ := (admissible_iff c).mp h
  have hlookups := fun t => admissibleTablesArePrefixFree c t h
  refine ⟨fun n => ⟨(matrixOk_iff _).mp hluma n, (matrixOk_iff _).mp hchroma n⟩, (depthOk_iff _).mp hdepth, ?listed, ?codes,
    ?prefixes, ?dcSymbols, ?acSymbols⟩ <;> intro t <;> obtain ⟨hcodes, hprefixes, hdc, hac⟩ := hlookups t
  case listed =>
    obtain ⟨hrising, -⟩ := tableOk_iff.mp (htables t)
    exact hrising
  case codes => exact hcodes
  case prefixes => exact hprefixes
  case dcSymbols => exact hdc
  case acSymbols => exact hac

theorem defaultConfig_admissible : admissible defaultConfig = true := by decide +kernel

/-! When a block has a symbol without a code. -/

theorem dcEntry_ne_none_iff (c : Config) (cls : ChannelClass) (diff : Int) : dcEntry c cls diff ≠ none ↔
    category diff ≤ 11 ∧ hrom c (dcTable cls) (BitVec.ofNat 8 (category diff)) ≠ none := by
  unfold dcEntry
  split <;> simp [*]

theorem acEntry_rc_ne_none_iff (c : Config) (cls : ChannelClass) (run cat : Nat) (v : Int) :
    acEntry c cls (.rc run cat v) ≠ none ↔ cat ≤ 10 ∧ hrom c (acTable cls) (acSymbol run cat) ≠ none := by
  simp only [acEntry]
  split <;> simp [*]

/-- The tokens are complete exactly when every symbol has an entry (R224). -/
theorem blockTokens_complete_iff (c : Config) (comp : Component) (r : Regs) : (blockTokens c comp r).2 = true ↔
    dcEntry c (classOfComponent comp) (dcDiff r comp r.dc) ≠ none ∧
      ∀ x ∈ acSymbols r.acs, acEntry c (classOfComponent comp) x ≠ none := by
  obtain ⟨hdc, htokens⟩ | ⟨e, ps, post, hdc, hitems, hentries, hstop, htokens⟩ := blockTokens_cases c comp r
  · rw [htokens]
    exact iff_of_false Bool.false_ne_true fun h => h.1 hdc
  · rw [htokens, hdc, hitems]
    cases post with
    | nil =>
      refine iff_of_true rfl ⟨nofun, fun x hx => ?_⟩
      obtain ⟨p, hp, rfl⟩ := List.mem_map.mp (List.append_nil _ ▸ hx)
      rw [hentries p hp]
      nofun
    | cons x post => exact iff_of_false Bool.false_ne_true fun h => h.2 x (by simp) (hstop x rfl)

/-! The reach of the default tables: every DC category up to 11 has a code, and every run with a category up to 10 (R197 to
R200). -/

theorem defaultConfig_dc_code : ∀ cls, ∀ cat < 12, hrom defaultConfig (dcTable cls) (BitVec.ofNat 8 cat) ≠ none := by
  rintro (_ | _) <;> decide +kernel

theorem defaultConfig_rc_code :
    ∀ cls, ∀ run < 16, ∀ cat < 11, 1 ≤ cat → hrom defaultConfig (acTable cls) (acSymbol run cat) ≠ none := by
  rintro (_ | _) <;> decide +kernel

theorem defaultConfig_zrl_code : ∀ cls, hrom defaultConfig (acTable cls) 0xF0 ≠ none := by
  rintro (_ | _) <;> decide +kernel

theorem defaultConfig_eob_code : ∀ cls, hrom defaultConfig (acTable cls) 0x00 ≠ none := by
  rintro (_ | _) <;> decide +kernel

theorem value_mem_of_rc_mem {a : List Int} {run cat : Nat} {v : Int} (h : .rc run cat v ∈ acSymbols a) : v ∈ a := by
  have hv : v ∈ (acSymbols a).filterMap AcItem.value? := List.mem_filterMap.mpr ⟨_, h, rfl⟩
  rw [filterMap_value?_acSymbols] at hv
  exact List.mem_of_mem_filter hv

theorem exists_coef_of_mem_acs {r : Regs} {v : Int} (h : v ∈ r.acs) : ∃ k : Index, k ≠ 0 ∧ v = (r.coef k).toInt := by
  obtain ⟨i, hi, rfl⟩ := List.getElem_of_mem h
  rw [length_acs] at hi
  refine ⟨BitVec.ofFin ⟨i + 1, by omega⟩, ?_, ?_⟩
  · intro h0
    have := congrArg BitVec.toNat h0
    simp at this
  · simp [Regs.acs, Regs.coef, at64, sext16]

theorem defaultConfig_complete {comp : Component} {r : Regs} (hdc : |r.dc.toInt - (r.pred comp).toInt| ≤ 2047)
    (hac : ∀ k : Index, k ≠ 0 → |(r.coef k).toInt| ≤ 1023) : (blockTokens defaultConfig comp r).2 = true := by
  refine (blockTokens_complete_iff _ _ _).mpr ⟨?dc, fun x hx => ?ac⟩
  case dc =>
    have hcat : category (dcDiff r comp r.dc) ≤ 11 := (category_le_iff _ _).mpr (Int.lt_of_le_of_lt hdc (by decide))
    exact (dcEntry_ne_none_iff _ _ _).mpr ⟨hcat, defaultConfig_dc_code _ _ (Nat.lt_succ_of_le hcat)⟩
  case ac =>
    cases x with
    | zrl => exact defaultConfig_zrl_code _
    | eob => exact defaultConfig_eob_code _
    | rc run cat v =>
      obtain ⟨hrun, hpos, rfl, -⟩ := rc_of_mem_acSymbols hx
      obtain ⟨k, hk, rfl⟩ := exists_coef_of_mem_acs (value_mem_of_rc_mem hx)
      have hcat : category (r.coef k).toInt ≤ 10 := (category_le_iff _ _).mpr (Int.lt_of_le_of_lt (hac k hk) (by decide))
      exact (acEntry_rc_ne_none_iff _ _ _ _ _).mpr
        ⟨hcat, defaultConfig_rc_code _ run (Nat.lt_succ_of_le hrun) _ (Nat.lt_succ_of_le hcat) hpos⟩

end Sys2Proof.Machine

open Sys2Proof Sys2Proof.Machine

/-- Settles O40: the checks of `admissible` say what `Describes` says, and the default configuration passes them. -/
theorem launchRefusesInadmissibleConfigurations : Obligations.LaunchRefusesInadmissibleConfigurations :=
  ⟨if_pos defaultConfig_admissible, fun _ h => if_pos (admissible_of_describes h),
    fun _ h => if_neg (mt describes_of_admissible h)⟩

/-- Settles O46: the tokens are complete exactly when every symbol has an entry, and each kind of symbol has one by its rule. -/
theorem blockFaultsExactlyWithoutACode : Obligations.BlockFaultsExactlyWithoutACode := by
  intro c comp r
  refine (blockTokens_complete_iff c comp r).trans (and_congr (dcEntry_ne_none_iff _ _ _) (forall₂_congr fun x _ => ?_))
  cases x with
  | zrl => exact Iff.rfl
  | rc run cat v => exact acEntry_rc_ne_none_iff _ _ _ _ _
  | eob => exact Iff.rfl

/-- Settles O50: within these limits every symbol has a default code, so ENC emits all tokens of the block. -/
theorem encCompletesWithDefaultTables : Obligations.EncCompletesWithDefaultTables := by
  intro comp c s hc hm hi hcfg hfull hdc hac
  have htoks : blockTokens s.cfg c s.regs = ((blockTokens s.cfg c s.regs).1, true) :=
    Prod.ext rfl (hcfg ▸ defaultConfig_complete hdc hac)
  have hroom := hasRoom_of_unbounded (s := s) (by rw [hcfg]; rfl) (blockTokens s.cfg c s.regs).1.length
  exact ⟨_, execEnc_of_block hi hm hc hfull htoks hroom, length_blockTokens_bounds htoks⟩
end

