-- ==== Sys2Proof/Proofs/BlockBits.lean ====
section
/-! PROOFS. The bits of a block determine it (O51, R17, R196, R225): a code is read off the front of a bit string in one way, the
symbol of the code says how many value bits follow, and those are of one value. -/

namespace Sys2Proof.Machine

/-! Concatenation of bit strings (R17). -/

@[simp] theorem concatBits_empty_left (s : BitString) : concatBits ⟨0, 0⟩ s = s := by simp [concatBits]

@[simp] theorem concatBits_empty_right (s : BitString) : concatBits s ⟨0, 0⟩ = s := by simp [concatBits]

theorem concatBits_assoc (a b c : BitString) : concatBits (concatBits a b) c = concatBits a (concatBits b c) := by
  simp only [concatBits, BitString.mk.injEq]
  exact ⟨Nat.add_assoc _ _ _, by rw [pow_add]; ring⟩

theorem foldl_concatBits (s : BitString) (ss : List BitString) :
    ss.foldl concatBits s = concatBits s (concatAll ss) := by
  induction ss generalizing s with
  | nil => exact (concatBits_empty_right s).symm
  | cons t ts ih =>
    rw [concatAll, List.foldl_cons, List.foldl_cons, ih, ih (concatBits _ t), concatBits_empty_left, concatBits_assoc]

theorem concatAll_cons (s : BitString) (ss : List BitString) : concatAll (s :: ss) = concatBits s (concatAll ss) := by
  rw [concatAll, List.foldl_cons, concatBits_empty_left, foldl_concatBits]

/-- The value of a bit string fits its length (R17). -/
def Proper (s : BitString) : Prop := s.bits < 2 ^ s.len

theorem proper_concatBits {a x : BitString} (ha : Proper a) (hx : Proper x) : Proper (concatBits a x) := by
  unfold Proper concatBits at *
  calc a.bits * 2 ^ x.len + x.bits < (a.bits + 1) * 2 ^ x.len := by rw [Nat.add_one_mul]; omega
    _ ≤ 2 ^ a.len * 2 ^ x.len := Nat.mul_le_mul_right _ ha
    _ = 2 ^ (a.len + x.len) := (pow_add _ _ _).symm

/-- The bits of the first string, read off the concatenation. -/
theorem concatBits_bits_div {a x : BitString} (hx : Proper x) : (concatBits a x).bits / 2 ^ x.len = a.bits := by
  rw [concatBits, Nat.mul_comm, Nat.mul_add_div (Nat.two_pow_pos _), Nat.div_eq_of_lt hx, Nat.add_zero]

section Front

variable {a b x y : BitString} (hx : Proper x) (hy : Proper y) (h : concatBits a x = concatBits b y)

include hx hy h

/-- Of two strings at the front of one bit string, the shorter is at the front of the longer. -/
theorem bits_div_of_concatBits_eq (hlen : a.len ≤ b.len) : b.bits / 2 ^ (b.len - a.len) = a.bits := by
  have htotal : a.len + x.len = b.len + y.len := congrArg BitString.len h
  have hxlen : x.len = y.len + (b.len - a.len) := by omega
  calc b.bits / 2 ^ (b.len - a.len) = (concatBits b y).bits / 2 ^ y.len / 2 ^ (b.len - a.len) := by
        rw [concatBits_bits_div hy]
    _ = (concatBits a x).bits / 2 ^ x.len := by rw [h, hxlen, pow_add, Nat.div_div_eq_div_mul]
    _ = a.bits := concatBits_bits_div hx

/-- Two strings of one length at the front of one bit string are equal, and so are the rests. -/
theorem concatBits_inj (hlen : a.len = b.len) : a = b ∧ x = y := by
  have hbits := bits_div_of_concatBits_eq hx hy h hlen.le
  rw [hlen, Nat.sub_self, pow_zero, Nat.div_one] at hbits
  obtain ⟨alen, abits⟩ := a
  obtain ⟨blen, bbits⟩ := b
  obtain ⟨xlen, xbits⟩ := x
  obtain ⟨ylen, ybits⟩ := y
  simp only at hlen hbits
  subst hlen hbits
  simp only [concatBits, BitString.mk.injEq] at h
  obtain ⟨hlength, hsum⟩ := h
  obtain rfl := Nat.add_left_cancel hlength
  exact ⟨rfl, by rw [Nat.add_left_cancel hsum]⟩

/-- A code at the front of a bit string tells its symbol: of two codes of a table neither is at the front of the other
(R196 (b)). -/
theorem symbol_of_code_at_front {p : Byte → Bool} {tab : CodeTable} (htable : tableOk p tab = true) {s u : Byte}
    (ha : lookup tab s = some a) (hb : lookup tab u = some b) : s = u ∧ x = y := by
  have hsymbol : s = u := by
    by_contra hne
    rcases Nat.le_total a.len b.len with hlen | hlen
    · exact lookup_prefixFree htable ha hb hne hlen (bits_div_of_concatBits_eq hx hy h hlen)
    · exact lookup_prefixFree htable hb ha (Ne.symm hne) hlen (bits_div_of_concatBits_eq hy hx h.symm hlen)
  subst hsymbol
  obtain rfl := Option.some.inj (ha.symm.trans hb)
  obtain ⟨-, hrest⟩ := concatBits_inj hx hy h rfl
  exact ⟨rfl, hrest⟩

end Front

/-! The value bits of a symbol (R191, R202). -/

theorem proper_vliBits (v : Int) : Proper (vliBits v) := by
  rw [Proper, vliBits_len]
  exact vliBits_bits_lt v

theorem vliBits_injective : Function.Injective vliBits :=
  Function.LeftInverse.injective unvli_vliBits

/-- The value bits that follow the code of an AC item. -/
def AcItem.valueBits : AcItem → BitString
  | .zrl => ⟨0, 0⟩
  | .rc _ _ v => vliBits v
  | .eob => ⟨0, 0⟩

theorem proper_valueBits (x : AcItem) : Proper x.valueBits := by
  cases x with
  | zrl => exact Nat.one_pos
  | rc run cat v => exact proper_vliBits v
  | eob => exact Nat.one_pos

/-- An item whose symbol byte holds its run and its category (R94, R172). -/
def AcItem.Coded : AcItem → Prop
  | .zrl => True
  | .rc run cat v => run ≤ 15 ∧ 1 ≤ cat ∧ cat ≤ 10 ∧ cat = category v
  | .eob => True

theorem coded_of_acEntry {c : Config} {cls : ChannelClass} {a : List Int} {x : AcItem} {e : BitString}
    (hx : x ∈ acSymbols a) (he : acEntry c cls x = some e) : x.Coded := by
  cases x with
  | zrl => trivial
  | rc run cat v =>
    obtain ⟨hrun, hpos, hcat, -⟩ := rc_of_mem_acSymbols hx
    exact ⟨hrun, hpos, (Option.ite_none_right_eq_some.mp he).1, hcat⟩
  | eob => trivial

theorem acSymbol_toNat {run cat : Nat} (hrun : run ≤ 15) (hcat : cat ≤ 10) : (acSymbol run cat).toNat = 16 * run + cat := by
  rw [acSymbol, BitVec.toNat_ofNat]; omega

/-- The symbol byte of an item tells its kind, its run and its category: the low nibble of ZRL and EOB is 0. -/
theorem item_of_symbol_eq {x y : AcItem} (hx : x.Coded) (hy : y.Coded) (h : x.symbol = y.symbol) :
    x.valueBits.len = y.valueBits.len ∧ (x.valueBits = y.valueBits → x = y) := by
  have hbyte := congrArg BitVec.toNat h
  cases x with
  | rc run cat v =>
    obtain ⟨hrun, hpos, hcat, rfl⟩ := hx
    have hsymbol := acSymbol_toNat hrun hcat
    cases y with
    | rc run' cat' v' =>
      obtain ⟨hrun', hpos', hcat', rfl⟩ := hy
      have hsymbol' := acSymbol_toNat hrun' hcat'
      simp only [AcItem.symbol] at hbyte
      obtain ⟨rfl, hcats⟩ : run = run' ∧ category v = category v' := by omega
      refine ⟨by simpa only [AcItem.valueBits, vliBits_len] using hcats, fun hvalue => ?_⟩
      rw [vliBits_injective hvalue]
    | zrl => simp only [AcItem.symbol, hsymbol, BitVec.reduceToNat] at hbyte; omega
    | eob => simp only [AcItem.symbol, hsymbol, BitVec.reduceToNat] at hbyte; omega
  | zrl =>
    cases y with
    | rc run' cat' v' =>
      obtain ⟨hrun', hpos', hcat', -⟩ := hy
      simp only [AcItem.symbol, acSymbol_toNat hrun' hcat', BitVec.reduceToNat] at hbyte
      omega
    | zrl => exact ⟨rfl, fun _ => rfl⟩
    | eob => simp only [AcItem.symbol] at hbyte; cases hbyte
  | eob =>
    cases y with
    | rc run' cat' v' =>
      obtain ⟨hrun', hpos', hcat', -⟩ := hy
      simp only [AcItem.symbol, acSymbol_toNat hrun' hcat', BitVec.reduceToNat] at hbyte
      omega
    | zrl => simp only [AcItem.symbol] at hbyte; cases hbyte
    | eob => exact ⟨rfl, fun _ => rfl⟩

/-! The bits of the items of a block. -/

/-- The bits of a list of AC items with their codes. -/
def itemBits (ps : List (AcItem × BitString)) : BitString := concatAll ((ps.flatMap codedTokens).map Token.str)

theorem concatAll_codedTokens_append (p : AcItem × BitString) (ss : List BitString) :
    concatAll ((codedTokens p).map Token.str ++ ss) = concatBits p.2 (concatBits p.1.valueBits (concatAll ss)) := by
  obtain ⟨x, e⟩ := p
  cases x <;> simp [codedTokens, AcItem.valueBits, concatAll_cons]

theorem itemBits_cons (p : AcItem × BitString) (ps : List (AcItem × BitString)) :
    itemBits (p :: ps) = concatBits p.2 (concatBits p.1.valueBits (itemBits ps)) := by
  rw [itemBits, List.flatMap_cons, List.map_append, concatAll_codedTokens_append]
  rfl

theorem concatAll_dcPart_append (diff : Int) (e : BitString) (ss : List BitString) :
    concatAll ((dcPart diff e).map Token.str ++ ss) = concatBits e (concatBits (vliBits diff) (concatAll ss)) := by
  unfold dcPart
  split
  case isTrue h =>
    have hempty : vliBits diff = ⟨0, 0⟩ := by rw [h]; rfl
    rw [hempty, concatBits_empty_left]
    exact concatAll_cons e ss
  case isFalse => simp [concatAll_cons]

/-- Items that can be told apart by the codes of a table: each holds what its symbol byte holds, and has its code there. -/
def CodedIn (tab : CodeTable) (ps : List (AcItem × BitString)) : Prop :=
  ∀ p ∈ ps, p.1.Coded ∧ lookup tab p.1.symbol = some p.2

section Items

variable {p : Byte → Bool} {tab : CodeTable} (htable : tableOk p tab = true)

include htable

theorem proper_itemBits {ps : List (AcItem × BitString)} (h : CodedIn tab ps) : Proper (itemBits ps) := by
  induction ps with
  | nil => exact Nat.one_pos
  | cons p ps ih =>
    obtain ⟨⟨-, hcode⟩, hps⟩ := List.forall_mem_cons.mp h
    obtain ⟨-, -, hproper⟩ := lookup_fits htable hcode
    rw [itemBits_cons]
    exact proper_concatBits hproper (proper_concatBits (proper_valueBits _) (ih hps))

theorem itemBits_len_pos {q : AcItem × BitString} {qs : List (AcItem × BitString)} (h : CodedIn tab (q :: qs)) :
    0 < (itemBits (q :: qs)).len := by
  obtain ⟨⟨-, hcode⟩, -⟩ := List.forall_mem_cons.mp h
  obtain ⟨hpos, -, -⟩ := lookup_fits htable hcode
  rw [itemBits_cons]
  exact Nat.lt_of_lt_of_le hpos (Nat.le_add_right _ _)

/-- Item by item: the first code tells the first symbol, which tells how long its value bits are. -/
theorem items_of_itemBits_eq {ps qs : List (AcItem × BitString)} (hps : CodedIn tab ps) (hqs : CodedIn tab qs)
    (h : itemBits ps = itemBits qs) : ps.map Prod.fst = qs.map Prod.fst := by
  induction ps generalizing qs with
  | nil =>
    cases qs with
    | nil => rfl
    | cons q qs => exact absurd (congrArg BitString.len h) (itemBits_len_pos htable hqs).ne
  | cons p ps ih =>
    cases qs with
    | nil => exact absurd (congrArg BitString.len h) (itemBits_len_pos htable hps).ne'
    | cons q qs =>
      obtain ⟨⟨hp, hpcode⟩, hps⟩ := List.forall_mem_cons.mp hps
      obtain ⟨⟨hq, hqcode⟩, hqs⟩ := List.forall_mem_cons.mp hqs
      have hpsProper := proper_itemBits htable hps
      have hqsProper := proper_itemBits htable hqs
      rw [itemBits_cons, itemBits_cons] at h
      obtain ⟨hsymbol, hrest⟩ := symbol_of_code_at_front (proper_concatBits (proper_valueBits _) hpsProper)
        (proper_concatBits (proper_valueBits _) hqsProper) h htable hpcode hqcode
      obtain ⟨hlen, hitem⟩ := item_of_symbol_eq hp hq hsymbol
      obtain ⟨hvalue, htail⟩ := concatBits_inj hpsProper hqsProper hrest hlen
      rw [List.map_cons, List.map_cons, hitem hvalue, ih hps hqs htail]

end Items

/-! The bits of a block. -/

/-- A block whose tokens are complete: its DC code, and its AC items with their codes, whose bits follow the DC value bits. -/
theorem blockTokens_bits {c : Config} {comp : Component} {r : Regs} {toks : List Token}
    (h : blockTokens c comp r = (toks, true)) : ∃ (e : BitString) (ps : List (AcItem × BitString)),
      dcEntry c (classOfComponent comp) (dcDiff r comp r.dc) = some e ∧ acSymbols r.acs = ps.map Prod.fst ∧
      CodedIn (huff c (acTable (classOfComponent comp))) ps ∧
      concatAll (toks.map Token.str) = concatBits e (concatBits (vliBits (dcDiff r comp r.dc)) (itemBits ps)) := by
  obtain ⟨e, ps, hdc, hitems, hentries, rfl⟩ := blockTokens_complete h
  refine ⟨e, ps, hdc, hitems, fun p hp => ⟨?_, hrom_symbol_of_acEntry (hentries p hp)⟩, ?_⟩
  · exact coded_of_acEntry (hitems ▸ List.mem_map_of_mem hp) (hentries p hp)
  · rw [List.map_append, concatAll_dcPart_append]
    rfl

/-- The symbol of a DC difference tells its category, which fits a byte. -/
theorem category_of_dcSymbol_eq {m n : Nat} (hm : m ≤ 11) (hn : n ≤ 11) (h : BitVec.ofNat 8 m = BitVec.ofNat 8 n) : m = n := by
  have hbyte := congrArg BitVec.toNat h
  rw [BitVec.toNat_ofNat, BitVec.toNat_ofNat] at hbyte
  omega

end Sys2Proof.Machine

open Sys2Proof Sys2Proof.Machine

/-- Settles O51: the DC code tells how long the DC value bits are, the AC codes tell the items, and the items are those of one
vector of coefficients (R175). -/
theorem blockBitsDetermineTheBlock : Obligations.BlockBitsDetermineTheBlock := by
  intro c comp r q ts us hc hr hq h
  have hdcTable := tableOk_of_admissible hc (dcTable (classOfComponent comp))
  have hacTable := tableOk_of_admissible hc (acTable (classOfComponent comp))
  obtain ⟨e, ps, hdc, hitems, hps, hbits⟩ := blockTokens_bits hr
  obtain ⟨f, qs, hdc', hitems', hqs, hbits'⟩ := blockTokens_bits hq
  have hpsProper := proper_itemBits hacTable hps
  have hqsProper := proper_itemBits hacTable hqs
  rw [hbits, hbits'] at h
  obtain ⟨hsymbol, hrest⟩ := symbol_of_code_at_front (proper_concatBits (proper_vliBits _) hpsProper)
    (proper_concatBits (proper_vliBits _) hqsProper) h hdcTable (hrom_of_dcEntry hdc) (hrom_of_dcEntry hdc')
  have hcategory := category_of_dcSymbol_eq (category_le_of_dcEntry hdc) (category_le_of_dcEntry hdc') hsymbol
  obtain ⟨hvalue, htail⟩ := concatBits_inj hpsProper hqsProper hrest (by rw [vliBits_len, vliBits_len, hcategory])
  refine ⟨vliBits_injective hvalue, ?acs⟩
  case acs =>
    have hsymbols : acSymbols r.acs = acSymbols q.acs := by
      rw [hitems, hitems', items_of_itemBits_eq hacTable hps hqs htail]
    calc r.acs = acExpand (acSymbols r.acs) := (acExpandUndoesAcSymbols _ (length_acs r)).symm
      _ = acExpand (acSymbols q.acs) := by rw [hsymbols]
      _ = q.acs := acExpandUndoesAcSymbols _ (length_acs q)
end
